-- ==== Sys2Proof/Word.lean ====
section
/-! DEFINITION. The words the machine moves: 8-bit data and 16-bit bus addresses (spec R5). -/

namespace Sys2Proof

/-- A `u8` of the spec: accumulator, index registers, stack pointer, every bus datum (R5). -/
abbrev Byte := BitVec 8

/-- A `u16` of the spec: program counter, every bus address (R5). -/
abbrev Addr := BitVec 16

end Sys2Proof
end

