-- ==== Sys2Proof/Config.lean ====
section
/-! DEFINITION. What is fixed for one machine: the thirteen addressing-mode tags and the operand forms they stand
for (R5, R72, R73), and the open parameters of R6. `ZP_PTR_WRAP` and the answers of the bus oracle are constants without a
value; `ILLEGAL_MODE` and the addresses that are no plain memory are `Parameters`, an argument that State carries
unchanged; `POWER_ON` is any state (notes 1, 3, 5 and 6). -/

namespace Sys2Proof

/-- The mode tags of R73, in its order. -/
inductive Mode where
  | imp | acc | imm | rel | zp | zpx | zpy | abs | abx | aby | ind | izx | izy
  deriving DecidableEq, Repr

/-- An operand of one of the nine modes whose effective address is the address of the operand byte the handler
reads or writes (R103, R105 to R110, R114, R115), with the operand bytes of the instruction in it (R71, R72). -/
inductive Operand where
  /-- R103, `#$nn`: the byte after the opcode is the datum. -/
  | imm (d8 : Byte)
  /-- R105, `$nn`. -/
  | zp (d8 : Byte)
  /-- R106, `$nn,X`. -/
  | zpx (d8 : Byte)
  /-- R107, `$nn,Y`. -/
  | zpy (d8 : Byte)
  /-- R108, `$nnnn`: `lo` is the first operand byte, `hi` the second. -/
  | abs (lo hi : Byte)
  /-- R109, `$nnnn,X`. -/
  | abx (lo hi : Byte)
  /-- R110, `$nnnn,Y`. -/
  | aby (lo hi : Byte)
  /-- R114, `($nn,X)`. -/
  | izx (d8 : Byte)
  /-- R115, `($nn),Y`. -/
  | izy (d8 : Byte)
  deriving DecidableEq, Repr

/-- What an undocumented opcode consumes (R231): any of the thirteen modes, since `ILLEGAL_MODE` may give it any (R6). -/
inductive NopOperand where
  | imp
  | acc
  /-- R104: the displacement byte. -/
  | rel (d8 : Byte)
  /-- R113: the pointer's address, low byte first. -/
  | ind (lo hi : Byte)
  | mem (o : Operand)
  deriving DecidableEq, Repr

/-- What a shift or rotate works on: the resolver's token `ACC` (R102) or a memory operand (R200). -/
inductive ShiftTarget where
  | acc
  | mem (o : Operand)
  deriving DecidableEq, Repr

/-- `ZP_PTR_WRAP` (R6, R112): whether the high byte of a zero-page pointer at 0x00FF is read from 0x0000 (`true`) or
from 0x0100 (`false`, the spec's default). The source does not say (N15: assume neither value), so it has no body and
a theorem about the machine holds for both values. Note 5. -/
opaque Config.zpPtrWrap : Bool

/-! ### `ILLEGAL_MODE` (R6, R82, D2) -/

/-- A value of `ILLEGAL_MODE`, written as the undocumented opcodes that have another mode than the table of R82 gives
them. Every map from the 105 values to the mode tags is such a list. Note 6. -/
abbrev IllegalModes := List (Byte × Mode)

/-- The default of `ILLEGAL_MODE`: the table of R82 itself. -/
def IllegalModes.default : IllegalModes := []

/-! ### `BUS` (R6, R41, D23) -/

/-- One event on the bus. -/
inductive BusAccess where
  /-- `read(address)` by the core, with the byte answered (R40). -/
  | read (addr : Addr) (value : Byte)
  /-- `write(address, byte)` by the core (R40). -/
  | write (addr : Addr) (value : Byte)
  /-- A write of the host's between two transactions (R8, R282). -/
  | hostWrite (addr : Addr) (value : Byte)
  deriving DecidableEq, Repr

/-- The bus oracle (R41, D23): the byte the collaborator answers to a read of the address, after the events listed,
oldest first. It has no body: nothing relates an answer to an earlier write or to another answer, a read may change
later answers, and a theorem about the machine holds for every collaborator. Note 1. -/
opaque Config.busAnswer : List BusAccess → Addr → Byte

/-- The open parameters of R6 that the machine takes as an argument. -/
structure Parameters where
  /-- `ILLEGAL_MODE` (R82). -/
  illegal : IllegalModes
  /-- The addresses behind which the collaborator is the oracle `Config.busAnswer`; every other address is plain memory,
  the instance of R41. With all 65536 listed `BUS` is an oracle alone, with none it is plain memory. Note 1. -/
  devices : List Addr
  deriving DecidableEq, Repr

/-- `ILLEGAL_MODE` at its default, and plain memory behind the whole bus. -/
def Parameters.default : Parameters where
  illegal := .default
  devices := []

end Sys2Proof
end

