-- ==== Sys2Proof/Machine/State.lean ====
section
/-! DEFINITION. The state of the machine as plain data: the eleven elements of R10 under the spec's own names, the
plain memory behind the bus, the events on the bus, and the open parameters. -/

namespace Sys2Proof.Machine

/-- Plain memory (R41, note 1): pairs of address and byte in the canonical form of `Memory.wf`. -/
abbrev Memory := List Host.Cell

/-- The core's eleven state elements (R10, R11), then what stands behind the bus. -/
structure State where
  /-- accumulator (R12) -/
  A : Byte
  /-- index register X (R12) -/
  X : Byte
  /-- index register Y (R12) -/
  Y : Byte
  /-- stack pointer, an offset into page 1 (R16) -/
  SP : Byte
  /-- program counter (R14) -/
  PC : Addr
  /-- carry (R17) -/
  C : Bool
  /-- zero (R17) -/
  Z : Bool
  /-- interrupt-disable (R17) -/
  I : Bool
  /-- decimal (R17) -/
  D : Bool
  /-- overflow (R17) -/
  V : Bool
  /-- negative (R17) -/
  N : Bool
  /-- the plain memory behind the bus, no state of the core (R26, R41); note 1 -/
  mem : Memory
  /-- the open parameters `ILLEGAL_MODE` and `BUS` of R6, which nothing in the machine writes; notes 1 and 6 -/
  params : Parameters
  /-- the events on the bus before the current transaction, oldest first: what the bus oracle's answers may depend on
  (R41); note 1 -/
  past : List BusAccess
  /-- the model's own field: the bus accesses of the current or last transaction, oldest first, since their number and
  order is observable (R43, R54); only the bus oracle's answers depend on it; note 4 -/
  trace : List BusAccess
  deriving DecidableEq, Repr

/-- Why a step could stop. There is no reason: "There are no fatal conditions intrinsic to the core" (R9, R240), so
this type has no constructor and no step of the model can fault. -/
inductive Fault where
  deriving DecidableEq, Repr

/-- Why an instruction could have no meaning. -/
inductive Refusal where
  /-- Raised by an arm of `exec` for an instruction without a meaning in the model; no arm raises it now. Safe. -/
  | notModelled (mnemonic : String)
  deriving DecidableEq, Repr

/-- The answer of a meaning. -/
abbrev Result := Host.Outcome State Fault Refusal

/-- The model's `POWER_ON` (R31, which gives no value): every element zero, over plain memory with nothing listed, and
`ILLEGAL_MODE` at its default. DESIGN CHOICE, unsafe, notes 1, 3 and 6. -/
def State.powerOn : State where
  A := 0x00
  X := 0x00
  Y := 0x00
  SP := 0x00
  PC := 0x0000
  C := false
  Z := false
  I := false
  D := false
  V := false
  N := false
  mem := []
  params := .default
  past := []
  trace := []

/-- The machine right after `reset()` (R30, R270) from `State.powerOn`: `I` is 1, `SP` is lower by 3, and `PC` is the
word at 0xFFFC, whose two bytes have just been read. -/
def State.reset : State where
  A := 0x00
  X := 0x00
  Y := 0x00
  SP := 0xFD
  PC := 0x0000
  C := false
  Z := false
  I := true
  D := false
  V := false
  N := false
  mem := []
  params := .default
  past := []
  trace := [.read 0xFFFC 0x00, .read 0xFFFD 0x00]

end Sys2Proof.Machine
end

