-- ==== Sys2Proof/Machine/Flags.lean ====
section
/-! DEFINITION. Every flag computation of the spec: `SetNZ` (R20), the status byte (R23, R24), `Compare` (R176), the
binary add with carry (R213, R216) and the decimal correction (R218, R219). -/

namespace Sys2Proof.Machine

/-- Bit 7 of a byte. -/
def negative (v : Byte) : Bool := v.getLsbD 7

/-- Whether a byte is 0x00. -/
def isZero (v : Byte) : Bool := v == 0x00

/-- A flag as the spec's `bit`. -/
def bitNat (b : Bool) : Nat := if b then 1 else 0

/-- `SetNZ(v)` (R20). -/
def State.setNZ (s : State) (v : Byte) : State := { s with N := negative v, Z := isZero v }

/-! ### The status byte (R22 to R25) -/

/-- A flag at its place in the status byte. -/
def statusBit (b : Bool) (place : Nat) : Byte := if b then 1#8 <<< place else 0

/-- `PackP(b)` (R23). -/
def State.packP (s : State) (b : Bool) : Byte :=
  statusBit s.C 0 ||| statusBit s.Z 1 ||| statusBit s.I 2 ||| statusBit s.D 3 ||| statusBit b 4 ||| statusBit true 5
    ||| statusBit s.V 6 ||| statusBit s.N 7

/-- `UnpackP(v)` (R24): bits 4 and 5 are discarded. -/
def State.unpackP (s : State) (v : Byte) : State :=
  { s with
    C := v.getLsbD 0
    Z := v.getLsbD 1
    I := v.getLsbD 2
    D := v.getLsbD 3
    V := v.getLsbD 6
    N := v.getLsbD 7 }

/-! ### Compare (R176) -/

/-- `Compare(r, m)` (R176): `C` is unsigned `r >= m`, `N` and `Z` come from the difference. -/
def State.compare (s : State) (r m : Byte) : State :=
  ({ s with C := decide (m.toNat ≤ r.toNat) }).setNZ (r - m)

/-! ### Add with carry (R213, R216) -/

/-- The 9-bit sum `s` of R213. -/
def sumNat (a m : Byte) (c : Bool) : Nat := a.toNat + m.toNat + bitNat c

/-- `c7` of R213, the final carry-out. -/
def carry7 (a m : Byte) (c : Bool) : Bool := decide (255 < sumNat a m c)

/-- `c6` of R213, the carry-out of the low seven bits' sum. -/
def carry6 (a m : Byte) (c : Bool) : Bool := decide (127 < (a &&& 0x7F).toNat + (m &&& 0x7F).toNat + bitNat c)

/-- `r` of R213, the low byte of the sum. -/
def sumByte (a m : Byte) (c : Bool) : Byte := BitVec.ofNat 8 (sumNat a m c)

/-- `AddWithCarry(m)` (R213): `V`, `N`, `Z` from the binary sum in both modes (R215), `A` and `C` only when `D` is 0. -/
def State.addWithCarry (s : State) (m : Byte) : State :=
  let t := ({ s with V := xor (carry6 s.A m s.C) (carry7 s.A m s.C) }).setNZ (sumByte s.A m s.C)
  if s.D then t else { t with A := sumByte s.A m s.C, C := carry7 s.A m s.C }

/-- `SubWithCarry(m)` (R216). -/
def State.subWithCarry (s : State) (m : Byte) : State := s.addWithCarry (~~~m)

/-! ### Decimal correction (R218, R219) -/

/-- `v & 0x0F`. -/
def lowNibble (v : Byte) : Nat := v.toNat % 16

/-- `v >> 4`. -/
def highNibble (v : Byte) : Nat := v.toNat / 16

/-- `((hi & 0x0F) << 4) | (lo & 0x0F)`, where `& 0x0F` takes the low four bits of the two's-complement form (R219). -/
def nibbles (hi lo : Int) : Byte := BitVec.ofInt 4 hi ++ BitVec.ofInt 4 lo

/-- One digit of `DecimalAdd`: the sum less 10 with a carry when it exceeds 9 (R218). -/
def addDigit (sum : Int) : Int × Bool := if 9 < sum then (sum - 10, true) else (sum, false)

/-- `DecimalAdd(a, m, c)` (R218). -/
def decimalAdd (a m : Byte) (c : Bool) : Byte × Bool :=
  let lo := addDigit (lowNibble a + lowNibble m + bitNat c)
  let hi := addDigit (highNibble a + highNibble m + bitNat lo.2)
  (nibbles hi.1 lo.1, hi.2)

/-- One digit of `DecimalSub`: the difference plus 10 with a borrow when it is negative (R219). -/
def subDigit (difference : Int) : Int × Bool :=
  if difference < 0 then (difference + 10, true) else (difference, false)

/-- `DecimalSub(a, m, c)` (R219). -/
def decimalSub (a m : Byte) (c : Bool) : Byte × Bool :=
  let lo := subDigit (lowNibble a - lowNibble m - (1 - bitNat c))
  let hi := subDigit (highNibble a - highNibble m - bitNat lo.2)
  (nibbles hi.1 lo.1, !hi.2)

end Sys2Proof.Machine
end

