-- ==== Sys2Proof/Machine/Ops.lean ====
section
/-! DEFINITION. The named operations over memory, bus and stack: bytes and words, the plain memory and the oracle behind the bus,
`MemRead` and `MemWrite` (R40), the fetch primitives (R100), `Push` and `Pop` (R27, R28), `Deref16` (R111),
the interrupt sequence every entry takes (R244) and the return from it (R147). -/

namespace Sys2Proof.Machine

/-! ### Bytes and words (R7, R45) -/

/-- `{hi, lo}`. -/
def word (hi lo : Byte) : Addr := hi ++ lo

/-- `hi_byte(w)`. -/
def hiByte (w : Addr) : Byte := w.extractLsb' 8 8

/-- `lo_byte(w)`. -/
def loByte (w : Addr) : Byte := w.extractLsb' 0 8

/-- `zext_16(v)`. -/
def zext16 (v : Byte) : Addr := v.zeroExtend 16

/-- `sext_16(v)`. -/
def sext16 (v : Byte) : Addr := v.signExtend 16

/-! ### Memory behind the bus (R41, R51) -/

/-- What an address that is not listed reads as. DESIGN CHOICE, note 2. -/
def unlistedByte : Byte := 0x00

/-- The number of bus addresses (R5). -/
def addressCount : Nat := 65536

/-- The byte at an address. -/
def Memory.read : Memory → Nat → Byte
  | [], _ => unlistedByte
  | (k, v) :: m, a => if a = k then v else Memory.read m a

/-- Replace the byte at an address, keeping the canonical form. -/
def Memory.write : Memory → Nat → Byte → Memory
  | [], a, v => if v = unlistedByte then [] else [(a, v)]
  | (k, w) :: m, a, v =>
    if a < k then (if v = unlistedByte then (k, w) :: m else (a, v) :: (k, w) :: m)
    else if a = k then (if v = unlistedByte then m else (a, v) :: m)
    else (k, w) :: Memory.write m a v

/-- The canonical form from address `low` on: addresses strictly rising, below 65536, no entry equal to what an
unlisted address reads as. -/
def Memory.wfFrom (low : Nat) : Memory → Bool
  | [] => true
  | (k, v) :: m => decide (low ≤ k) && decide (k < addressCount) && !(v == unlistedByte) && Memory.wfFrom (k + 1) m

/-- The canonical form of memory. -/
def Memory.wf (m : Memory) : Bool := Memory.wfFrom 0 m

/-! ### Bus accesses (R40, R43) -/

/-- What has happened on the bus so far, oldest first. -/
def State.history (s : State) : List BusAccess := s.past ++ s.trace

/-- Plain memory stands behind the address (R41). -/
abbrev State.IsPlain (s : State) (a : Addr) : Prop := a ∉ s.params.devices

/-- The byte the bus would answer (R41): from plain memory, or from the oracle. No access is made. -/
def State.peek (s : State) (a : Addr) : Byte :=
  if a ∈ s.params.devices then Config.busAnswer s.history a else Memory.read s.mem a.toNat

/-- Plain memory after a byte is written on the bus: where a device stands, it is left alone. -/
def Memory.store (devices : List Addr) (m : Memory) (a : Addr) (v : Byte) : Memory :=
  if a ∈ devices then m else Memory.write m a.toNat v

/-- Note a read access that was answered with `v`. -/
def State.noteRead (s : State) (a : Addr) (v : Byte) : State := { s with trace := s.trace ++ [.read a v] }

/-- `MemRead(addr, 1)`. -/
def State.memRead (s : State) (a : Addr) : Byte × State := (s.peek a, s.noteRead a (s.peek a))

/-- `MemWrite(addr, 1, v)`: the byte goes to plain memory, and to the oracle by the record of it. -/
def State.memWrite (s : State) (a : Addr) (v : Byte) : State :=
  { s with mem := Memory.store s.params.devices s.mem a v, trace := s.trace ++ [.write a v] }

/-- A transaction begins: no access of it has been made, and those before it are past. Note 4. -/
def State.beginTransaction (s : State) : State := { s with past := s.history, trace := [] }

/-! ### Fetching (R14, R100) -/

/-- `PC <- (PC + 1) mod 65536`. -/
def State.advance (s : State) : State := { s with PC := s.PC + 1 }

/-- `Fetch8()` (R100). -/
def State.fetch8 (s : State) : Byte × State :=
  let r := s.memRead s.PC
  (r.1, r.2.advance)

/-- `Fetch8()` of an operand byte that the decoded instruction already holds (note 9): the access is noted with the
instruction's byte, which in a step is the byte the bus answers at `PC`. -/
def State.takeOperand (s : State) (b : Byte) : State := (s.noteRead s.PC b).advance

/-- `Fetch16()` (R100) of operand bytes that the decoded instruction already holds: low byte first. -/
def State.takeOperand16 (s : State) (lo hi : Byte) : State := (s.takeOperand lo).takeOperand hi

/-- `Deref16(p)` (R111): low byte first, the high byte at `p + 1` with full 16-bit carry. -/
def State.deref16 (s : State) (p : Addr) : Addr × State :=
  let lo := s.memRead p
  let hi := lo.2.memRead (p + 1)
  (word hi.1 lo.1, hi.2)

/-! ### The stack (R16, R26 to R29) -/

/-- The bus address that `SP` designates (R16). -/
def State.stackAddr (s : State) : Addr := 0x0100 + zext16 s.SP

/-- `Push(v)` (R27): write, then decrement. -/
def State.push (s : State) (v : Byte) : State :=
  let t := s.memWrite s.stackAddr v
  { t with SP := t.SP - 1 }

/-- `Pop()` (R28): increment, then read. -/
def State.pop (s : State) : Byte × State :=
  let t := { s with SP := s.SP + 1 }
  t.memRead t.stackAddr

/-! ### Interrupt entry and return (R147, R244) -/

/-- Non-maskable-interrupt vector (R5, R51). -/
def nmiVector : Addr := 0xFFFA

/-- Reset vector (R5, R51). -/
def resetVector : Addr := 0xFFFC

/-- Maskable-interrupt and software-interrupt vector (R5, R51). -/
def irqVector : Addr := 0xFFFE

/-- `PC <- Deref16(vec)`. -/
def State.loadVector (s : State) (vec : Addr) : State :=
  let r := s.deref16 vec
  { r.2 with PC := r.1 }

/-- `Interrupt(vec, b)` (R244): `PC` high, `PC` low and the status byte with break bit `b` are pushed, `I` is set after
the push, and `PC` is loaded from the vector. `D` is not written. -/
def State.interrupt (s : State) (vec : Addr) (b : Bool) : State :=
  let t := (s.push (hiByte s.PC)).push (loByte s.PC)
  let u := t.push (t.packP b)
  ({ u with I := true }).loadVector vec

/-- The return from an interrupt (R147): status, then `PC` low, then `PC` high; nothing is added to `PC`. -/
def State.returnFromInterrupt (s : State) : State :=
  let p := s.pop
  let lo := (p.2.unpackP p.1).pop
  let hi := lo.2.pop
  { hi.2 with PC := word hi.1 lo.1 }

end Sys2Proof.Machine
end

