-- ==== Sys2Proof/Machine/Operands.lean ====
section
/-! DEFINITION. The addressing-mode resolver (R100 to R117) and the operand accesses of the handlers: reading an
operand, storing to it, changing it in place, and branching. Every operation starts where the resolver starts: the
opcode has been fetched and `PC` is the address of the byte after it. -/

namespace Sys2Proof.Machine

/-! ### The resolver -/

/-- Where the high byte of the zero-page pointer at `z` is read from (R112). Only at 0xFF does the parameter matter. -/
def pointerHighAddr (wrap : Bool) (z : Byte) : Addr :=
  if z = 0xFF then (if wrap then 0x0000 else 0x0100) else zext16 (z + 1)

/-- `DerefZP(z)` (R112), with `ZP_PTR_WRAP` as an argument. -/
def derefZP (wrap : Bool) (z : Byte) (s : State) : Addr × State :=
  let lo := s.memRead (zext16 z)
  let hi := lo.2.memRead (pointerHighAddr wrap z)
  (word hi.1 lo.1, hi.2)

/-- `Resolve(mode)` (R116) for the nine modes with a memory operand, with `ZP_PTR_WRAP` as an argument: the effective
address and the state after the resolver's own accesses. -/
def resolveWith (wrap : Bool) (o : Operand) (s : State) : Addr × State :=
  match o with
  | .imm _ => (s.PC, s.advance)
  | .zp d8 => (zext16 d8, s.takeOperand d8)
  | .zpx d8 => (zext16 (d8 + s.X), s.takeOperand d8)
  | .zpy d8 => (zext16 (d8 + s.Y), s.takeOperand d8)
  | .abs lo hi => (word hi lo, s.takeOperand16 lo hi)
  | .abx lo hi => (word hi lo + zext16 s.X, s.takeOperand16 lo hi)
  | .aby lo hi => (word hi lo + zext16 s.Y, s.takeOperand16 lo hi)
  | .izx d8 => derefZP wrap (d8 + s.X) (s.takeOperand d8)
  | .izy d8 =>
    let p := derefZP wrap d8 (s.takeOperand d8)
    (p.1 + zext16 s.Y, p.2)

/-- `Resolve(mode)` of the machine (R116). -/
def resolve (o : Operand) (s : State) : Addr × State := resolveWith Config.zpPtrWrap o s

/-- Relative mode (R104): the branch target, and the state after the displacement is fetched. -/
def resolveRel (d8 : Byte) (s : State) : Addr × State :=
  let t := s.takeOperand d8
  (t.PC + sext16 d8, t)

/-- Indirect mode (R113). -/
def resolveInd (lo hi : Byte) (s : State) : Addr × State := (s.takeOperand16 lo hi).deref16 (word hi lo)

/-! ### Operand accesses of the handlers -/

/-- The byte at an operand's effective address `ea`: in immediate mode the instruction's own byte (R103, note 9). -/
def operandAt (o : Operand) (ea : Addr) (s : State) : Byte :=
  match o with
  | .imm d8 => d8
  | .zp _ | .zpx _ | .zpy _ | .abs _ _ | .abx _ _ | .aby _ _ | .izx _ | .izy _ => s.peek ea

/-- `m <- MemRead(ea, 1)` after the resolver. -/
def readOperand (o : Operand) (s : State) : Byte × State :=
  let r := resolve o s
  let m := operandAt o r.1 r.2
  (m, r.2.noteRead r.1 m)

/-- The address a memory operand is read from or stored to. -/
def effectiveAddr (o : Operand) (s : State) : Addr := (resolve o s).1

/-- The operand byte `m`. -/
def operandValue (o : Operand) (s : State) : Byte := (readOperand o s).1

/-- `MemWrite(ea, 1, v)` after the resolver; the destination is not read (R193). -/
def storeOperand (o : Operand) (v : Byte) (s : State) : State :=
  let r := resolve o s
  r.2.memWrite r.1 v

/-- A read-modify-write at `ea`: one read, one write, and `SetNZ` of the new byte (R170, R200). -/
def modifyMemory (o : Operand) (f : Byte → Byte) (s : State) : State :=
  let m := readOperand o s
  (m.2.memWrite (effectiveAddr o s) (f m.1)).setNZ (f m.1)

/-- `ReadOperand`, one bit position moved, `C <- ` the bit shifted out, `WriteResult`, `SetNZ` (R200): `f` is the new
byte and `out` the new carry, each from the operand and the old carry. -/
def shiftTarget (t : ShiftTarget) (f : Byte → Bool → Byte) (out : Byte → Bool) (s : State) : State :=
  match t with
  | .acc => ({ s with A := f s.A s.C, C := out s.A }).setNZ (f s.A s.C)
  | .mem o =>
    let m := operandValue o s
    { modifyMemory o (fun v => f v s.C) s with C := out m }

/-- `Branch(cond, ea)` after relative mode (R120). -/
def branch (cond : Bool) (d8 : Byte) (s : State) : State :=
  let r := resolveRel d8 s
  if cond then { r.2 with PC := r.1 } else r.2

end Sys2Proof.Machine
end

