-- ==== Sys2Proof/Machine/Alu.lean ====
section
/-! DEFINITION. Logic, add with carry and subtract with carry, binary and decimal (R210 to R219). -/

namespace Sys2Proof.Machine

/-- ORA, R210. -/
def execOra (o : Operand) (s : State) : Result :=
  let r := readOperand o s
  .next (({ r.2 with A := s.A ||| r.1 }).setNZ (s.A ||| r.1))

/-- AND, R211. -/
def execAnd (o : Operand) (s : State) : Result :=
  let r := readOperand o s
  .next (({ r.2 with A := s.A &&& r.1 }).setNZ (s.A &&& r.1))

/-- EOR, R212. -/
def execEor (o : Operand) (s : State) : Result :=
  let r := readOperand o s
  .next (({ r.2 with A := s.A ^^^ r.1 }).setNZ (s.A ^^^ r.1))

/-- The pair a decimal correction yields, written to `A` and `C`. -/
def State.writeDecimal (s : State) (r : Byte × Bool) : State := { s with A := r.1, C := r.2 }

/-- ADC, R214: the flags of the binary sum, and in decimal mode `A` and `C` of `DecimalAdd`. -/
def execAdc (o : Operand) (s : State) : Result :=
  let r := readOperand o s
  let t := r.2.addWithCarry r.1
  .next (if s.D then t.writeDecimal (decimalAdd s.A r.1 s.C) else t)

/-- SBC, R217: the flags of the binary difference, and in decimal mode `A` and `C` of `DecimalSub`. -/
def execSbc (o : Operand) (s : State) : Result :=
  let r := readOperand o s
  let t := r.2.subWithCarry r.1
  .next (if s.D then t.writeDecimal (decimalSub s.A r.1 s.C) else t)

end Sys2Proof.Machine
end

