-- ==== Sys2Proof/Machine/Branch.lean ====
section
/-! DEFINITION. Branches and flag set and clear (R120 to R136). -/

namespace Sys2Proof.Machine

/-- R121. -/
def execBpl (d8 : Byte) (s : State) : Result := .next (branch (!s.N) d8 s)

/-- R122. -/
def execBmi (d8 : Byte) (s : State) : Result := .next (branch s.N d8 s)

/-- R123. -/
def execBvc (d8 : Byte) (s : State) : Result := .next (branch (!s.V) d8 s)

/-- R124. -/
def execBvs (d8 : Byte) (s : State) : Result := .next (branch s.V d8 s)

/-- R125. -/
def execBcc (d8 : Byte) (s : State) : Result := .next (branch (!s.C) d8 s)

/-- R126. -/
def execBcs (d8 : Byte) (s : State) : Result := .next (branch s.C d8 s)

/-- R127. -/
def execBne (d8 : Byte) (s : State) : Result := .next (branch (!s.Z) d8 s)

/-- R128. -/
def execBeq (d8 : Byte) (s : State) : Result := .next (branch s.Z d8 s)

/-- R130. -/
def execClc (s : State) : Result := .next { s with C := false }

/-- R131. -/
def execSec (s : State) : Result := .next { s with C := true }

/-- R132: in force for the very next host call. -/
def execCli (s : State) : Result := .next { s with I := false }

/-- R133. -/
def execSei (s : State) : Result := .next { s with I := true }

/-- R134. -/
def execCld (s : State) : Result := .next { s with D := false }

/-- R135. -/
def execSed (s : State) : Result := .next { s with D := true }

/-- R136. -/
def execClv (s : State) : Result := .next { s with V := false }

end Sys2Proof.Machine
end

