-- ==== Sys2Proof/Machine/IncDec.lean ====
section
/-! DEFINITION. Increment, decrement and compare (R170 to R179). -/

namespace Sys2Proof.Machine

/-- INC, R170. -/
def execInc (o : Operand) (s : State) : Result := .next (modifyMemory o (fun m => m + 1) s)

/-- DEC, R171. -/
def execDec (o : Operand) (s : State) : Result := .next (modifyMemory o (fun m => m - 1) s)

/-- INX, R172. -/
def execInx (s : State) : Result := .next (({ s with X := s.X + 1 }).setNZ (s.X + 1))

/-- INY, R173. -/
def execIny (s : State) : Result := .next (({ s with Y := s.Y + 1 }).setNZ (s.Y + 1))

/-- DEX, R174. -/
def execDex (s : State) : Result := .next (({ s with X := s.X - 1 }).setNZ (s.X - 1))

/-- DEY, R175. -/
def execDey (s : State) : Result := .next (({ s with Y := s.Y - 1 }).setNZ (s.Y - 1))

/-- CMP, R177. -/
def execCmp (o : Operand) (s : State) : Result :=
  let r := readOperand o s
  .next (r.2.compare s.A r.1)

/-- CPX, R178. -/
def execCpx (o : Operand) (s : State) : Result :=
  let r := readOperand o s
  .next (r.2.compare s.X r.1)

/-- CPY, R179. -/
def execCpy (o : Operand) (s : State) : Result :=
  let r := readOperand o s
  .next (r.2.compare s.Y r.1)

end Sys2Proof.Machine
end

