-- ==== Sys2Proof/Machine/Jump.lean ====
section
/-! DEFINITION. Jumps, subroutine call and return, software interrupt and return from interrupt (R140 to R147). -/

namespace Sys2Proof.Machine

/-- JMP absolute, R140. -/
def execJmpAbs (lo hi : Byte) (s : State) : Result := .next { s.takeOperand16 lo hi with PC := word hi lo }

/-- JMP indirect, R141: the pointer's high byte comes from `p + 1`, across a page end as well. -/
def execJmpInd (lo hi : Byte) (s : State) : Result :=
  let r := resolveInd lo hi s
  .next { r.2 with PC := r.1 }

/-- JSR, R143: both operand bytes are read before either push; the address of the last one is pushed, high byte
first. -/
def execJsr (lo hi : Byte) (s : State) : Result :=
  let t := s.takeOperand16 lo hi
  let r := t.PC - 1
  .next { (t.push (hiByte r)).push (loByte r) with PC := word hi lo }

/-- RTS, R144: the popped address plus 1. -/
def execRts (s : State) : Result :=
  let lo := s.pop
  let hi := lo.2.pop
  .next { hi.2 with PC := word hi.1 lo.1 + 1 }

/-- BRK, R146: the padding byte is skipped without being read, then the interrupt sequence with the break bit set. -/
def execBrk (s : State) : Result := .next (s.advance.interrupt irqVector true)

/-- RTI, R147. -/
def execRti (s : State) : Result := .next s.returnFromInterrupt

end Sys2Proof.Machine
end

