-- ==== Sys2Proof/Machine/LoadStore.lean ====
section
/-! DEFINITION. Loads and stores (R190 to R195). -/

namespace Sys2Proof.Machine

/-- LDA, R190. -/
def execLda (o : Operand) (s : State) : Result :=
  let r := readOperand o s
  .next (({ r.2 with A := r.1 }).setNZ r.1)

/-- LDX, R191. -/
def execLdx (o : Operand) (s : State) : Result :=
  let r := readOperand o s
  .next (({ r.2 with X := r.1 }).setNZ r.1)

/-- LDY, R192. -/
def execLdy (o : Operand) (s : State) : Result :=
  let r := readOperand o s
  .next (({ r.2 with Y := r.1 }).setNZ r.1)

/-- STA, R193. -/
def execSta (o : Operand) (s : State) : Result := .next (storeOperand o s.A s)

/-- STX, R194. -/
def execStx (o : Operand) (s : State) : Result := .next (storeOperand o s.X s)

/-- STY, R195. -/
def execSty (o : Operand) (s : State) : Result := .next (storeOperand o s.Y s)

end Sys2Proof.Machine
end

