-- ==== Sys2Proof/Machine/Nop.lean ====
section
/-! DEFINITION. The documented no-operation and the undocumented opcodes (R230, R231). -/

namespace Sys2Proof.Machine

/-- NOP, R230. -/
def execNop (s : State) : Result := .next s

/-- `*NOP`, R231: the resolver consumes the operand bytes and may read a pointer; the effective address is discarded
and never accessed. The opcode byte changes nothing beyond its mode. -/
def execStarNop (_op : Byte) (o : NopOperand) (s : State) : Result :=
  match o with
  | .imp | .acc => .next s
  | .rel d8 => .next (resolveRel d8 s).2
  | .ind lo hi => .next (resolveInd lo hi s).2
  | .mem o => .next (resolve o s).2

end Sys2Proof.Machine
end

