-- ==== Sys2Proof/Machine/Shift.lean ====
section
/-! DEFINITION. Shifts and rotates, of the accumulator and of memory (R200 to R204). -/

namespace Sys2Proof.Machine

/-- The carry as bit 0. -/
def carryLow (c : Bool) : Byte := if c then 0x01 else 0x00

/-- The carry as bit 7. -/
def carryHigh (c : Bool) : Byte := if c then 0x80 else 0x00

/-- ASL, R201. -/
def execAsl (t : ShiftTarget) (s : State) : Result :=
  .next (shiftTarget t (fun v _ => v <<< 1) (fun v => v.getLsbD 7) s)

/-- LSR, R202. -/
def execLsr (t : ShiftTarget) (s : State) : Result :=
  .next (shiftTarget t (fun v _ => v >>> 1) (fun v => v.getLsbD 0) s)

/-- ROL, R203. -/
def execRol (t : ShiftTarget) (s : State) : Result :=
  .next (shiftTarget t (fun v c => v <<< 1 ||| carryLow c) (fun v => v.getLsbD 7) s)

/-- ROR, R204. -/
def execRor (t : ShiftTarget) (s : State) : Result :=
  .next (shiftTarget t (fun v c => v >>> 1 ||| carryHigh c) (fun v => v.getLsbD 0) s)

end Sys2Proof.Machine
end

