-- ==== Sys2Proof/Machine/Stack.lean ====
section
/-! DEFINITION. Bit test, stack push and pull, register transfers (R150 to R165). -/

namespace Sys2Proof.Machine

/-- BIT, R150: `Z` from `A & m`, `N` and `V` from `m` itself. -/
def execBit (o : Operand) (s : State) : Result :=
  let r := readOperand o s
  .next { r.2 with Z := isZero (s.A &&& r.1), N := r.1.getLsbD 7, V := r.1.getLsbD 6 }

/-- PHP, R151: the break bit is 1. -/
def execPhp (s : State) : Result := .next (s.push (s.packP true))

/-- PLP, R152. -/
def execPlp (s : State) : Result :=
  let r := s.pop
  .next (r.2.unpackP r.1)

/-- PHA, R153. -/
def execPha (s : State) : Result := .next (s.push s.A)

/-- PLA, R154. -/
def execPla (s : State) : Result :=
  let r := s.pop
  .next (({ r.2 with A := r.1 }).setNZ r.1)

/-- TAX, R160. -/
def execTax (s : State) : Result := .next (({ s with X := s.A }).setNZ s.A)

/-- TAY, R161. -/
def execTay (s : State) : Result := .next (({ s with Y := s.A }).setNZ s.A)

/-- TXA, R162. -/
def execTxa (s : State) : Result := .next (({ s with A := s.X }).setNZ s.X)

/-- TYA, R163. -/
def execTya (s : State) : Result := .next (({ s with A := s.Y }).setNZ s.Y)

/-- TXS, R164: no flag is written. -/
def execTxs (s : State) : Result := .next { s with SP := s.X }

/-- TSX, R165. -/
def execTsx (s : State) : Result := .next (({ s with X := s.SP }).setNZ s.SP)

end Sys2Proof.Machine
end

