-- ==== Sys2Proof/Syntax.lean ====
section
/-! DEFINITION. The instructions. A row of spec/opcode_table.json is a cell of the opcode map of R77, a mnemonic in an
addressing mode: the constructor is the handler the mnemonic names (R76; the family files give one rule a handler) and
its operand is the mode with the operand bytes. JMP has a constructor for each of its two rules (R140, R141). Which
operand forms exist as encodings is WellFormed.lean's business. -/

namespace Sys2Proof

/-- The 56 documented mnemonics of R76 and the shared no-operation `*NOP` of the 105 undocumented opcodes (R231).
Operand bytes are named as in R71: `d8`, or `lo` and `hi`. -/
inductive Instr where
  -- branches, R121 to R128
  | bpl (d8 : Byte)
  | bmi (d8 : Byte)
  | bvc (d8 : Byte)
  | bvs (d8 : Byte)
  | bcc (d8 : Byte)
  | bcs (d8 : Byte)
  | bne (d8 : Byte)
  | beq (d8 : Byte)
  -- flag set and clear, R130 to R136
  | clc
  | sec
  | cli
  | sei
  | cld
  | sed
  | clv
  -- jumps, subroutines, interrupts, R140 to R147
  | jmpAbs (lo hi : Byte)
  | jmpInd (lo hi : Byte)
  | jsr (lo hi : Byte)
  | rts
  | brk
  | rti
  -- bit test, stack, transfers, R150 to R165
  | bit (o : Operand)
  | php
  | plp
  | pha
  | pla
  | tax
  | tay
  | txa
  | tya
  | txs
  | tsx
  -- increment, decrement, compare, R170 to R179
  | inc (o : Operand)
  | dec (o : Operand)
  | inx
  | iny
  | dex
  | dey
  | cmp (o : Operand)
  | cpx (o : Operand)
  | cpy (o : Operand)
  -- loads and stores, R190 to R195
  | lda (o : Operand)
  | ldx (o : Operand)
  | ldy (o : Operand)
  | sta (o : Operand)
  | stx (o : Operand)
  | sty (o : Operand)
  -- shifts and rotates, R201 to R204
  | asl (t : ShiftTarget)
  | lsr (t : ShiftTarget)
  | rol (t : ShiftTarget)
  | ror (t : ShiftTarget)
  -- logic and arithmetic, R210 to R217
  | ora (o : Operand)
  | and (o : Operand)
  | eor (o : Operand)
  | adc (o : Operand)
  | sbc (o : Operand)
  -- no-operations, R230 and R231
  | nop
  /-- `*NOP`: the undocumented opcode byte itself, and what its mode consumes. -/
  | starNop (op : Byte) (o : NopOperand)
  deriving DecidableEq, Repr

end Sys2Proof
end

