-- ==== Sys2Proof/Decode.lean ====
section
/-! DEFINITION. The dispatcher: the opcode map of R77 read from bytes to instructions (`decode`), and after it the
encoder, written from the table by mnemonic of R78 and the list of undocumented values of R82. The byte values are the
spec's decision D1 (note 7). -/

namespace Sys2Proof

/-! ### Modes (R73) -/

/-- How many operand bytes a mode consumes (R73). -/
def Mode.operandCount : Mode → Nat
  | .imp | .acc => 0
  | .imm | .rel | .zp | .zpx | .zpy | .izx | .izy => 1
  | .abs | .abx | .aby | .ind => 2

/-- The mode of an operand form (R73). -/
def Operand.mode : Operand → Mode
  | .imm _ => .imm
  | .zp _ => .zp
  | .zpx _ => .zpx
  | .zpy _ => .zpy
  | .abs _ _ => .abs
  | .abx _ _ => .abx
  | .aby _ _ => .aby
  | .izx _ => .izx
  | .izy _ => .izy

/-- The operand bytes of an operand form, in ascending address order (R71). -/
def Operand.bytes : Operand → List Byte
  | .imm d8 | .zp d8 | .zpx d8 | .zpy d8 | .izx d8 | .izy d8 => [d8]
  | .abs lo hi | .abx lo hi | .aby lo hi => [lo, hi]

/-- The mode of what an undocumented opcode consumes. -/
def NopOperand.mode : NopOperand → Mode
  | .imp => .imp
  | .acc => .acc
  | .rel _ => .rel
  | .ind _ _ => .ind
  | .mem o => o.mode

/-- The operand bytes of an undocumented opcode. -/
def NopOperand.bytes : NopOperand → List Byte
  | .imp | .acc => []
  | .rel d8 => [d8]
  | .ind lo hi => [lo, hi]
  | .mem o => o.bytes

/-- What an undocumented opcode of a mode consumes of the bytes that follow it. -/
def NopOperand.ofMode : Mode → Byte → Byte → NopOperand
  | .imp, _, _ => .imp
  | .acc, _, _ => .acc
  | .rel, b, _ => .rel b
  | .ind, lo, hi => .ind lo hi
  | .imm, b, _ => .mem (.imm b)
  | .zp, b, _ => .mem (.zp b)
  | .zpx, b, _ => .mem (.zpx b)
  | .zpy, b, _ => .mem (.zpy b)
  | .abs, lo, hi => .mem (.abs lo hi)
  | .abx, lo, hi => .mem (.abx lo hi)
  | .aby, lo, hi => .mem (.aby lo hi)
  | .izx, b, _ => .mem (.izx b)
  | .izy, b, _ => .mem (.izy b)

/-! ### Undocumented opcodes (R80, R82) -/

/-- The rows of R82, the default of `ILLEGAL_MODE` (D2). Note 6. -/
def illegalTable : List (Mode × List Byte) :=
  [ (.imp, [0x02, 0x12, 0x1A, 0x22, 0x32, 0x3A, 0x42, 0x52, 0x5A, 0x62, 0x72, 0x7A, 0x92, 0xB2, 0xD2, 0xDA, 0xF2, 0xFA]),
    (.imm, [0x0B, 0x2B, 0x4B, 0x6B, 0x80, 0x82, 0x89, 0x8B, 0xAB, 0xC2, 0xCB, 0xE2, 0xEB]),
    (.zp,  [0x04, 0x07, 0x27, 0x44, 0x47, 0x64, 0x67, 0x87, 0xA7, 0xC7, 0xE7]),
    (.zpx, [0x14, 0x17, 0x34, 0x37, 0x54, 0x57, 0x74, 0x77, 0xD4, 0xD7, 0xF4, 0xF7]),
    (.zpy, [0x97, 0xB7]),
    (.abs, [0x0C, 0x0F, 0x2F, 0x4F, 0x6F, 0x8F, 0xAF, 0xCF, 0xEF]),
    (.abx, [0x1C, 0x1F, 0x3C, 0x3F, 0x5C, 0x5F, 0x7C, 0x7F, 0x9C, 0xDC, 0xDF, 0xFC, 0xFF]),
    (.aby, [0x1B, 0x3B, 0x5B, 0x7B, 0x9B, 0x9E, 0x9F, 0xBB, 0xBF, 0xDB, 0xFB]),
    (.izx, [0x03, 0x23, 0x43, 0x63, 0x83, 0xA3, 0xC3, 0xE3]),
    (.izy, [0x13, 0x33, 0x53, 0x73, 0x93, 0xB3, 0xD3, 0xF3]) ]

/-- The mode R82 gives an undocumented opcode, `none` for a documented one. -/
def defaultIllegalMode (op : Byte) : Option Mode :=
  (illegalTable.find? fun row => row.2.contains op).map (·.1)

/-- `ILLEGAL_MODE` (R6, R82): the mode of an undocumented opcode, `none` for a documented one, which the parameter does
not reach. -/
def illegalMode (p : IllegalModes) (op : Byte) : Option Mode :=
  (defaultIllegalMode op).map fun m => (p.lookup op).getD m

/-- `*NOP` at an undocumented opcode, with what its mode consumes (R231). -/
def starNopAt (p : IllegalModes) (op lo hi : Byte) : Instr :=
  .starNop op (NopOperand.ofMode ((illegalMode p op).getD .imp) lo hi)

/-! ### The opcode map (R77) -/

/-- A cell of R77: the documented instruction, given the two bytes after the opcode, or `none` where R77 has `*`. -/
abbrev OpcodeCell := Option (Byte → Byte → Instr)

namespace OpcodeMap

def imm (d8 _ : Byte) : Operand := .imm d8
def zp (d8 _ : Byte) : Operand := .zp d8
def zpx (d8 _ : Byte) : Operand := .zpx d8
def zpy (d8 _ : Byte) : Operand := .zpy d8
def abs (lo hi : Byte) : Operand := .abs lo hi
def abx (lo hi : Byte) : Operand := .abx lo hi
def aby (lo hi : Byte) : Operand := .aby lo hi
def izx (d8 _ : Byte) : Operand := .izx d8
def izy (d8 _ : Byte) : Operand := .izy d8

/-- A cell in implied mode. -/
def imp (i : Instr) : OpcodeCell := some fun _ _ => i
/-- A cell in relative mode. -/
def rel (f : Byte → Instr) : OpcodeCell := some fun d8 _ => f d8
/-- A cell of a jump: absolute or indirect mode. -/
def jump (f : Byte → Byte → Instr) : OpcodeCell := some f
/-- A cell with a memory operand. -/
def mem (f : Operand → Instr) (mode : Byte → Byte → Operand) : OpcodeCell := some fun lo hi => f (mode lo hi)
/-- A shift or rotate in accumulator mode. -/
def acc (f : ShiftTarget → Instr) : OpcodeCell := some fun _ _ => f .acc
/-- A shift or rotate of a memory operand. -/
def shift (f : ShiftTarget → Instr) (mode : Byte → Byte → Operand) : OpcodeCell := some fun lo hi => f (.mem (mode lo hi))
/-- A `*` cell. -/
def star : OpcodeCell := none

def row0 : List OpcodeCell :=
  [imp .brk, mem .ora izx, star, star, star, mem .ora zp, shift .asl zp, star,
   imp .php, mem .ora imm, acc .asl, star, star, mem .ora abs, shift .asl abs, star]
def row1 : List OpcodeCell :=
  [rel .bpl, mem .ora izy, star, star, star, mem .ora zpx, shift .asl zpx, star,
   imp .clc, mem .ora aby, star, star, star, mem .ora abx, shift .asl abx, star]
def row2 : List OpcodeCell :=
  [jump .jsr, mem .and izx, star, star, mem .bit zp, mem .and zp, shift .rol zp, star,
   imp .plp, mem .and imm, acc .rol, star, mem .bit abs, mem .and abs, shift .rol abs, star]
def row3 : List OpcodeCell :=
  [rel .bmi, mem .and izy, star, star, star, mem .and zpx, shift .rol zpx, star,
   imp .sec, mem .and aby, star, star, star, mem .and abx, shift .rol abx, star]
def row4 : List OpcodeCell :=
  [imp .rti, mem .eor izx, star, star, star, mem .eor zp, shift .lsr zp, star,
   imp .pha, mem .eor imm, acc .lsr, star, jump .jmpAbs, mem .eor abs, shift .lsr abs, star]
def row5 : List OpcodeCell :=
  [rel .bvc, mem .eor izy, star, star, star, mem .eor zpx, shift .lsr zpx, star,
   imp .cli, mem .eor aby, star, star, star, mem .eor abx, shift .lsr abx, star]
def row6 : List OpcodeCell :=
  [imp .rts, mem .adc izx, star, star, star, mem .adc zp, shift .ror zp, star,
   imp .pla, mem .adc imm, acc .ror, star, jump .jmpInd, mem .adc abs, shift .ror abs, star]
def row7 : List OpcodeCell :=
  [rel .bvs, mem .adc izy, star, star, star, mem .adc zpx, shift .ror zpx, star,
   imp .sei, mem .adc aby, star, star, star, mem .adc abx, shift .ror abx, star]
def row8 : List OpcodeCell :=
  [star, mem .sta izx, star, star, mem .sty zp, mem .sta zp, mem .stx zp, star,
   imp .dey, star, imp .txa, star, mem .sty abs, mem .sta abs, mem .stx abs, star]
def row9 : List OpcodeCell :=
  [rel .bcc, mem .sta izy, star, star, mem .sty zpx, mem .sta zpx, mem .stx zpy, star,
   imp .tya, mem .sta aby, imp .txs, star, star, mem .sta abx, star, star]
def rowA : List OpcodeCell :=
  [mem .ldy imm, mem .lda izx, mem .ldx imm, star, mem .ldy zp, mem .lda zp, mem .ldx zp, star,
   imp .tay, mem .lda imm, imp .tax, star, mem .ldy abs, mem .lda abs, mem .ldx abs, star]
def rowB : List OpcodeCell :=
  [rel .bcs, mem .lda izy, star, star, mem .ldy zpx, mem .lda zpx, mem .ldx zpy, star,
   imp .clv, mem .lda aby, imp .tsx, star, mem .ldy abx, mem .lda abx, mem .ldx aby, star]
def rowC : List OpcodeCell :=
  [mem .cpy imm, mem .cmp izx, star, star, mem .cpy zp, mem .cmp zp, mem .dec zp, star,
   imp .iny, mem .cmp imm, imp .dex, star, mem .cpy abs, mem .cmp abs, mem .dec abs, star]
def rowD : List OpcodeCell :=
  [rel .bne, mem .cmp izy, star, star, star, mem .cmp zpx, mem .dec zpx, star,
   imp .cld, mem .cmp aby, star, star, star, mem .cmp abx, mem .dec abx, star]
def rowE : List OpcodeCell :=
  [mem .cpx imm, mem .sbc izx, star, star, mem .cpx zp, mem .sbc zp, mem .inc zp, star,
   imp .inx, mem .sbc imm, imp .nop, star, mem .cpx abs, mem .sbc abs, mem .inc abs, star]
def rowF : List OpcodeCell :=
  [rel .beq, mem .sbc izy, star, star, star, mem .sbc zpx, mem .inc zpx, star,
   imp .sed, mem .sbc aby, star, star, star, mem .sbc abx, mem .inc abx, star]

end OpcodeMap

/-- The sixteen rows of R77, high nibble 0 to F. -/
def opcodeMap : List (List OpcodeCell) :=
  [OpcodeMap.row0, OpcodeMap.row1, OpcodeMap.row2, OpcodeMap.row3] ++
  [OpcodeMap.row4, OpcodeMap.row5, OpcodeMap.row6, OpcodeMap.row7] ++
  [OpcodeMap.row8, OpcodeMap.row9, OpcodeMap.rowA, OpcodeMap.rowB] ++
  [OpcodeMap.rowC, OpcodeMap.rowD, OpcodeMap.rowE, OpcodeMap.rowF]

/-- The cell of R77 at row `op[7:4]`, column `op[3:0]`. -/
def opcodeCell (op : Byte) : OpcodeCell :=
  (opcodeMap.getD (op.toNat / 16) []).getD (op.toNat % 16) OpcodeMap.star

/-- The dispatcher (R74): total on the opcode byte and the two bytes after it, of which it takes as many as the
opcode's mode consumes. `ILLEGAL_MODE` is an argument. -/
def decodeOpcode (p : IllegalModes) (op lo hi : Byte) : Instr :=
  match opcodeCell op with
  | some f => f lo hi
  | none => starNopAt p op lo hi

/-! ### Decoding a list of bytes -/

/-- The mode of an instruction (R73, R77). -/
def Instr.mode : Instr → Mode
  | .bpl _ | .bmi _ | .bvc _ | .bvs _ | .bcc _ | .bcs _ | .bne _ | .beq _ => .rel
  | .clc | .sec | .cli | .sei | .cld | .sed | .clv => .imp
  | .jmpAbs _ _ | .jsr _ _ => .abs
  | .jmpInd _ _ => .ind
  | .rts | .brk | .rti => .imp
  | .php | .plp | .pha | .pla => .imp
  | .tax | .tay | .txa | .tya | .txs | .tsx => .imp
  | .inx | .iny | .dex | .dey | .nop => .imp
  | .bit o | .inc o | .dec o | .cmp o | .cpx o | .cpy o => o.mode
  | .lda o | .ldx o | .ldy o | .sta o | .stx o | .sty o => o.mode
  | .ora o | .and o | .eor o | .adc o | .sbc o => o.mode
  | .asl t | .lsr t | .rol t | .ror t =>
    match t with
    | .acc => .acc
    | .mem o => o.mode
  | .starNop _ o => o.mode

/-- How many operand bytes follow an opcode: a function of the opcode byte alone (R70). -/
def operandCount (p : IllegalModes) (op : Byte) : Nat := (decodeOpcode p op 0 0).mode.operandCount

/-- Why a list of bytes holds no instruction. The core never meets either case, since the bus answers every read (R42);
only a list that is too short does. Note 9. -/
inductive Reject where
  /-- The list is empty. -/
  | noBytes
  /-- The list ends inside the operand of this opcode. -/
  | truncated (op : Byte)
  deriving DecidableEq, Repr

/-- Read one instruction from the front of a list of bytes, and answer the bytes after it. -/
def decode (p : IllegalModes) : List Byte → Except Reject (Instr × List Byte)
  | [] => .error .noBytes
  | op :: rest =>
    match operandCount p op, rest with
    | 0, rest => .ok (decodeOpcode p op 0 0, rest)
    | 1, d8 :: rest => .ok (decodeOpcode p op d8 0, rest)
    | 2, lo :: hi :: rest => .ok (decodeOpcode p op lo hi, rest)
    | _, _ => .error (.truncated op)

/-! ### The encoder (R78, R82) -/

/-- The operand bytes of an instruction (R71). -/
def Instr.operandBytes : Instr → List Byte
  | .bpl d8 | .bmi d8 | .bvc d8 | .bvs d8 | .bcc d8 | .bcs d8 | .bne d8 | .beq d8 => [d8]
  | .clc | .sec | .cli | .sei | .cld | .sed | .clv => []
  | .jmpAbs lo hi | .jmpInd lo hi | .jsr lo hi => [lo, hi]
  | .rts | .brk | .rti => []
  | .php | .plp | .pha | .pla => []
  | .tax | .tay | .txa | .tya | .txs | .tsx => []
  | .inx | .iny | .dex | .dey | .nop => []
  | .bit o | .inc o | .dec o | .cmp o | .cpx o | .cpy o => o.bytes
  | .lda o | .ldx o | .ldy o | .sta o | .stx o | .sty o => o.bytes
  | .ora o | .and o | .eor o | .adc o | .sbc o => o.bytes
  | .asl t | .lsr t | .rol t | .ror t =>
    match t with
    | .acc => []
    | .mem o => o.bytes
  | .starNop _ o => o.bytes

/-- A row of R78: the opcode byte in each of its columns, `none` where the column is blank. -/
def pickOpcode (o : Operand) (imm zp zpx zpy abs abx aby izx izy : Option Byte) : Option Byte :=
  match o with
  | .imm _ => imm
  | .zp _ => zp
  | .zpx _ => zpx
  | .zpy _ => zpy
  | .abs _ _ => abs
  | .abx _ _ => abx
  | .aby _ _ => aby
  | .izx _ => izx
  | .izy _ => izy

/-- The five encodings of a shift or rotate (R78, R200). -/
def shiftOpcode (t : ShiftTarget) (acc zp zpx abs abx : Byte) : Option Byte :=
  match t with
  | .acc => some acc
  | .mem o => pickOpcode o none (some zp) (some zpx) none (some abs) (some abx) none none none

/-- The opcode byte of an instruction by R78, `none` where R78 has a blank. -/
def Instr.opcode : Instr → Option Byte
  | .ora o => pickOpcode o (some 0x09) (some 0x05) (some 0x15) none (some 0x0D) (some 0x1D) (some 0x19) (some 0x01) (some 0x11)
  | .and o => pickOpcode o (some 0x29) (some 0x25) (some 0x35) none (some 0x2D) (some 0x3D) (some 0x39) (some 0x21) (some 0x31)
  | .eor o => pickOpcode o (some 0x49) (some 0x45) (some 0x55) none (some 0x4D) (some 0x5D) (some 0x59) (some 0x41) (some 0x51)
  | .adc o => pickOpcode o (some 0x69) (some 0x65) (some 0x75) none (some 0x6D) (some 0x7D) (some 0x79) (some 0x61) (some 0x71)
  | .sta o => pickOpcode o none (some 0x85) (some 0x95) none (some 0x8D) (some 0x9D) (some 0x99) (some 0x81) (some 0x91)
  | .lda o => pickOpcode o (some 0xA9) (some 0xA5) (some 0xB5) none (some 0xAD) (some 0xBD) (some 0xB9) (some 0xA1) (some 0xB1)
  | .cmp o => pickOpcode o (some 0xC9) (some 0xC5) (some 0xD5) none (some 0xCD) (some 0xDD) (some 0xD9) (some 0xC1) (some 0xD1)
  | .sbc o => pickOpcode o (some 0xE9) (some 0xE5) (some 0xF5) none (some 0xED) (some 0xFD) (some 0xF9) (some 0xE1) (some 0xF1)
  | .asl t => shiftOpcode t 0x0A 0x06 0x16 0x0E 0x1E
  | .rol t => shiftOpcode t 0x2A 0x26 0x36 0x2E 0x3E
  | .lsr t => shiftOpcode t 0x4A 0x46 0x56 0x4E 0x5E
  | .ror t => shiftOpcode t 0x6A 0x66 0x76 0x6E 0x7E
  | .stx o => pickOpcode o none (some 0x86) none (some 0x96) (some 0x8E) none none none none
  | .ldx o => pickOpcode o (some 0xA2) (some 0xA6) none (some 0xB6) (some 0xAE) none (some 0xBE) none none
  | .dec o => pickOpcode o none (some 0xC6) (some 0xD6) none (some 0xCE) (some 0xDE) none none none
  | .inc o => pickOpcode o none (some 0xE6) (some 0xF6) none (some 0xEE) (some 0xFE) none none none
  | .bit o => pickOpcode o none (some 0x24) none none (some 0x2C) none none none none
  | .sty o => pickOpcode o none (some 0x84) (some 0x94) none (some 0x8C) none none none none
  | .ldy o => pickOpcode o (some 0xA0) (some 0xA4) (some 0xB4) none (some 0xAC) (some 0xBC) none none none
  | .cpy o => pickOpcode o (some 0xC0) (some 0xC4) none none (some 0xCC) none none none none
  | .cpx o => pickOpcode o (some 0xE0) (some 0xE4) none none (some 0xEC) none none none none
  | .jmpAbs _ _ => some 0x4C
  | .jmpInd _ _ => some 0x6C
  | .jsr _ _ => some 0x20
  | .bpl _ => some 0x10
  | .bmi _ => some 0x30
  | .bvc _ => some 0x50
  | .bvs _ => some 0x70
  | .bcc _ => some 0x90
  | .bcs _ => some 0xB0
  | .bne _ => some 0xD0
  | .beq _ => some 0xF0
  | .brk => some 0x00
  | .php => some 0x08
  | .clc => some 0x18
  | .plp => some 0x28
  | .sec => some 0x38
  | .rti => some 0x40
  | .pha => some 0x48
  | .cli => some 0x58
  | .rts => some 0x60
  | .pla => some 0x68
  | .sei => some 0x78
  | .dey => some 0x88
  | .txa => some 0x8A
  | .tya => some 0x98
  | .txs => some 0x9A
  | .tay => some 0xA8
  | .tax => some 0xAA
  | .clv => some 0xB8
  | .tsx => some 0xBA
  | .iny => some 0xC8
  | .dex => some 0xCA
  | .cld => some 0xD8
  | .inx => some 0xE8
  | .nop => some 0xEA
  | .sed => some 0xF8
  | .starNop op _ => some op

/-- The bytes of a well-formed instruction: opcode, then operand bytes (R71). An instruction with no opcode has none. -/
def encode (i : Instr) : List Byte :=
  match i.opcode with
  | some op => op :: i.operandBytes
  | none => []

/-! ### The host's numbering of an instruction's bits -/

/-- The byte `k` places after the opcode in a number whose bit 0 is the opcode's least significant bit. Note 14. -/
def tableByte (nbits w k : Nat) : Byte := BitVec.ofNat 8 (w % 2 ^ nbits / 256 ^ k)

/-- What `decode` reads from the `nbits` low bits of `w`, followed by zeros. Note 14. -/
def decodeTableWordWith (p : IllegalModes) (nbits w : Nat) : Option Instr :=
  if nbits = 0 then none
  else
    match decode p [tableByte nbits w 0, tableByte nbits w 1, tableByte nbits w 2] with
    | .ok (i, _) => some i
    | .error _ => none

/-- The same at the default of `ILLEGAL_MODE`, which is what spec/opcode_table.json shows. -/
def decodeTableWord (nbits w : Nat) : Option Instr := decodeTableWordWith .default nbits w

end Sys2Proof
end

