-- ==== Sys2Proof/Machine/Fetch.lean ====
section
/-! DEFINITION. The opcode fetch and the dispatch of a step (R75), and storing an instruction where it is fetched. -/

namespace Sys2Proof.Machine

/-- The instruction whose opcode `op` has just been fetched: its operand bytes, as many as it has, are what the bus answers
at `PC` and then at `PC + 1`. No access is made here; the resolver makes them (note 9). -/
def State.dispatchAt (s : State) (op : Byte) : Instr :=
  let lo := s.peek s.PC
  decodeOpcode s.params.illegal op lo ((s.takeOperand lo).peek (s.PC + 1))

/-- A transaction begins, `op <- Fetch8()`, `(mode, h) <- Dispatch(op)` (R75). -/
def State.fetchInstr (s : State) : Instr × State :=
  let r := s.beginTransaction.fetch8
  (r.2.dispatchAt r.1, r.2)

/-- The host writes a byte on the bus between two transactions (R282). -/
def State.poke (s : State) (a : Addr) (v : Byte) : State :=
  let t := s.beginTransaction
  { t with mem := Memory.store t.params.devices t.mem a v, past := t.past ++ [.hostWrite a v] }

/-- A launch state made from `s` (R275): plain memory with this byte stands behind the address. No event happens. -/
def State.install (s : State) (a : Addr) (v : Byte) : State :=
  { s with
    params := { s.params with devices := s.params.devices.filter (· ≠ a) }
    mem := Memory.write s.mem a.toNat v }

/-- Three bytes installed at `PC`, `PC + 1` and `PC + 2`. -/
def State.placeAtPC (s : State) (b0 b1 b2 : Byte) : State :=
  ((s.install s.PC b0).install (s.PC + 1) b1).install (s.PC + 2) b2

end Sys2Proof.Machine
end

