-- ==== Sys2Proof/Machine/Step.lean ====
section
/-! DEFINITION. The `step()` transaction (R75): exactly one instruction, and no interrupt condition is looked at
(R250). -/

namespace Sys2Proof.Machine

/-- `step()` (R75). -/
def step (s : State) : Host.Outcome State Fault Refusal :=
  let r := s.fetchInstr
  exec r.1 r.2

/-- `s` with the instruction whose bits are `w` stored at `PC`, where the next step fetches. Notes 10 and 14. -/
def State.withFetchWord (s : State) (nbits w : Nat) : State :=
  s.placeAtPC (tableByte nbits w 0) (tableByte nbits w 1) (tableByte nbits w 2)

end Sys2Proof.Machine
end

