-- ==== Sys2Proof/Machine/HostCalls.lean ====
section
/-! DEFINITION. The host interface (R8, R282): the entry points `reset()`, `irq()` and `nmi()` beside `step()`, and the
host's writes to the memory behind the bus between two transactions. -/

namespace Sys2Proof.Machine

/-- `reset()` (R270): two bus reads at the reset vector, no access to the stack page. -/
def State.resetCall (s : State) : State :=
  let t := s.beginTransaction
  ({ t with I := true, SP := t.SP - 3 }).loadVector resetVector

/-- `irq()` (R245): dropped when `I` is 1 (R249). -/
def State.irq (s : State) : State :=
  let t := s.beginTransaction
  if t.I then t else t.interrupt irqVector false

/-- `nmi()` (R246). -/
def State.nmi (s : State) : State := s.beginTransaction.interrupt nmiVector false

/-- What the host can do next (R282). Reading state between transactions changes nothing and needs no call. -/
inductive HostCall where
  | step
  | irq
  | nmi
  | reset
  /-- Write one byte on the bus, between two transactions. -/
  | poke (a : Addr) (v : Byte)
  deriving DecidableEq, Repr

/-- One host call, run to completion (R8). -/
def transact (c : HostCall) (s : State) : Result :=
  match c with
  | .step => step s
  | .irq => .next s.irq
  | .nmi => .next s.nmi
  | .reset => .next s.resetCall
  | .poke a v => .next (s.poke a v)

/-- The host's calls, one after another: their order is the only priority there is (R251). -/
def transactAll : List HostCall → State → Result
  | [], s => .next s
  | c :: cs, s =>
    match transact c s with
    | .next t => transactAll cs t
    | .fault r => .fault r
    | .refused r => .refused r

end Sys2Proof.Machine
end

