-- ==== Sys2Proof/WellFormed.lean ====
section
/-! DEFINITION. Which instructions exist as encodings: for each mnemonic the addressing modes that R78 gives an opcode
byte, and for `*NOP` an opcode of R80 in the mode `ILLEGAL_MODE` gives it (R82). Decoding never yields anything else. -/

namespace Sys2Proof

/-- The eight slots of the ALU group (R79). -/
def aluModes : List Mode := [.imm, .zp, .zpx, .abs, .abx, .aby, .izx, .izy]

/-- The ALU group without the immediate slot: STA (R193; 0x89 is undocumented, C6). -/
def staModes : List Mode := [.zp, .zpx, .abs, .abx, .aby, .izx, .izy]

/-- The memory modes of shifts, rotates, INC and DEC (R170, R171, R200). -/
def rmwModes : List Mode := [.zp, .zpx, .abs, .abx]

/-- LDX (R191). -/
def ldxModes : List Mode := [.imm, .zp, .zpy, .abs, .aby]

/-- LDY (R192). -/
def ldyModes : List Mode := [.imm, .zp, .zpx, .abs, .abx]

/-- STX (R194). -/
def stxModes : List Mode := [.zp, .zpy, .abs]

/-- STY (R195). -/
def styModes : List Mode := [.zp, .zpx, .abs]

/-- CPX and CPY (R178, R179). -/
def cpxModes : List Mode := [.imm, .zp, .abs]

/-- BIT (R150). -/
def bitModes : List Mode := [.zp, .abs]

/-- Accumulator mode, or one of the four memory modes (R200). -/
def wellFormedShift : ShiftTarget → Bool
  | .acc => true
  | .mem o => rmwModes.contains o.mode

/-- An undocumented opcode with the operand of its own mode (R82, R231). -/
def wellFormedStarNop (p : IllegalModes) (op : Byte) (o : NopOperand) : Bool := illegalMode p op == some o.mode

/-- The instruction has an encoding (R77, R78, R82). -/
def wellFormed (p : IllegalModes) : Instr → Bool
  | .bpl _ | .bmi _ | .bvc _ | .bvs _ | .bcc _ | .bcs _ | .bne _ | .beq _ => true
  | .clc | .sec | .cli | .sei | .cld | .sed | .clv => true
  | .jmpAbs _ _ | .jmpInd _ _ | .jsr _ _ | .rts | .brk | .rti => true
  | .php | .plp | .pha | .pla | .tax | .tay | .txa | .tya | .txs | .tsx => true
  | .inx | .iny | .dex | .dey | .nop => true
  | .bit o => bitModes.contains o.mode
  | .inc o | .dec o => rmwModes.contains o.mode
  | .cpx o | .cpy o => cpxModes.contains o.mode
  | .lda o | .cmp o | .ora o | .and o | .eor o | .adc o | .sbc o => aluModes.contains o.mode
  | .ldx o => ldxModes.contains o.mode
  | .ldy o => ldyModes.contains o.mode
  | .sta o => staModes.contains o.mode
  | .stx o => stxModes.contains o.mode
  | .sty o => styModes.contains o.mode
  | .asl t | .lsr t | .rol t | .ror t => wellFormedShift t
  | .starNop op o => wellFormedStarNop p op o

end Sys2Proof
end

