-- ==== Sys2Proof/Safety.lean ====
section
/-! DEFINITION. The terms claims are stated in: safe and trapped states, the invariant, what an instruction may write
and read (the indexes of R13, R18, R48 and R59, as the spec lists them), and the programmer's view of a flag result or
a store. -/

namespace Sys2Proof.Machine

/-- A safe state: the next `step()` answers a next state (R9 says every state is one). -/
def StepSafe (s : State) : Prop := ∃ t, step s = .next t

/-- The model's invariant: the memory behind the bus is in its canonical form. -/
abbrev Inv (s : State) : Prop := Memory.wf s.mem = true

/-- One `step()` from the state leaves `PC` unchanged (R284). -/
def Trapped (s : State) : Prop := ∃ t, step s = .next t ∧ t.PC = s.PC

/-- `N` and `Z` describe the byte `v` (the NZ invariant, R20). -/
def FlagsOf (t : State) (v : Byte) : Prop := (t.N = true ↔ 128 ≤ v.toNat) ∧ (t.Z = true ↔ v.toNat = 0)

/-- The address of the stack byte at offset `sp` (R16). -/
def stackByte (sp : Byte) : Addr := BitVec.ofNat 16 (256 + sp.toNat)

/-- Between `s` and `t` exactly one byte was stored to: plain memory at `a` holds `v`, and every other address of plain
memory reads as before. Of an address behind which the bus oracle stands nothing is said (R41). -/
def StoredByte (s t : State) (a : Addr) (v : Byte) : Prop :=
  (s.IsPlain a → t.peek a = v) ∧ ∀ b, b ≠ a → s.IsPlain b → t.peek b = s.peek b

/-- Between `s` and `t` the three stack bytes at `SP`, `SP - 1` and `SP - 2` and no others were stored to, as in an interrupt
entry: where plain memory stands they hold `hi`, `lo` and `p`, and the rest of plain memory reads as before. -/
def ThreeStored (s t : State) (hi lo p : Byte) : Prop :=
  (s.IsPlain (stackByte s.SP) → t.peek (stackByte s.SP) = hi) ∧
  (s.IsPlain (stackByte (s.SP - 1)) → t.peek (stackByte (s.SP - 1)) = lo) ∧
  (s.IsPlain (stackByte (s.SP - 2)) → t.peek (stackByte (s.SP - 2)) = p) ∧
  ∀ a, a ≠ stackByte s.SP → a ≠ stackByte (s.SP - 1) → a ≠ stackByte (s.SP - 2) → s.IsPlain a → t.peek a = s.peek a

/-- The bytes the bus answers if the addresses are read one after another, the first one first. -/
def State.answersAt : State → List Addr → List Byte
  | _, [] => []
  | s, a :: as => s.peek a :: State.answersAt (s.noteRead a (s.peek a)) as

/-- Both nibbles are decimal digits. -/
abbrev IsBcd (v : Byte) : Prop := v.toNat / 16 ≤ 9 ∧ v.toNat % 16 ≤ 9

/-- `dec(x)` of R218. -/
def decValue (v : Byte) : Nat := 10 * (v.toNat / 16) + v.toNat % 16

/-- `p` is the status byte of `s` with break bit `b` (the "on push" column of R23). -/
def StatusByte (p : Byte) (s : State) (b : Bool) : Prop :=
  p.getLsbD 0 = s.C ∧ p.getLsbD 1 = s.Z ∧ p.getLsbD 2 = s.I ∧ p.getLsbD 3 = s.D ∧ p.getLsbD 4 = b ∧ p.getLsbD 5 = true ∧
    p.getLsbD 6 = s.V ∧ p.getLsbD 7 = s.N

/-- The flags of `t` are those of the pulled status byte `p` (the "on pull" column of R23, R24). -/
def FlagsFrom (t : State) (p : Byte) : Prop :=
  t.C = p.getLsbD 0 ∧ t.Z = p.getLsbD 1 ∧ t.I = p.getLsbD 2 ∧ t.D = p.getLsbD 3 ∧ t.V = p.getLsbD 6 ∧ t.N = p.getLsbD 7

/-- The bytes are an encoding of the instruction, whatever follows them and whatever `ILLEGAL_MODE` is. -/
def DecodesFrom (i : Instr) (bytes : List Byte) : Prop := ∀ p rest, decode p (bytes ++ rest) = .ok (i, rest)

/-- The instructions `f o` are encoded by the row's opcode byte for the mode of `o` followed by the operand bytes, and
have no encoding in a mode the row leaves out (a row of R78). -/
def EncodedBy (f : Operand → Instr) (row : List (Mode × Byte)) : Prop :=
  ∀ o, match row.lookup o.mode with
    | some op => DecodesFrom (f o) (op :: o.bytes)
    | none => ∀ p, wellFormed p (f o) = false

/-- The instruction that the next step runs. -/
def instrAtPC (s : State) : Instr := s.fetchInstr.1

/-- The state in which the next step's resolver starts: the opcode has been fetched (R75). -/
def afterFetch (s : State) : State :=
  { s with PC := s.PC + 1, past := s.history, trace := [.read s.PC (s.peek s.PC)] }

/-- Push a list of bytes, the first one first. -/
def pushAll (vs : List Byte) (s : State) : State := vs.foldl State.push s

/-- Pop a number of bytes: those popped, the first one first, and the state after. -/
def popMany : Nat → State → List Byte × State
  | 0, s => ([], s)
  | n + 1, s =>
    let p := s.pop
    let r := popMany n p.2
    (p.1 :: r.1, r.2)

/-! ### Who writes what (R13, R16, R18, R48) -/

/-- The shift or rotate works on the accumulator. -/
def ShiftTarget.isAcc : ShiftTarget → Bool
  | .acc => true
  | .mem _ => false

/-- The `A` row of R13, "written by". -/
def writesA : Instr → Bool
  | .lda _ | .pla | .txa | .tya | .ora _ | .and _ | .eor _ | .adc _ | .sbc _ => true
  | .asl t | .lsr t | .rol t | .ror t => ShiftTarget.isAcc t
  | .bpl _ | .bmi _ | .bvc _ | .bvs _ | .bcc _ | .bcs _ | .bne _ | .beq _ | .clc | .sec | .cli | .sei
  | .cld | .sed | .clv | .jmpAbs _ _ | .jmpInd _ _ | .jsr _ _ | .rts | .brk | .rti | .bit _ | .php | .plp
  | .pha | .tax | .tay | .txs | .tsx | .inc _ | .dec _ | .inx | .iny | .dex | .dey | .cmp _ | .cpx _
  | .cpy _ | .ldx _ | .ldy _ | .sta _ | .stx _ | .sty _ | .nop | .starNop _ _ => false

/-- The `X` row of R13, "written by". -/
def writesX : Instr → Bool
  | .ldx _ | .tax | .tsx | .inx | .dex => true
  | .bpl _ | .bmi _ | .bvc _ | .bvs _ | .bcc _ | .bcs _ | .bne _ | .beq _ | .clc | .sec | .cli | .sei
  | .cld | .sed | .clv | .jmpAbs _ _ | .jmpInd _ _ | .jsr _ _ | .rts | .brk | .rti | .bit _ | .php | .plp
  | .pha | .pla | .tay | .txa | .tya | .txs | .inc _ | .dec _ | .iny | .dey | .cmp _ | .cpx _ | .cpy _
  | .lda _ | .ldy _ | .sta _ | .stx _ | .sty _ | .asl _ | .lsr _ | .rol _ | .ror _ | .ora _ | .and _
  | .eor _ | .adc _ | .sbc _ | .nop | .starNop _ _ => false

/-- The `Y` row of R13, "written by". -/
def writesY : Instr → Bool
  | .ldy _ | .tay | .iny | .dey => true
  | .bpl _ | .bmi _ | .bvc _ | .bvs _ | .bcc _ | .bcs _ | .bne _ | .beq _ | .clc | .sec | .cli | .sei
  | .cld | .sed | .clv | .jmpAbs _ _ | .jmpInd _ _ | .jsr _ _ | .rts | .brk | .rti | .bit _ | .php | .plp
  | .pha | .pla | .tax | .txa | .tya | .txs | .tsx | .inc _ | .dec _ | .inx | .dex | .cmp _ | .cpx _
  | .cpy _ | .lda _ | .ldx _ | .sta _ | .stx _ | .sty _ | .asl _ | .lsr _ | .rol _ | .ror _ | .ora _
  | .and _ | .eor _ | .adc _ | .sbc _ | .nop | .starNop _ _ => false

/-- Who moves `SP` (R16): the users of `Push` and `Pop`, and TXS. -/
def writesSP : Instr → Bool
  | .pha | .php | .pla | .plp | .jsr _ _ | .rts | .brk | .rti | .txs => true
  | .bpl _ | .bmi _ | .bvc _ | .bvs _ | .bcc _ | .bcs _ | .bne _ | .beq _ | .clc | .sec | .cli | .sei
  | .cld | .sed | .clv | .jmpAbs _ _ | .jmpInd _ _ | .bit _ | .tax | .tay | .txa | .tya | .tsx | .inc _
  | .dec _ | .inx | .iny | .dex | .dey | .cmp _ | .cpx _ | .cpy _ | .lda _ | .ldx _ | .ldy _ | .sta _
  | .stx _ | .sty _ | .asl _ | .lsr _ | .rol _ | .ror _ | .ora _ | .and _ | .eor _ | .adc _ | .sbc _ | .nop
  | .starNop _ _ => false

/-- The `C` row of R18, "written by". -/
def writesC : Instr → Bool
  | .adc _ | .sbc _ | .cmp _ | .cpx _ | .cpy _ | .asl _ | .lsr _ | .rol _ | .ror _ | .clc | .sec | .plp | .rti => true
  | .bpl _ | .bmi _ | .bvc _ | .bvs _ | .bcc _ | .bcs _ | .bne _ | .beq _ | .cli | .sei | .cld | .sed
  | .clv | .jmpAbs _ _ | .jmpInd _ _ | .jsr _ _ | .rts | .brk | .bit _ | .php | .pha | .pla | .tax | .tay
  | .txa | .tya | .txs | .tsx | .inc _ | .dec _ | .inx | .iny | .dex | .dey | .lda _ | .ldx _ | .ldy _
  | .sta _ | .stx _ | .sty _ | .ora _ | .and _ | .eor _ | .nop | .starNop _ _ => false

/-- The `N` row of R18, "written by"; the `Z` row has the same instructions. -/
def writesNZ : Instr → Bool
  | .lda _ | .ldx _ | .ldy _ | .tax | .tay | .txa | .tya | .tsx | .pla | .inc _ | .dec _ | .inx | .iny | .dex | .dey => true
  | .asl _ | .lsr _ | .rol _ | .ror _ | .ora _ | .and _ | .eor _ | .adc _ | .sbc _ | .cmp _ | .cpx _ | .cpy _ => true
  | .bit _ | .plp | .rti => true
  | .bpl _ | .bmi _ | .bvc _ | .bvs _ | .bcc _ | .bcs _ | .bne _ | .beq _ | .clc | .sec | .cli | .sei
  | .cld | .sed | .clv | .jmpAbs _ _ | .jmpInd _ _ | .jsr _ _ | .rts | .brk | .php | .pha | .txs | .sta _
  | .stx _ | .sty _ | .nop | .starNop _ _ => false

/-- The `I` row of R18, "written by", as far as it lists instructions. -/
def writesI : Instr → Bool
  | .sei | .cli | .plp | .rti | .brk => true
  | .bpl _ | .bmi _ | .bvc _ | .bvs _ | .bcc _ | .bcs _ | .bne _ | .beq _ | .clc | .sec | .cld | .sed
  | .clv | .jmpAbs _ _ | .jmpInd _ _ | .jsr _ _ | .rts | .bit _ | .php | .pha | .pla | .tax | .tay | .txa
  | .tya | .txs | .tsx | .inc _ | .dec _ | .inx | .iny | .dex | .dey | .cmp _ | .cpx _ | .cpy _ | .lda _
  | .ldx _ | .ldy _ | .sta _ | .stx _ | .sty _ | .asl _ | .lsr _ | .rol _ | .ror _ | .ora _ | .and _
  | .eor _ | .adc _ | .sbc _ | .nop | .starNop _ _ => false

/-- The `D` row of R18, "written by". -/
def writesD : Instr → Bool
  | .sed | .cld | .plp | .rti => true
  | .bpl _ | .bmi _ | .bvc _ | .bvs _ | .bcc _ | .bcs _ | .bne _ | .beq _ | .clc | .sec | .cli | .sei
  | .clv | .jmpAbs _ _ | .jmpInd _ _ | .jsr _ _ | .rts | .brk | .bit _ | .php | .pha | .pla | .tax | .tay
  | .txa | .tya | .txs | .tsx | .inc _ | .dec _ | .inx | .iny | .dex | .dey | .cmp _ | .cpx _ | .cpy _
  | .lda _ | .ldx _ | .ldy _ | .sta _ | .stx _ | .sty _ | .asl _ | .lsr _ | .rol _ | .ror _ | .ora _
  | .and _ | .eor _ | .adc _ | .sbc _ | .nop | .starNop _ _ => false

/-- The `V` row of R18, "written by". -/
def writesV : Instr → Bool
  | .adc _ | .sbc _ | .bit _ | .clv | .plp | .rti => true
  | .bpl _ | .bmi _ | .bvc _ | .bvs _ | .bcc _ | .bcs _ | .bne _ | .beq _ | .clc | .sec | .cli | .sei
  | .cld | .sed | .jmpAbs _ _ | .jmpInd _ _ | .jsr _ _ | .rts | .brk | .php | .pha | .pla | .tax | .tay
  | .txa | .tya | .txs | .tsx | .inc _ | .dec _ | .inx | .iny | .dex | .dey | .cmp _ | .cpx _ | .cpy _
  | .lda _ | .ldx _ | .ldy _ | .sta _ | .stx _ | .sty _ | .asl _ | .lsr _ | .rol _ | .ror _ | .ora _
  | .and _ | .eor _ | .nop | .starNop _ _ => false

/-- The address a shift or rotate stores to (R48, R200). -/
def ShiftTarget.storedAddrs (t : ShiftTarget) (s : State) : List Addr :=
  match t with
  | .acc => []
  | .mem o => [effectiveAddr o s]

/-- The addresses an instruction stores to (R48), from the state its handler starts in. -/
def storedAddrs (i : Instr) (s : State) : List Addr :=
  match i with
  | .sta o | .stx o | .sty o | .inc o | .dec o => [effectiveAddr o s]
  | .asl t | .lsr t | .rol t | .ror t => ShiftTarget.storedAddrs t s
  | .pha | .php => [stackByte s.SP]
  | .jsr _ _ => [stackByte s.SP, stackByte (s.SP - 1)]
  | .brk => [stackByte s.SP, stackByte (s.SP - 1), stackByte (s.SP - 2)]
  | .bpl _ | .bmi _ | .bvc _ | .bvs _ | .bcc _ | .bcs _ | .bne _ | .beq _ | .clc | .sec | .cli | .sei
  | .cld | .sed | .clv | .jmpAbs _ _ | .jmpInd _ _ | .rts | .rti | .bit _ | .plp | .pla | .tax | .tay
  | .txa | .tya | .txs | .tsx | .inx | .iny | .dex | .dey | .cmp _ | .cpx _ | .cpy _ | .lda _ | .ldx _
  | .ldy _ | .ora _ | .and _ | .eor _ | .adc _ | .sbc _ | .nop | .starNop _ _ => []

/-! ### Who reads what (R13, R18) -/

/-- The modes in which the resolver reads `X` (R13). -/
def modeReadsX (m : Mode) : Bool := m == .zpx || m == .abx || m == .izx

/-- The modes in which the resolver reads `Y` (R13). -/
def modeReadsY (m : Mode) : Bool := m == .zpy || m == .aby || m == .izy

/-- The `A` row of R13, "read by". -/
def readsA : Instr → Bool
  | .sta _ | .pha | .tax | .tay | .ora _ | .and _ | .eor _ | .adc _ | .sbc _ | .cmp _ | .bit _ => true
  | .asl t | .lsr t | .rol t | .ror t => ShiftTarget.isAcc t
  | .bpl _ | .bmi _ | .bvc _ | .bvs _ | .bcc _ | .bcs _ | .bne _ | .beq _ | .clc | .sec | .cli | .sei
  | .cld | .sed | .clv | .jmpAbs _ _ | .jmpInd _ _ | .jsr _ _ | .rts | .brk | .rti | .php | .plp | .pla
  | .txa | .tya | .txs | .tsx | .inc _ | .dec _ | .inx | .iny | .dex | .dey | .cpx _ | .cpy _ | .lda _
  | .ldx _ | .ldy _ | .stx _ | .sty _ | .nop | .starNop _ _ => false

/-- The `X` row of R13, "read by". -/
def readsX (i : Instr) : Bool :=
  match i with
  | .stx _ | .txa | .txs | .inx | .dex | .cpx _ => true
  | .bpl _ | .bmi _ | .bvc _ | .bvs _ | .bcc _ | .bcs _ | .bne _ | .beq _ | .clc | .sec | .cli | .sei
  | .cld | .sed | .clv | .jmpAbs _ _ | .jmpInd _ _ | .jsr _ _ | .rts | .brk | .rti | .bit _ | .php | .plp
  | .pha | .pla | .tax | .tay | .tya | .tsx | .inc _ | .dec _ | .iny | .dey | .cmp _ | .cpy _ | .lda _
  | .ldx _ | .ldy _ | .sta _ | .sty _ | .asl _ | .lsr _ | .rol _ | .ror _ | .ora _ | .and _ | .eor _
  | .adc _ | .sbc _ | .nop | .starNop _ _ => modeReadsX i.mode

/-- The `Y` row of R13, "read by". -/
def readsY (i : Instr) : Bool :=
  match i with
  | .sty _ | .tya | .iny | .dey | .cpy _ => true
  | .bpl _ | .bmi _ | .bvc _ | .bvs _ | .bcc _ | .bcs _ | .bne _ | .beq _ | .clc | .sec | .cli | .sei
  | .cld | .sed | .clv | .jmpAbs _ _ | .jmpInd _ _ | .jsr _ _ | .rts | .brk | .rti | .bit _ | .php | .plp
  | .pha | .pla | .tax | .tay | .txa | .txs | .tsx | .inc _ | .dec _ | .inx | .dex | .cmp _ | .cpx _
  | .lda _ | .ldx _ | .ldy _ | .sta _ | .stx _ | .asl _ | .lsr _ | .rol _ | .ror _ | .ora _ | .and _
  | .eor _ | .adc _ | .sbc _ | .nop | .starNop _ _ => modeReadsY i.mode

/-- The `C` row of R18, "read by", as far as it lists instructions. -/
def readsC : Instr → Bool
  | .adc _ | .sbc _ | .rol _ | .ror _ | .bcc _ | .bcs _ | .php | .brk => true
  | .bpl _ | .bmi _ | .bvc _ | .bvs _ | .bne _ | .beq _ | .clc | .sec | .cli | .sei | .cld | .sed | .clv
  | .jmpAbs _ _ | .jmpInd _ _ | .jsr _ _ | .rts | .rti | .bit _ | .plp | .pha | .pla | .tax | .tay | .txa
  | .tya | .txs | .tsx | .inc _ | .dec _ | .inx | .iny | .dex | .dey | .cmp _ | .cpx _ | .cpy _ | .lda _
  | .ldx _ | .ldy _ | .sta _ | .stx _ | .sty _ | .asl _ | .lsr _ | .ora _ | .and _ | .eor _ | .nop
  | .starNop _ _ => false

/-- The `Z` row of R18, "read by". -/
def readsZ : Instr → Bool
  | .beq _ | .bne _ | .php | .brk => true
  | .bpl _ | .bmi _ | .bvc _ | .bvs _ | .bcc _ | .bcs _ | .clc | .sec | .cli | .sei | .cld | .sed | .clv
  | .jmpAbs _ _ | .jmpInd _ _ | .jsr _ _ | .rts | .rti | .bit _ | .plp | .pha | .pla | .tax | .tay | .txa
  | .tya | .txs | .tsx | .inc _ | .dec _ | .inx | .iny | .dex | .dey | .cmp _ | .cpx _ | .cpy _ | .lda _
  | .ldx _ | .ldy _ | .sta _ | .stx _ | .sty _ | .asl _ | .lsr _ | .rol _ | .ror _ | .ora _ | .and _
  | .eor _ | .adc _ | .sbc _ | .nop | .starNop _ _ => false

/-- The `I` row of R18, "read by", as far as it lists instructions. -/
def readsI : Instr → Bool
  | .php | .brk => true
  | .bpl _ | .bmi _ | .bvc _ | .bvs _ | .bcc _ | .bcs _ | .bne _ | .beq _ | .clc | .sec | .cli | .sei
  | .cld | .sed | .clv | .jmpAbs _ _ | .jmpInd _ _ | .jsr _ _ | .rts | .rti | .bit _ | .plp | .pha | .pla
  | .tax | .tay | .txa | .tya | .txs | .tsx | .inc _ | .dec _ | .inx | .iny | .dex | .dey | .cmp _ | .cpx _
  | .cpy _ | .lda _ | .ldx _ | .ldy _ | .sta _ | .stx _ | .sty _ | .asl _ | .lsr _ | .rol _ | .ror _
  | .ora _ | .and _ | .eor _ | .adc _ | .sbc _ | .nop | .starNop _ _ => false

/-- The `D` row of R18, "read by". -/
def readsD : Instr → Bool
  | .adc _ | .sbc _ | .php | .brk => true
  | .bpl _ | .bmi _ | .bvc _ | .bvs _ | .bcc _ | .bcs _ | .bne _ | .beq _ | .clc | .sec | .cli | .sei
  | .cld | .sed | .clv | .jmpAbs _ _ | .jmpInd _ _ | .jsr _ _ | .rts | .rti | .bit _ | .plp | .pha | .pla
  | .tax | .tay | .txa | .tya | .txs | .tsx | .inc _ | .dec _ | .inx | .iny | .dex | .dey | .cmp _ | .cpx _
  | .cpy _ | .lda _ | .ldx _ | .ldy _ | .sta _ | .stx _ | .sty _ | .asl _ | .lsr _ | .rol _ | .ror _
  | .ora _ | .and _ | .eor _ | .nop | .starNop _ _ => false

/-- The `V` row of R18, "read by". -/
def readsV : Instr → Bool
  | .bvc _ | .bvs _ | .php | .brk => true
  | .bpl _ | .bmi _ | .bcc _ | .bcs _ | .bne _ | .beq _ | .clc | .sec | .cli | .sei | .cld | .sed | .clv
  | .jmpAbs _ _ | .jmpInd _ _ | .jsr _ _ | .rts | .rti | .bit _ | .plp | .pha | .pla | .tax | .tay | .txa
  | .tya | .txs | .tsx | .inc _ | .dec _ | .inx | .iny | .dex | .dey | .cmp _ | .cpx _ | .cpy _ | .lda _
  | .ldx _ | .ldy _ | .sta _ | .stx _ | .sty _ | .asl _ | .lsr _ | .rol _ | .ror _ | .ora _ | .and _
  | .eor _ | .adc _ | .sbc _ | .nop | .starNop _ _ => false

/-- The `N` row of R18, "read by". -/
def readsN : Instr → Bool
  | .bmi _ | .bpl _ | .php | .brk => true
  | .bvc _ | .bvs _ | .bcc _ | .bcs _ | .bne _ | .beq _ | .clc | .sec | .cli | .sei | .cld | .sed | .clv
  | .jmpAbs _ _ | .jmpInd _ _ | .jsr _ _ | .rts | .rti | .bit _ | .plp | .pha | .pla | .tax | .tay | .txa
  | .tya | .txs | .tsx | .inc _ | .dec _ | .inx | .iny | .dex | .dey | .cmp _ | .cpx _ | .cpy _ | .lda _
  | .ldx _ | .ldy _ | .sta _ | .stx _ | .sty _ | .asl _ | .lsr _ | .rol _ | .ror _ | .ora _ | .and _
  | .eor _ | .adc _ | .sbc _ | .nop | .starNop _ _ => false

/-! ### Program counter and bus accesses (R15, R59) -/

/-- The instructions that may leave `PC` elsewhere than after themselves (R15). -/
def transfersControl : Instr → Bool
  | .bpl _ | .bmi _ | .bvc _ | .bvs _ | .bcc _ | .bcs _ | .bne _ | .beq _ => true
  | .jmpAbs _ _ | .jmpInd _ _ | .jsr _ _ | .rts | .rti | .brk => true
  | .clc | .sec | .cli | .sei | .cld | .sed | .clv | .bit _ | .php | .plp | .pha | .pla | .tax | .tay
  | .txa | .tya | .txs | .tsx | .inc _ | .dec _ | .inx | .iny | .dex | .dey | .cmp _ | .cpx _ | .cpy _
  | .lda _ | .ldx _ | .ldy _ | .sta _ | .stx _ | .sty _ | .asl _ | .lsr _ | .rol _ | .ror _ | .ora _
  | .and _ | .eor _ | .adc _ | .sbc _ | .nop | .starNop _ _ => false

/-- The operand reads of R59 by mode: in immediate mode the handler, not the resolver, reads the operand byte. -/
def operandReads : Mode → Nat
  | .imp | .acc | .imm => 0
  | .rel | .zp | .zpx | .zpy | .izx | .izy => 1
  | .abs | .abx | .aby | .ind => 2

/-- The pointer reads of R59 by mode. -/
def pointerReads : Mode → Nat
  | .ind | .izx | .izy => 2
  | _ => 0

/-- The handler's accesses of R59 by class. -/
def handlerAccesses : Instr → Nat
  | .lda _ | .ldx _ | .ldy _ | .ora _ | .and _ | .eor _ | .adc _ | .sbc _ | .cmp _ | .cpx _ | .cpy _ | .bit _ => 1
  | .sta _ | .stx _ | .sty _ => 1
  | .inc _ | .dec _ => 2
  | .asl t | .lsr t | .rol t | .ror t => if ShiftTarget.isAcc t then 0 else 2
  | .pha | .php | .pla | .plp => 1
  | .jsr _ _ | .rts => 2
  | .rti => 3
  | .brk => 5
  | .bpl _ | .bmi _ | .bvc _ | .bvs _ | .bcc _ | .bcs _ | .bne _ | .beq _ | .clc | .sec | .cli | .sei
  | .cld | .sed | .clv | .jmpAbs _ _ | .jmpInd _ _ | .tax | .tay | .txa | .tya | .txs | .tsx | .inx | .iny
  | .dex | .dey | .nop | .starNop _ _ => 0

end Sys2Proof.Machine
end

