-- ==== Sys2Proof/Certificates/Slice0/Obligations.lean ====
section
/-! DEFINITION. The statements for the provers. Every statement about `exec` starts where the handler's resolver starts:
the opcode has been fetched and `s.PC` is the address `a + 1` of the byte after it (StepRunsDecodedInstruction ties this to
`step`). `{ s with … }` says that everything not named is unchanged. `s.IsPlain a` says that plain memory stands behind an
address; behind any other the bus oracle answers (R41), and `s.answersAt as` are the bytes the bus answers, whatever stands
behind it, to reads of the addresses one after another. -/

open Sys2Proof Sys2Proof.Machine

/-! ### Encoding -/

/-- Decoding the encoding of a well-formed instruction gives it back, with every operand byte (R77 against R78), whatever
`ILLEGAL_MODE` is. -/
def Obligations.DecodeOfEncode : Prop :=
  ∀ (p : IllegalModes) (i : Instr) (rest : List Byte), wellFormed p i = true → decode p (encode i ++ rest) = .ok (i, rest)

/-- Whatever decodes is well-formed and is encoded by exactly the bytes it was read from. -/
def Obligations.EncodeOfDecode : Prop :=
  ∀ (p : IllegalModes) (bytes rest : List Byte) (i : Instr), decode p bytes = .ok (i, rest) →
    wellFormed p i = true ∧ encode i ++ rest = bytes

/-- R70: every opcode byte decodes, to an instruction of 1, 2 or 3 bytes, and how many is a function of the opcode byte
alone. -/
def Obligations.EveryOpcodeByteDecodes : Prop :=
  ∀ (p : IllegalModes) (op : Byte), 1 + operandCount p op ≤ 3 ∧
    ∀ lo hi rest, decode p (op :: lo :: hi :: rest) =
      .ok (decodeOpcode p op lo hi, (op :: lo :: hi :: rest).drop (1 + operandCount p op))

/-- R80: the 105 undocumented opcode bytes, by low nibble, whatever `ILLEGAL_MODE` is. R81: each decodes to the shared
no-operation, with the operand of the mode `ILLEGAL_MODE` gives it. At the default table of R82 (the model's reset value
of the parameter, note 6) the twelve that jam the real part are one-byte no-operations. -/
def Obligations.UndocumentedOpcodesAreNoOperations : Prop :=
  (∀ (p : IllegalModes) (op : Byte), (illegalMode p op).isSome = true ↔
    let row := op.toNat / 16
    let column := op.toNat % 16
    column = 2 ∧ row ≠ 10 ∨ column ∈ [3, 7, 11, 15] ∨ column = 4 ∧ row ∈ [0, 1, 3, 4, 5, 6, 7, 13, 15] ∨
    column = 10 ∧ row ∈ [1, 3, 5, 7, 13, 15] ∨ column = 12 ∧ row ∈ [0, 1, 3, 5, 7, 9, 13, 15] ∨
    op = 0x80 ∨ op = 0x89 ∨ op = 0x9E) ∧
  (∀ p : IllegalModes, ((List.range 256).filter fun n => (illegalMode p (BitVec.ofNat 8 n)).isSome).length = 105) ∧
  (∀ (p : IllegalModes) (op lo hi : Byte) (m : Mode), illegalMode p op = some m →
    ∃ o, decodeOpcode p op lo hi = .starNop op o ∧ o.mode = m) ∧
  (∀ op ∈ ([0x02, 0x12, 0x22, 0x32, 0x42, 0x52, 0x62, 0x72, 0x92, 0xB2, 0xD2, 0xF2] : List Byte),
    ∀ rest, decode .default (op :: rest) = .ok (.starNop op .imp, rest))

/-- Words written out from the encodings of R84 and the family files, at the default of `ILLEGAL_MODE`. -/
def Obligations.WrittenOutWordsDecode : Prop :=
  let reads (bytes : List Byte) (i : Instr) := decode .default bytes = .ok (i, [])
  reads [0x18] .clc ∧ reads [0x0A] (.asl .acc) ∧ reads [0xA9, 0x10] (.lda (.imm 0x10)) ∧
  reads [0xB6, 0x10] (.ldx (.zpy 0x10)) ∧ reads [0xAD, 0x34, 0x12] (.lda (.abs 0x34 0x12)) ∧
  reads [0x6C, 0x34, 0x12] (.jmpInd 0x34 0x12) ∧ reads [0xB1, 0x10] (.lda (.izy 0x10)) ∧ reads [0xD0, 0x01] (.bne 0x01) ∧
  reads [0x89, 0x55] (.starNop 0x89 (.mem (.imm 0x55)))

/-- The number the host gives an instruction's bits is the instruction that the next step runs after `withFetchWord`
(the model's convention, notes 10 and 14), for the state's own value of `ILLEGAL_MODE`; `decodeTableWord` is the default
one, which `State.reset` has. -/
def Obligations.WithFetchWordRunsTheWord : Prop :=
  (∀ (s : State) (nbits w : Nat) (i : Instr), Inv s → decodeTableWordWith s.params.illegal nbits w = some i →
    step (s.withFetchWord nbits w) =
      exec i { s.withFetchWord nbits w with
        PC := s.PC + 1, past := s.history, trace := [.read s.PC (BitVec.ofNat 8 (w % 2 ^ nbits))] }) ∧
  decodeTableWord = decodeTableWordWith State.reset.params.illegal

/-! ### The step -/

/-- R75: `step()` fetches the opcode byte at `PC`, which advances `PC` by one, and runs the instruction that the bytes the
bus answers at `PC` decode to. -/
def Obligations.StepRunsDecodedInstruction : Prop :=
  ∀ (s : State) (i : Instr) (rest : List Byte),
    decode s.params.illegal (s.answersAt [s.PC, s.PC + 1, s.PC + 2]) = .ok (i, rest) →
      step s = exec i { s with PC := s.PC + 1, past := s.history, trace := [.read s.PC (s.peek s.PC)] }

/-- R9: every transaction from every state completes and yields a next state, and so does every instruction on every
operand. -/
def Obligations.EveryTransactionCompletes : Prop :=
  (∀ (c : HostCall) (s : State), ∃ t, transact c s = .next t) ∧ ∀ (i : Instr) (s : State), ∃ t, exec i s = .next t

/-- The memory behind the bus keeps its canonical form over every transaction of the host, `step()` among them, and no
transaction changes the open parameters of R6. -/
def Obligations.MemoryStaysCanonical : Prop :=
  ∀ (c : HostCall) (s t : State), transact c s = .next t → (Inv s → Inv t) ∧ t.params = s.params

/-- The reset state has canonical memory, and it is the power-on state (the model's choice, note 3) after one `reset()`.
-/
def Obligations.ResetStateIsCanonical : Prop := Inv State.reset ∧ transact .reset State.powerOn = .next State.reset

/-! ### Whole-machine rules -/

/-- An instruction that R18 does not list as writing a flag leaves it unchanged. -/
def Obligations.FlagsWrittenOnlyByListedInstructions : Prop :=
  ∀ (i : Instr) (s t : State), exec i s = .next t →
    (writesC i = false → t.C = s.C) ∧ (writesNZ i = false → t.Z = s.Z ∧ t.N = s.N) ∧ (writesI i = false → t.I = s.I) ∧
    (writesD i = false → t.D = s.D) ∧ (writesV i = false → t.V = s.V)

/-- An instruction that R18 does not list as reading a flag does the same whatever the flag holds. -/
def Obligations.FlagsReadOnlyByListedInstructions : Prop :=
  ∀ (i : Instr) (s t : State) (b : Bool), exec i s = .next t →
    (readsC i = false → exec i { s with C := b } = .next (if writesC i then t else { t with C := b })) ∧
    (readsZ i = false → exec i { s with Z := b } = .next (if writesNZ i then t else { t with Z := b })) ∧
    (readsI i = false → exec i { s with I := b } = .next (if writesI i then t else { t with I := b })) ∧
    (readsD i = false → exec i { s with D := b } = .next (if writesD i then t else { t with D := b })) ∧
    (readsV i = false → exec i { s with V := b } = .next (if writesV i then t else { t with V := b })) ∧
    (readsN i = false → exec i { s with N := b } = .next (if writesNZ i then t else { t with N := b }))

/-- An instruction that R13 (and for `SP` R16) does not list as writing a register leaves it unchanged. -/
def Obligations.RegistersWrittenOnlyByListedInstructions : Prop :=
  ∀ (i : Instr) (s t : State), exec i s = .next t →
    (writesA i = false → t.A = s.A) ∧ (writesX i = false → t.X = s.X) ∧ (writesY i = false → t.Y = s.Y) ∧
    (writesSP i = false → t.SP = s.SP)

/-- An instruction that R13 does not list as reading a register does the same whatever the register holds. -/
def Obligations.RegistersReadOnlyByListedInstructions : Prop :=
  ∀ (i : Instr) (s t : State) (v : Byte), exec i s = .next t →
    (readsA i = false → exec i { s with A := v } = .next (if writesA i then t else { t with A := v })) ∧
    (readsX i = false → exec i { s with X := v } = .next (if writesX i then t else { t with X := v })) ∧
    (readsY i = false → exec i { s with Y := v } = .next (if writesY i then t else { t with Y := v }))

/-- Every byte of plain memory outside the bytes an instruction stores to reads as before, and an instruction that stores
nothing leaves memory as it is. -/
def Obligations.MemoryChangesOnlyWhereStored : Prop :=
  ∀ (i : Instr) (s t : State), exec i s = .next t →
    (∀ a, a ∉ storedAddrs i s → s.IsPlain a → t.peek a = s.peek a) ∧ (storedAddrs i s = [] → t.mem = s.mem) ∧
    t.params = s.params

/-- A step of an instruction that is no control transfer leaves `PC` past the instruction, modulo 65536. -/
def Obligations.ProgramCounterAdvancesByLength : Prop :=
  ∀ s t : State, step s = .next t → transfersControl (instrAtPC s) = false →
    t.PC.toNat = (s.PC.toNat + 1 + operandCount s.params.illegal (s.peek s.PC)) % 65536

/-- A step makes the number of bus accesses that the table of R59 gives: the opcode read, the operand and pointer reads
of the mode, and the handler's own. What the bus answers where no plain memory stands is the oracle's answer to all that
has happened on the bus before (R41, D23). -/
def Obligations.BusAccessCountOfStep : Prop :=
  ∀ s t : State, step s = .next t →
    t.trace.length =
      1 + operandReads (instrAtPC s).mode + pointerReads (instrAtPC s).mode + handlerAccesses (instrAtPC s) ∧
    t.past = s.past ++ s.trace ∧
    ∀ (k : Nat) (a : Addr) (v : Byte), t.trace[k]? = some (.read a v) → ¬ s.IsPlain a →
      v = Config.busAnswer (t.past ++ t.trace.take k) a

/-- The only events that set or clear interrupt-disable: reset, NMI and a taken IRQ set it, and so do SEI, BRK and a
pull of a status byte with bit 2 set; CLI and a pull of one with bit 2 clear clear it. -/
def Obligations.InterruptDisableChangesOnlyByListedEvents : Prop :=
  ∀ (c : HostCall) (s t : State), transact c s = .next t →
    (s.I = false → t.I = true →
      c = .irq ∨ c = .nmi ∨ c = .reset ∨
      (c = .step ∧ (instrAtPC s = .sei ∨ instrAtPC s = .brk ∨
        ((instrAtPC s = .plp ∨ instrAtPC s = .rti) ∧ ((afterFetch s).peek (stackByte (s.SP + 1))).getLsbD 2 = true)))) ∧
    (s.I = true → t.I = false →
      c = .step ∧ (instrAtPC s = .cli ∨
        ((instrAtPC s = .plp ∨ instrAtPC s = .rti) ∧ ((afterFetch s).peek (stackByte (s.SP + 1))).getLsbD 2 = false)))

/-! ### The status byte and the stack -/

/-- R23, R24: the layout of the status byte, and what pulling one writes. -/
def Obligations.StatusByteLayout : Prop :=
  ∀ (s : State) (b : Bool) (v : Byte), StatusByte (s.packP b) s b ∧ FlagsFrom (s.unpackP v) v ∧
    s.unpackP v = { s with C := v.getLsbD 0, Z := v.getLsbD 1, I := v.getLsbD 2, D := v.getLsbD 3, V := v.getLsbD 6,
                           N := v.getLsbD 7 }

/-- R27, R28, R29 with the spec's decision D7 on the order: a push writes page 1 at the old `SP` and lowers it modulo
256, a pop reads at the raised `SP`, and a pop after a push restores `SP` and in plain memory answers the pushed byte. -/
def Obligations.PushAndPop : Prop :=
  ∀ (s : State) (v : Byte), Inv s →
    StoredByte s (s.push v) (stackByte s.SP) v ∧
    s.push v = { s with mem := (s.push v).mem, SP := s.SP - 1, trace := s.trace ++ [.write (stackByte s.SP) v] } ∧
    s.pop.1 = s.peek (stackByte (s.SP + 1)) ∧
    s.pop.2 = { s with SP := s.SP + 1, trace := s.trace ++ [.read (stackByte (s.SP + 1)) s.pop.1] } ∧
    (s.IsPlain (stackByte s.SP) → (s.push v).pop.1 = v) ∧ (s.push v).pop.2.SP = s.SP ∧
    256 ≤ (stackByte s.SP).toNat ∧ (stackByte s.SP).toNat ≤ 511

/-- 256 pushes restore `SP`, fill each byte of page 1 that is plain memory once, and if all of it is plain memory 256 pops
then answer the bytes in reverse order. -/
def Obligations.StackWrapsAfter256Pushes : Prop :=
  ∀ (s : State) (vs : List Byte), Inv s → vs.length = 256 →
    (pushAll vs s).SP = s.SP ∧
    (∀ k v, vs[k]? = some v → s.IsPlain (stackByte (s.SP - BitVec.ofNat 8 k)) →
      (pushAll vs s).peek (stackByte (s.SP - BitVec.ofNat 8 k)) = v) ∧
    ((∀ sp, s.IsPlain (stackByte sp)) → (popMany 256 (pushAll vs s)).1 = vs.reverse) ∧
    (popMany 256 (pushAll vs s)).2.SP = s.SP

/-- R152 to R154: PLP pulls all six flags, PHA pushes `A` and writes no flag, PLA pulls `A` and sets `N` and `Z`. -/
def Obligations.StackInstructions : Prop :=
  (DecodesFrom .plp [0x28] ∧ DecodesFrom .pha [0x48] ∧ DecodesFrom .pla [0x68]) ∧
  ∀ s : State, Inv s →
    let top := s.peek (stackByte (s.SP + 1))
    (∃ t, exec .plp s = .next t ∧ FlagsFrom t top ∧
      t = { s with SP := s.SP + 1, C := t.C, Z := t.Z, I := t.I, D := t.D, V := t.V, N := t.N,
                   trace := s.trace ++ [.read (stackByte (s.SP + 1)) top] }) ∧
    (∃ t, exec .pha s = .next t ∧ StoredByte s t (stackByte s.SP) s.A ∧
      t = { s with SP := s.SP - 1, mem := t.mem, trace := s.trace ++ [.write (stackByte s.SP) s.A] }) ∧
    (∃ t, exec .pla s = .next t ∧ t.A = top ∧ FlagsOf t top ∧
      t = { s with SP := s.SP + 1, A := t.A, Z := t.Z, N := t.N,
                   trace := s.trace ++ [.read (stackByte (s.SP + 1)) top] })

/-- PHP pushes the status byte with the break bit set and writes no flag (the spec's decision D8); TXS writes `SP` and
no flag, and TSX writes `X`, `N` and `Z` (its decision D9). -/
def Obligations.PhpTxsAndTsxInstructions : Prop :=
  (DecodesFrom .php [0x08] ∧ DecodesFrom .txs [0x9A] ∧ DecodesFrom .tsx [0xBA]) ∧
  ∀ s : State,
    (Inv s → ∃ t p, exec .php s = .next t ∧ StatusByte p s true ∧ StoredByte s t (stackByte s.SP) p ∧
      t = { s with SP := s.SP - 1, mem := t.mem, trace := s.trace ++ [.write (stackByte s.SP) p] }) ∧
    exec .txs s = .next { s with SP := s.X } ∧
    (∃ t, exec .tsx s = .next t ∧ FlagsOf t s.SP ∧ t = { s with X := s.SP, Z := t.Z, N := t.N })

/-! ### Interrupts and reset -/

/-- R244: the shared interrupt sequence, with the spec's decisions D5 (vector low byte first) and D22 (`D` is kept). The
vector's bytes are what the bus answers after the three pushes. -/
def Obligations.InterruptSequence : Prop :=
  ∀ (s : State) (vec : Addr) (b : Bool), Inv s → ∃ t p lo hi, s.interrupt vec b = t ∧ StatusByte p s b ∧
    let pushes : List BusAccess :=
      [.write (stackByte s.SP) (BitVec.ofNat 8 (s.PC.toNat / 256)),
       .write (stackByte (s.SP - 1)) (BitVec.ofNat 8 s.PC.toNat), .write (stackByte (s.SP - 2)) p]
    ThreeStored s t (BitVec.ofNat 8 (s.PC.toNat / 256)) (BitVec.ofNat 8 s.PC.toNat) p ∧
    ({ s with mem := t.mem, trace := s.trace ++ pushes } : State).answersAt [vec, vec + 1] = [lo, hi] ∧
    t = { s with
      SP := s.SP - 3
      I := true
      PC := BitVec.ofNat 16 (256 * hi.toNat + lo.toNat)
      mem := t.mem
      trace := s.trace ++ pushes ++ [.read vec lo, .read (vec + 1) hi] }

/-- R245: `irq()` with `I` set changes nothing and makes no access; with `I` clear it enters through 0xFFFE with the
break bit 0: `PC` is the word the bus answers there, and the pushed status byte has bits 2 and 4 clear and bit 5 set. -/
def Obligations.IrqIsMaskedByInterruptDisable : Prop :=
  ∀ s : State, let begun : State := { s with past := s.history, trace := [] }
    (s.I = true → transact .irq s = .next begun) ∧
    (s.I = false → ∃ t p lo hi, transact .irq s = .next t ∧ t = begun.interrupt 0xFFFE false ∧
      t.trace.drop 2 = [.write (stackByte (s.SP - 2)) p, .read 0xFFFE lo, .read 0xFFFF hi] ∧
      t.PC = BitVec.ofNat 16 (256 * hi.toNat + lo.toNat) ∧
      (s.IsPlain 0xFFFE → lo = s.peek 0xFFFE) ∧ (s.IsPlain 0xFFFF → hi = s.peek 0xFFFF) ∧
      (Inv s → s.IsPlain (stackByte (s.SP - 2)) → t.peek (stackByte (s.SP - 2)) = p) ∧
      p.getLsbD 4 = false ∧ p.getLsbD 5 = true ∧ p.getLsbD 2 = false)

/-- R246: `nmi()` always enters, through 0xFFFA, with the break bit 0 and bit 2 equal to the old `I`. -/
def Obligations.NmiIsAlwaysTaken : Prop :=
  ∀ s : State, let begun : State := { s with past := s.history, trace := [] }
    ∃ t p lo hi, transact .nmi s = .next t ∧ t = begun.interrupt 0xFFFA false ∧ t.I = true ∧
      t.trace.drop 2 = [.write (stackByte (s.SP - 2)) p, .read 0xFFFA lo, .read 0xFFFB hi] ∧
      t.PC = BitVec.ofNat 16 (256 * hi.toNat + lo.toNat) ∧
      (s.IsPlain 0xFFFA → lo = s.peek 0xFFFA) ∧ (s.IsPlain 0xFFFB → hi = s.peek 0xFFFB) ∧
      (Inv s → s.IsPlain (stackByte (s.SP - 2)) → t.peek (stackByte (s.SP - 2)) = p) ∧
      p.getLsbD 4 = false ∧ p.getLsbD 5 = true ∧ p.getLsbD 2 = s.I

/-- R270, R271, with the spec's decisions D12 (no stack access) and D22 (`D` is kept): `reset()` writes `I`, `SP` and
`PC` and nothing else, and makes two reads and no stack access. -/
def Obligations.ResetTransaction : Prop :=
  ∀ (s : State) (lo hi : Byte), s.answersAt [0xFFFC, 0xFFFD] = [lo, hi] →
    transact .reset s = .next { s with
      I := true
      SP := s.SP - 3
      PC := BitVec.ofNat 16 (256 * hi.toNat + lo.toNat)
      past := s.history
      trace := [.read 0xFFFC lo, .read 0xFFFD hi] }

/-- R146, with the spec's decision D15: BRK skips its padding byte unread and takes the interrupt sequence through
0xFFFE with the break bit set, whatever `I` is. -/
def Obligations.BrkInstruction : Prop :=
  DecodesFrom .brk [0x00] ∧
  ∀ s : State, Inv s → ∃ t p lo hi, exec .brk s = .next t ∧ StatusByte p s true ∧
    let ret : Addr := s.PC + 1
    let pushes : List BusAccess :=
      [.write (stackByte s.SP) (BitVec.ofNat 8 (ret.toNat / 256)), .write (stackByte (s.SP - 1)) (BitVec.ofNat 8 ret.toNat),
       .write (stackByte (s.SP - 2)) p]
    ThreeStored s t (BitVec.ofNat 8 (ret.toNat / 256)) (BitVec.ofNat 8 ret.toNat) p ∧
    ({ s with mem := t.mem, trace := s.trace ++ pushes } : State).answersAt [0xFFFE, 0xFFFF] = [lo, hi] ∧
    (s.IsPlain 0xFFFE → lo = s.peek 0xFFFE) ∧ (s.IsPlain 0xFFFF → hi = s.peek 0xFFFF) ∧
    t = { s with
      SP := s.SP - 3
      I := true
      PC := BitVec.ofNat 16 (256 * hi.toNat + lo.toNat)
      mem := t.mem
      trace := s.trace ++ pushes ++ [.read 0xFFFE lo, .read 0xFFFF hi] }

/-- R147: RTI pulls the six flags, then `PC` low, then `PC` high, and adds nothing. -/
def Obligations.RtiInstruction : Prop :=
  DecodesFrom .rti [0x40] ∧
  ∀ (s : State) (p lo hi : Byte),
    s.answersAt [stackByte (s.SP + 1), stackByte (s.SP + 2), stackByte (s.SP + 3)] = [p, lo, hi] →
    ∃ t, exec .rti s = .next t ∧ FlagsFrom t p ∧
      t = { s with
        SP := s.SP + 3
        PC := BitVec.ofNat 16 (256 * hi.toNat + lo.toNat)
        C := t.C
        Z := t.Z
        I := t.I
        D := t.D
        V := t.V
        N := t.N
        trace := s.trace ++ [.read (stackByte (s.SP + 1)) p, .read (stackByte (s.SP + 2)) lo, .read (stackByte (s.SP + 3)) hi] }

/-- R148, which the spec derives: an RTI that finds `SP` and the three stack bytes as an interrupt entry left them
restores `PC`, `SP` and all six flags to what they were at the entry; for BRK the restored `PC` is the one past the
padding byte. The three bytes are plain memory; a device would not keep them (R41). -/
def Obligations.InterruptRoundTrip : Prop :=
  ∀ s h : State, Inv s → h.params = s.params →
    (∀ sp ∈ [s.SP, s.SP - 1, s.SP - 2], s.IsPlain (stackByte sp)) →
    let undisturbed (t : State) :=
      h.SP = t.SP ∧ ∀ sp ∈ [s.SP, s.SP - 1, s.SP - 2], h.peek (stackByte sp) = t.peek (stackByte sp)
    let restores (pc : Addr) := ∃ u, exec .rti h = .next u ∧ u.PC = pc ∧ u.SP = s.SP ∧ u.C = s.C ∧ u.Z = s.Z ∧ u.I = s.I ∧
      u.D = s.D ∧ u.V = s.V ∧ u.N = s.N
    (∀ t, exec .brk s = .next t → undisturbed t → restores (s.PC + 1)) ∧
    (∀ t, transact .nmi s = .next t → undisturbed t → restores s.PC) ∧
    (∀ t, s.I = false → transact .irq s = .next t → undisturbed t → restores s.PC)

/-- R255: BRK and an `irq()` at the address BRK returns to enter the shared handler in states that differ in bit 4 of
the status byte on the stack, 1 for BRK and 0 for `irq()`, and in nothing else but the record of bus accesses. The vector
and that stack byte are plain memory; a device could answer the two otherwise (R41). -/
def Obligations.BreakBitTellsBrkFromIrq : Prop :=
  ∀ s t u : State, Inv s → s.I = false → exec .brk s = .next t → transact .irq { s with PC := s.PC + 1 } = .next u →
    let top := stackByte (t.SP + 1)
    s.IsPlain 0xFFFE → s.IsPlain 0xFFFF → s.IsPlain top →
    (t.peek top).getLsbD 4 = true ∧ (u.peek top).getLsbD 4 = false ∧
    (∀ k, k ≠ 4 → (u.peek top).getLsbD k = (t.peek top).getLsbD k) ∧
    (∀ a, a ≠ top → s.IsPlain a → u.peek a = t.peek a) ∧
    u = { t with mem := u.mem, past := u.past, trace := u.trace }

/-! ### The resolver -/

/-- R103, R105 to R110: effective address, `PC` and bus reads of the modes without a pointer. -/
def Obligations.DirectModes : Prop :=
  ∀ (s : State) (d8 lo hi : Byte),
    resolve (.imm d8) s = (s.PC, { s with PC := s.PC + 1 }) ∧
    (∀ (o : Operand) (ea : Nat), (o, ea) ∈
        [(Operand.zp d8, d8.toNat), (.zpx d8, (d8.toNat + s.X.toNat) % 256), (.zpy d8, (d8.toNat + s.Y.toNat) % 256)] →
      resolve o s = (BitVec.ofNat 16 ea, { s with PC := s.PC + 1, trace := s.trace ++ [.read s.PC d8] })) ∧
    (∀ (o : Operand) (ea : Nat), (o, ea) ∈
        [(Operand.abs lo hi, 256 * hi.toNat + lo.toNat), (.abx lo hi, (256 * hi.toNat + lo.toNat + s.X.toNat) % 65536),
         (.aby lo hi, (256 * hi.toNat + lo.toNat + s.Y.toNat) % 65536)] →
      resolve o s =
        (BitVec.ofNat 16 ea, { s with PC := s.PC + 2, trace := s.trace ++ [.read s.PC lo, .read (s.PC + 1) hi] }))

/-- R112, R114, R115: the two zero-page pointer modes, for either value of `ZP_PTR_WRAP`: the pointer's low byte is at
`z` and is read first, the high byte is at `z + 1`, and for `z` = 0xFF at 0x0100 or at 0x0000. `lo` and `hi` are what the
bus answers there after the operand byte was read. -/
def Obligations.ZeroPagePointerModes : Prop :=
  ∀ (wrap : Bool) (s : State) (d8 lo hi : Byte) (z : Nat),
    let lowAt : Addr := BitVec.ofNat 16 z
    let highAt : Addr := if z = 255 then (if wrap then 0x0000 else 0x0100) else BitVec.ofNat 16 (z + 1)
    ({ s with trace := s.trace ++ [.read s.PC d8] } : State).answersAt [lowAt, highAt] = [lo, hi] →
    let pointer : Nat := 256 * hi.toNat + lo.toNat
    let after : State :=
      { s with PC := s.PC + 1, trace := s.trace ++ [.read s.PC d8, .read lowAt lo, .read highAt hi] }
    (z = (d8.toNat + s.X.toNat) % 256 → resolveWith wrap (.izx d8) s = (BitVec.ofNat 16 pointer, after)) ∧
    (z = d8.toNat → resolveWith wrap (.izy d8) s = (BitVec.ofNat 16 ((pointer + s.Y.toNat) % 65536), after))

/-- R104: the branch target is the address after the branch plus the signed displacement, modulo 65536; the displacement
byte is read whether or not the branch is taken. -/
def Obligations.RelativeMode : Prop :=
  ∀ (s : State) (d8 : Byte),
    (resolveRel d8 s).2 = { s with PC := s.PC + 1, trace := s.trace ++ [.read s.PC d8] } ∧
    ((resolveRel d8 s).1.toNat : Int) = ((s.PC + 1).toNat + d8.toInt) % 65536

/-- The operand byte is the byte the bus answers at the effective address after the resolver's reads, which in plain
memory is the byte there before them; in immediate mode, where the instruction holds it, when the instruction was decoded
from what the bus answers at `PC`. -/
def Obligations.OperandByteIsAtEffectiveAddress : Prop :=
  ∀ (o : Operand) (s : State), (o.mode = .imm → o.bytes = [s.peek s.PC]) →
    operandValue o s = (resolve o s).2.peek (effectiveAddr o s) ∧
    (s.IsPlain (effectiveAddr o s) → operandValue o s = s.peek (effectiveAddr o s))

/-! ### Branches, flags, jumps -/

/-- R120 to R129: the eight branches. -/
def Obligations.BranchInstructions : Prop :=
  ∀ (d8 : Byte) (s : State),
    let branches (i : Instr) (opcode : Byte) (cond : Prop) :=
      DecodesFrom i [opcode, d8] ∧
      ∃ t, exec i s = .next t ∧ t = { s with PC := t.PC, trace := s.trace ++ [.read s.PC d8] } ∧
        (cond → t.PC = BitVec.ofInt 16 (s.PC.toNat + 1 + d8.toInt)) ∧ (¬ cond → t.PC = s.PC + 1)
    branches (.bpl d8) 0x10 (s.N = false) ∧ branches (.bmi d8) 0x30 (s.N = true) ∧
    branches (.bvc d8) 0x50 (s.V = false) ∧ branches (.bvs d8) 0x70 (s.V = true) ∧
    branches (.bcc d8) 0x90 (s.C = false) ∧ branches (.bcs d8) 0xB0 (s.C = true) ∧
    branches (.bne d8) 0xD0 (s.Z = false) ∧ branches (.beq d8) 0xF0 (s.Z = true)

/-- R130 to R136: the seven flag instructions write their flag and nothing else. -/
def Obligations.FlagInstructions : Prop :=
  (DecodesFrom .clc [0x18] ∧ DecodesFrom .sec [0x38] ∧ DecodesFrom .cli [0x58] ∧ DecodesFrom .sei [0x78] ∧
    DecodesFrom .cld [0xD8] ∧ DecodesFrom .sed [0xF8] ∧ DecodesFrom .clv [0xB8]) ∧
  ∀ s : State,
    exec .clc s = .next { s with C := false } ∧ exec .sec s = .next { s with C := true } ∧
    exec .cli s = .next { s with I := false } ∧ exec .sei s = .next { s with I := true } ∧
    exec .cld s = .next { s with D := false } ∧ exec .sed s = .next { s with D := true } ∧
    exec .clv s = .next { s with V := false }

/-- R140, R141: both jumps. The pointer's high byte is read at `p + 1` with full 16-bit carry; `l` and `h` are what the
bus answers there after the operand bytes were read. -/
def Obligations.JumpInstructions : Prop :=
  ∀ (lo hi : Byte) (s : State),
    let p : Addr := BitVec.ofNat 16 (256 * hi.toNat + lo.toNat)
    let operandReads : List BusAccess := [.read s.PC lo, .read (s.PC + 1) hi]
    DecodesFrom (.jmpAbs lo hi) [0x4C, lo, hi] ∧ DecodesFrom (.jmpInd lo hi) [0x6C, lo, hi] ∧
    exec (.jmpAbs lo hi) s = .next { s with PC := p, trace := s.trace ++ operandReads } ∧
    ∀ l h : Byte, ({ s with trace := s.trace ++ operandReads } : State).answersAt [p, p + 1] = [l, h] →
      exec (.jmpInd lo hi) s = .next { s with
        PC := BitVec.ofNat 16 (256 * h.toNat + l.toNat)
        trace := s.trace ++ operandReads ++ [.read p l, .read (p + 1) h] }

/-- R143, with the order of reads and pushes that the spec derives: JSR reads both operand bytes, then pushes the
address of the last one, high byte first, and jumps. -/
def Obligations.JsrInstruction : Prop :=
  ∀ (lo hi : Byte) (s : State), DecodesFrom (.jsr lo hi) [0x20, lo, hi] ∧
    (Inv s → ∃ t, exec (.jsr lo hi) s = .next t ∧
      (s.IsPlain (stackByte s.SP) → t.peek (stackByte s.SP) = BitVec.ofNat 8 ((s.PC + 1).toNat / 256)) ∧
      (s.IsPlain (stackByte (s.SP - 1)) → t.peek (stackByte (s.SP - 1)) = BitVec.ofNat 8 (s.PC + 1).toNat) ∧
      (∀ a, a ≠ stackByte s.SP → a ≠ stackByte (s.SP - 1) → s.IsPlain a → t.peek a = s.peek a) ∧
      t = { s with
        SP := s.SP - 2
        PC := BitVec.ofNat 16 (256 * hi.toNat + lo.toNat)
        mem := t.mem
        trace := s.trace ++
          [.read s.PC lo, .read (s.PC + 1) hi, .write (stackByte s.SP) (BitVec.ofNat 8 ((s.PC + 1).toNat / 256)),
           .write (stackByte (s.SP - 1)) (BitVec.ofNat 8 (s.PC + 1).toNat)] })

/-- R144: RTS pops low then high and adds 1. -/
def Obligations.RtsInstruction : Prop :=
  DecodesFrom .rts [0x60] ∧
  ∀ (s : State) (lo hi : Byte), s.answersAt [stackByte (s.SP + 1), stackByte (s.SP + 2)] = [lo, hi] →
    exec .rts s = .next { s with
      SP := s.SP + 2
      PC := BitVec.ofNat 16 (256 * hi.toNat + lo.toNat + 1)
      trace := s.trace ++ [.read (stackByte (s.SP + 1)) lo, .read (stackByte (s.SP + 2)) hi] }

/-- R145, which the spec derives: an RTS that finds `SP` and the two stack bytes as a JSR left them returns to the
address after the JSR, whatever happened in between, calls and pushes among it. The two bytes are plain memory; a device
would not keep them (R41). -/
def Obligations.SubroutineRoundTrip : Prop :=
  ∀ (lo hi : Byte) (s t h : State), Inv s → exec (.jsr lo hi) s = .next t → h.params = s.params →
    s.IsPlain (stackByte s.SP) → s.IsPlain (stackByte (s.SP - 1)) → h.SP = t.SP →
    h.peek (stackByte s.SP) = t.peek (stackByte s.SP) → h.peek (stackByte (s.SP - 1)) = t.peek (stackByte (s.SP - 1)) →
      ∃ u, exec .rts h = .next u ∧ u.PC = s.PC + 2 ∧ u.SP = s.SP

/-- From R284: with plain memory behind the whole bus a step that changes nothing but the record of bus accesses repeats
for ever; and JMP to its own address, in plain memory, is such a step and repeats for ever, whatever else stands behind the
bus. -/
def Obligations.SelfJumpRepeatsForever : Prop :=
  let same (s t : State) := t = { s with past := t.past, trace := t.trace }
  let forever (s : State) := ∀ n, ∃ u, Sys2Proof.core.run n s = .next u ∧ same s u
  (∀ s t : State, (∀ a, s.IsPlain a) → step s = .next t → same s t → forever s) ∧
  (∀ s : State, s.IsPlain s.PC → s.IsPlain (s.PC + 1) → s.IsPlain (s.PC + 2) → s.peek s.PC = 0x4C →
    s.peek (s.PC + 1) = BitVec.ofNat 8 s.PC.toNat → s.peek (s.PC + 2) = BitVec.ofNat 8 (s.PC.toNat / 256) →
      (∃ t, step s = .next t ∧ same s t) ∧ forever s)

/-! ### Bit test, transfers, increments, compares -/

/-- R150: BIT sets `Z` from `A & m` and copies bits 7 and 6 of `m`. -/
def Obligations.BitInstruction : Prop :=
  EncodedBy .bit [(.zp, 0x24), (.abs, 0x2C)] ∧
  ∀ (o : Operand) (s : State),
    let m := operandValue o s
    ∃ t, exec (.bit o) s = .next t ∧ (t.Z = true ↔ ∀ k, k < 8 → (s.A.getLsbD k && m.getLsbD k) = false) ∧
      (t.N = true ↔ 128 ≤ m.toNat) ∧ (t.V = true ↔ 64 ≤ m.toNat % 128) ∧
      t = { s with Z := t.Z, N := t.N, V := t.V, PC := (resolve o s).2.PC,
                   trace := (resolve o s).2.trace ++ [.read (effectiveAddr o s) m] }

/-- R160 to R163: the four transfers between the accumulator and the index registers. -/
def Obligations.TransferInstructions : Prop :=
  (DecodesFrom .tax [0xAA] ∧ DecodesFrom .tay [0xA8] ∧ DecodesFrom .txa [0x8A] ∧ DecodesFrom .tya [0x98]) ∧
  ∀ s : State,
    (∃ t, exec .tax s = .next t ∧ FlagsOf t s.A ∧ t = { s with X := s.A, Z := t.Z, N := t.N }) ∧
    (∃ t, exec .tay s = .next t ∧ FlagsOf t s.A ∧ t = { s with Y := s.A, Z := t.Z, N := t.N }) ∧
    (∃ t, exec .txa s = .next t ∧ FlagsOf t s.X ∧ t = { s with A := s.X, Z := t.Z, N := t.N }) ∧
    (∃ t, exec .tya s = .next t ∧ FlagsOf t s.Y ∧ t = { s with A := s.Y, Z := t.Z, N := t.N })

/-- R170, R171: INC and DEC read the byte, write it changed by one modulo 256, and set `N` and `Z` from it. -/
def Obligations.IncrementAndDecrementMemory : Prop :=
  EncodedBy .inc [(.zp, 0xE6), (.zpx, 0xF6), (.abs, 0xEE), (.abx, 0xFE)] ∧
  EncodedBy .dec [(.zp, 0xC6), (.zpx, 0xD6), (.abs, 0xCE), (.abx, 0xDE)] ∧
  ∀ (o : Operand) (s : State), Inv s →
    let m := operandValue o s
    let ea := effectiveAddr o s
    let modifies (i : Instr) (r : Byte) := ∃ t, exec i s = .next t ∧ StoredByte s t ea r ∧ FlagsOf t r ∧
      t = { s with N := t.N, Z := t.Z, PC := (resolve o s).2.PC, mem := t.mem,
                   trace := (resolve o s).2.trace ++ [.read ea m, .write ea r] }
    modifies (.inc o) (BitVec.ofNat 8 ((m.toNat + 1) % 256)) ∧ modifies (.dec o) (BitVec.ofNat 8 ((m.toNat + 255) % 256))

/-- R172 to R175: the register increments and decrements wrap modulo 256 and set `N` and `Z`, and nothing else. -/
def Obligations.IncrementAndDecrementRegisters : Prop :=
  (DecodesFrom .inx [0xE8] ∧ DecodesFrom .iny [0xC8] ∧ DecodesFrom .dex [0xCA] ∧ DecodesFrom .dey [0x88]) ∧
  ∀ s : State,
    (∃ t, exec .inx s = .next t ∧ t.X.toNat = (s.X.toNat + 1) % 256 ∧ FlagsOf t t.X ∧
      t = { s with X := t.X, N := t.N, Z := t.Z }) ∧
    (∃ t, exec .iny s = .next t ∧ t.Y.toNat = (s.Y.toNat + 1) % 256 ∧ FlagsOf t t.Y ∧
      t = { s with Y := t.Y, N := t.N, Z := t.Z }) ∧
    (∃ t, exec .dex s = .next t ∧ t.X.toNat = (s.X.toNat + 255) % 256 ∧ FlagsOf t t.X ∧
      t = { s with X := t.X, N := t.N, Z := t.Z }) ∧
    (∃ t, exec .dey s = .next t ∧ t.Y.toNat = (s.Y.toNat + 255) % 256 ∧ FlagsOf t t.Y ∧
      t = { s with Y := t.Y, N := t.N, Z := t.Z })

/-- R176 to R179: the compares set `C` when the register is at least the operand, `Z` when they are equal, and `N` from
bit 7 of the difference. -/
def Obligations.CompareInstructions : Prop :=
  EncodedBy .cmp [(.imm, 0xC9), (.zp, 0xC5), (.zpx, 0xD5), (.abs, 0xCD), (.abx, 0xDD), (.aby, 0xD9), (.izx, 0xC1),
    (.izy, 0xD1)] ∧
  EncodedBy .cpx [(.imm, 0xE0), (.zp, 0xE4), (.abs, 0xEC)] ∧ EncodedBy .cpy [(.imm, 0xC0), (.zp, 0xC4), (.abs, 0xCC)] ∧
  ∀ (o : Operand) (s : State),
    let m := operandValue o s
    let compares (i : Instr) (r : Byte) := ∃ t, exec i s = .next t ∧ (t.C = true ↔ m.toNat ≤ r.toNat) ∧
      (t.Z = true ↔ r = m) ∧ (t.N = true ↔ 128 ≤ (r.toNat + 256 - m.toNat) % 256) ∧
      t = { s with C := t.C, Z := t.Z, N := t.N, PC := (resolve o s).2.PC,
                   trace := (resolve o s).2.trace ++ [.read (effectiveAddr o s) m] }
    compares (.cmp o) s.A ∧ compares (.cpx o) s.X ∧ compares (.cpy o) s.Y

/-! ### Loads, stores, shifts -/

/-- R190 to R192: the loads set the register to the operand byte and `N` and `Z` from it. -/
def Obligations.LoadInstructions : Prop :=
  EncodedBy .lda [(.imm, 0xA9), (.zp, 0xA5), (.zpx, 0xB5), (.abs, 0xAD), (.abx, 0xBD), (.aby, 0xB9), (.izx, 0xA1),
    (.izy, 0xB1)] ∧
  EncodedBy .ldx [(.imm, 0xA2), (.zp, 0xA6), (.zpy, 0xB6), (.abs, 0xAE), (.aby, 0xBE)] ∧
  EncodedBy .ldy [(.imm, 0xA0), (.zp, 0xA4), (.zpx, 0xB4), (.abs, 0xAC), (.abx, 0xBC)] ∧
  ∀ (o : Operand) (s : State),
    let m := operandValue o s
    let accesses := (resolve o s).2.trace ++ [.read (effectiveAddr o s) m]
    (∃ t, exec (.lda o) s = .next t ∧ FlagsOf t m ∧
      t = { s with A := m, N := t.N, Z := t.Z, PC := (resolve o s).2.PC, trace := accesses }) ∧
    (∃ t, exec (.ldx o) s = .next t ∧ FlagsOf t m ∧
      t = { s with X := m, N := t.N, Z := t.Z, PC := (resolve o s).2.PC, trace := accesses }) ∧
    (∃ t, exec (.ldy o) s = .next t ∧ FlagsOf t m ∧
      t = { s with Y := m, N := t.N, Z := t.Z, PC := (resolve o s).2.PC, trace := accesses })

/-- R193 to R195: the stores write the register at the effective address, read nothing there, and write no flag. -/
def Obligations.StoreInstructions : Prop :=
  EncodedBy .sta [(.zp, 0x85), (.zpx, 0x95), (.abs, 0x8D), (.abx, 0x9D), (.aby, 0x99), (.izx, 0x81), (.izy, 0x91)] ∧
  EncodedBy .stx [(.zp, 0x86), (.zpy, 0x96), (.abs, 0x8E)] ∧ EncodedBy .sty [(.zp, 0x84), (.zpx, 0x94), (.abs, 0x8C)] ∧
  ∀ (o : Operand) (s : State), Inv s →
    let stores (i : Instr) (v : Byte) := ∃ t, exec i s = .next t ∧ StoredByte s t (effectiveAddr o s) v ∧
      t = { s with mem := t.mem, PC := (resolve o s).2.PC,
                   trace := (resolve o s).2.trace ++ [.write (effectiveAddr o s) v] }
    stores (.sta o) s.A ∧ stores (.stx o) s.X ∧ stores (.sty o) s.Y

/-- R200 to R204: the new byte, the carry shifted out, and `N` and `Z`; in accumulator mode no bus access, in the memory
modes one read and one write of the same address. -/
def Obligations.ShiftInstructions : Prop :=
  (DecodesFrom (.asl .acc) [0x0A] ∧ DecodesFrom (.lsr .acc) [0x4A] ∧ DecodesFrom (.rol .acc) [0x2A] ∧
    DecodesFrom (.ror .acc) [0x6A]) ∧
  EncodedBy (fun o => .asl (.mem o)) [(.zp, 0x06), (.zpx, 0x16), (.abs, 0x0E), (.abx, 0x1E)] ∧
  EncodedBy (fun o => .lsr (.mem o)) [(.zp, 0x46), (.zpx, 0x56), (.abs, 0x4E), (.abx, 0x5E)] ∧
  EncodedBy (fun o => .rol (.mem o)) [(.zp, 0x26), (.zpx, 0x36), (.abs, 0x2E), (.abx, 0x3E)] ∧
  EncodedBy (fun o => .ror (.mem o)) [(.zp, 0x66), (.zpx, 0x76), (.abs, 0x6E), (.abx, 0x7E)] ∧
  ∀ (o : Operand) (s : State), Inv s →
    let m := operandValue o s
    let ea := effectiveAddr o s
    let shifts (f : ShiftTarget → Instr) (new : Nat → Nat) (out : Nat → Prop) :=
      (∃ t, exec (f .acc) s = .next t ∧ t.A.toNat = new s.A.toNat ∧ (t.C = true ↔ out s.A.toNat) ∧ FlagsOf t t.A ∧
        t = { s with A := t.A, C := t.C, N := t.N, Z := t.Z }) ∧
      (∃ t r, exec (f (.mem o)) s = .next t ∧ r.toNat = new m.toNat ∧ (t.C = true ↔ out m.toNat) ∧ FlagsOf t r ∧
        StoredByte s t ea r ∧
        t = { s with C := t.C, N := t.N, Z := t.Z, PC := (resolve o s).2.PC, mem := t.mem,
                     trace := (resolve o s).2.trace ++ [.read ea m, .write ea r] })
    shifts .asl (fun v => 2 * v % 256) (fun v => 128 ≤ v) ∧
    shifts .lsr (fun v => v / 2) (fun v => v % 2 = 1) ∧
    shifts .rol (fun v => 2 * v % 256 + bitNat s.C) (fun v => 128 ≤ v) ∧
    shifts .ror (fun v => v / 2 + 128 * bitNat s.C) (fun v => v % 2 = 1)

/-! ### Logic and arithmetic -/

/-- R210 to R212: bit by bit, `A` becomes the or, and, exclusive or of `A` and the operand byte; `N` and `Z` follow. -/
def Obligations.LogicInstructions : Prop :=
  EncodedBy .ora [(.imm, 0x09), (.zp, 0x05), (.zpx, 0x15), (.abs, 0x0D), (.abx, 0x1D), (.aby, 0x19), (.izx, 0x01),
    (.izy, 0x11)] ∧
  EncodedBy .and [(.imm, 0x29), (.zp, 0x25), (.zpx, 0x35), (.abs, 0x2D), (.abx, 0x3D), (.aby, 0x39), (.izx, 0x21),
    (.izy, 0x31)] ∧
  EncodedBy .eor [(.imm, 0x49), (.zp, 0x45), (.zpx, 0x55), (.abs, 0x4D), (.abx, 0x5D), (.aby, 0x59), (.izx, 0x41),
    (.izy, 0x51)] ∧
  ∀ (o : Operand) (s : State),
    let m := operandValue o s
    let computes (i : Instr) (f : Bool → Bool → Bool) := ∃ t, exec i s = .next t ∧
      (∀ k, k < 8 → t.A.getLsbD k = f (s.A.getLsbD k) (m.getLsbD k)) ∧ FlagsOf t t.A ∧
      t = { s with A := t.A, N := t.N, Z := t.Z, PC := (resolve o s).2.PC,
                   trace := (resolve o s).2.trace ++ [.read (effectiveAddr o s) m] }
    computes (.ora o) or ∧ computes (.and o) and ∧ computes (.eor o) xor

/-- ADC and SBC are encoded in the eight slots of the ALU group, change only `A`, `C`, `V`, `N`, `Z` and `PC`, and make
one read after the resolver's, in both modes. -/
def Obligations.AddAndSubtractFrame : Prop :=
  EncodedBy .adc [(.imm, 0x69), (.zp, 0x65), (.zpx, 0x75), (.abs, 0x6D), (.abx, 0x7D), (.aby, 0x79), (.izx, 0x61),
    (.izy, 0x71)] ∧
  EncodedBy .sbc [(.imm, 0xE9), (.zp, 0xE5), (.zpx, 0xF5), (.abs, 0xED), (.abx, 0xFD), (.aby, 0xF9), (.izx, 0xE1),
    (.izy, 0xF1)] ∧
  ∀ (o : Operand) (s : State),
    let frame (t : State) := t = { s with A := t.A, C := t.C, V := t.V, N := t.N, Z := t.Z, PC := (resolve o s).2.PC,
                                          trace := (resolve o s).2.trace ++ [.read (effectiveAddr o s) (operandValue o s)] }
    (∃ t, exec (.adc o) s = .next t ∧ frame t) ∧ (∃ t, exec (.sbc o) s = .next t ∧ frame t)

/-- ADC with `D` clear: the sum modulo 256, the unsigned carry, the signed overflow, and `N` and `Z` of the new `A`. -/
def Obligations.AdcBinaryResult : Prop :=
  ∀ (o : Operand) (s : State), s.D = false →
    let m := operandValue o s
    let sum := s.A.toNat + m.toNat + bitNat s.C
    ∃ t, exec (.adc o) s = .next t ∧ t.A.toNat = sum % 256 ∧ (t.C = true ↔ 255 < sum) ∧ FlagsOf t t.A ∧
      (t.V = true ↔ s.A.toInt + m.toInt + bitNat s.C < -128 ∨ 127 < s.A.toInt + m.toInt + bitNat s.C)

/-- ADC with `D` set: `N`, `Z` and `V` are those of the binary sum, `A` and `C` are the decimal sum digit by digit, for
operands that are no BCD as well. -/
def Obligations.AdcDecimalResult : Prop :=
  ∀ (o : Operand) (s : State), s.D = true →
    let m := operandValue o s
    let lo := s.A.toNat % 16 + m.toNat % 16 + bitNat s.C
    let hi := s.A.toNat / 16 + m.toNat / 16 + (if 9 < lo then 1 else 0)
    let lo' := if 9 < lo then lo - 10 else lo
    let hi' := if 9 < hi then hi - 10 else hi
    ∃ t, exec (.adc o) s = .next t ∧ t.A.toNat = 16 * (hi' % 16) + lo' % 16 ∧ (t.C = true ↔ 9 < hi) ∧
      FlagsOf t (BitVec.ofNat 8 (s.A.toNat + m.toNat + bitNat s.C)) ∧
      (t.V = true ↔ s.A.toInt + m.toInt + bitNat s.C < -128 ∨ 127 < s.A.toInt + m.toInt + bitNat s.C)

/-- SBC with `D` clear: the difference modulo 256, carry as not-borrow, the signed overflow, and `N` and `Z` of the new
`A`. -/
def Obligations.SbcBinaryResult : Prop :=
  ∀ (o : Operand) (s : State), s.D = false →
    let m := operandValue o s
    let difference : Int := s.A.toNat - m.toNat - (1 - bitNat s.C)
    ∃ t, exec (.sbc o) s = .next t ∧ (t.A.toNat : Int) = difference % 256 ∧ (t.C = true ↔ 0 ≤ difference) ∧
      FlagsOf t t.A ∧
      (t.V = true ↔ s.A.toInt - m.toInt - (1 - bitNat s.C) < -128 ∨ 127 < s.A.toInt - m.toInt - (1 - bitNat s.C))

/-- SBC with `D` set: `N`, `Z` and `V` are those of the binary difference, `A` is the decimal difference digit by digit,
and `C` is the binary not-borrow, for operands that are no BCD as well. -/
def Obligations.SbcDecimalResult : Prop :=
  ∀ (o : Operand) (s : State), s.D = true →
    let m := operandValue o s
    let difference : Int := s.A.toNat - m.toNat - (1 - bitNat s.C)
    let lo : Int := (s.A.toNat % 16 : Nat) - (m.toNat % 16 : Nat) - (1 - bitNat s.C)
    let hi : Int := (s.A.toNat / 16 : Nat) - (m.toNat / 16 : Nat) - (if lo < 0 then 1 else 0)
    let lo' := if lo < 0 then lo + 10 else lo
    let hi' := if hi < 0 then hi + 10 else hi
    ∃ t, exec (.sbc o) s = .next t ∧ (t.A.toNat : Int) = 16 * (hi' % 16) + lo' % 16 ∧ (t.C = true ↔ 0 ≤ hi) ∧
      (t.C = true ↔ 0 ≤ difference) ∧ FlagsOf t (BitVec.ofInt 8 difference) ∧
      (t.V = true ↔ s.A.toInt - m.toInt - (1 - bitNat s.C) < -128 ∨ 127 < s.A.toInt - m.toInt - (1 - bitNat s.C))

/-- On valid BCD, decimal ADC and SBC are decimal arithmetic: the result is BCD, its value is the sum or difference
modulo 100, and `C` is the decimal carry or not-borrow. -/
def Obligations.DecimalArithmeticOnBcd : Prop :=
  ∀ (o : Operand) (s : State), s.D = true → IsBcd s.A → IsBcd (operandValue o s) →
    let m := operandValue o s
    let sum := decValue s.A + decValue m + bitNat s.C
    let difference : Int := decValue s.A - decValue m - (1 - bitNat s.C)
    (∃ t, exec (.adc o) s = .next t ∧ IsBcd t.A ∧ decValue t.A = sum % 100 ∧ (t.C = true ↔ 100 ≤ sum)) ∧
    (∃ t, exec (.sbc o) s = .next t ∧ IsBcd t.A ∧ (decValue t.A : Int) = difference % 100 ∧ (t.C = true ↔ 0 ≤ difference))

/-- R221, which the spec derives: on valid BCD, subtracting the added operand with the complement of the carry that was
added restores the accumulator, and the carry that comes back is the complement of the sum's. -/
def Obligations.BcdRoundTrip : Prop :=
  ∀ (a m : Byte) (c : Bool), IsBcd a → IsBcd m →
    decimalSub (decimalAdd a m c).1 m (!c) = (a, !(decimalAdd a m c).2)

/-! ### No-operations -/

/-- R230: NOP changes nothing after the opcode fetch. R231: `*NOP` advances `PC` past the operand bytes and changes nothing
else, whatever its opcode byte and operand (of terms that no bytes encode it is the model's choice, note 11). -/
def Obligations.NoOperations : Prop :=
  DecodesFrom .nop [0xEA] ∧
  ∀ s : State, exec .nop s = .next s ∧
    ∀ (op : Byte) (o : NopOperand), ∃ t, exec (.starNop op o) s = .next t ∧
      t = { s with PC := s.PC + BitVec.ofNat 16 o.bytes.length, trace := t.trace }

/-- R232, which the spec derives, with its decision D3: a step of an undocumented opcode advances `PC` by the length of
the mode that `ILLEGAL_MODE` gives it, changes nothing else, and makes the reads of the table of R232. The modes that the
default table does not use make the reads R59 gives them. -/
def Obligations.UndocumentedOpcodeStep : Prop :=
  ∀ (s : State) (m : Mode), illegalMode s.params.illegal (s.peek s.PC) = some m →
    let reads (as : List Addr) : List BusAccess := List.zipWith .read as (s.answersAt as)
    let operand (k : Nat) : Byte := (s.answersAt [s.PC, s.PC + 1, s.PC + 2]).getD k 0
    let pointer (z : Byte) : List Addr := [BitVec.ofNat 16 z.toNat, pointerHighAddr Config.zpPtrWrap z]
    let p : Addr := BitVec.ofNat 16 (256 * (operand 2).toNat + (operand 1).toNat)
    step s = .next { s with
      PC := s.PC + BitVec.ofNat 16 (1 + m.operandCount)
      past := s.history
      trace := match m with
        | .imp | .acc | .imm => reads [s.PC]
        | .zp | .zpx | .zpy | .rel => reads [s.PC, s.PC + 1]
        | .abs | .abx | .aby => reads [s.PC, s.PC + 1, s.PC + 2]
        | .izx => reads ([s.PC, s.PC + 1] ++ pointer (operand 1 + s.X))
        | .izy => reads ([s.PC, s.PC + 1] ++ pointer (operand 1))
        | .ind => reads [s.PC, s.PC + 1, s.PC + 2, p, p + 1] }
end

