-- ==== Sys2Proof/Laws/Decode.lean ====
section
/-! SUPPORT. The dispatcher over all 256 opcode bytes: which cells are undocumented, how many operand bytes follow, and
what a decode of enough bytes gives. -/

namespace Sys2Proof

/-- A cell of R77 is `*` exactly when R82 lists the opcode. -/
theorem opcodeCell_isNone_default : ∀ op : Byte, (opcodeCell op).isNone = (defaultIllegalMode op).isSome := by decide

/-- Which opcodes are undocumented does not depend on `ILLEGAL_MODE` (R80). -/
@[simp] theorem illegalMode_isSome (p : IllegalModes) (op : Byte) :
    (illegalMode p op).isSome = (defaultIllegalMode op).isSome := by
  simp [illegalMode]

/-- `ILLEGAL_MODE` at its default is the table of R82. -/
@[simp] theorem illegalMode_default (op : Byte) : illegalMode .default op = defaultIllegalMode op := by
  simp [illegalMode, IllegalModes.default]

theorem opcodeCell_isNone (p : IllegalModes) (op : Byte) : (opcodeCell op).isNone = (illegalMode p op).isSome := by
  rw [illegalMode_isSome, opcodeCell_isNone_default]

/-- What is consumed has the mode it is made for. -/
@[simp] theorem NopOperand.ofMode_mode (m : Mode) (lo hi : Byte) : (NopOperand.ofMode m lo hi).mode = m := by
  cases m <;> rfl

/-- What is consumed has the bytes its mode counts (R73). -/
theorem NopOperand.ofMode_bytes (m : Mode) (lo hi : Byte) :
    (NopOperand.ofMode m lo hi).bytes = [lo, hi].take m.operandCount := by
  cases m <;> rfl

/-- An undocumented opcode decodes to `*NOP` with what its mode consumes (R231). -/
theorem decodeOpcode_undocumented (p : IllegalModes) (op lo hi : Byte) (m : Mode) (h : illegalMode p op = some m) :
    decodeOpcode p op lo hi = .starNop op (NopOperand.ofMode m lo hi) := by
  have hc := opcodeCell_isNone p op
  simp only [h, Option.isSome_some, Option.isNone_iff_eq_none] at hc
  simp [decodeOpcode, hc, starNopAt, h]

/-- What holds of every opcode byte holds if it holds of each of the 256 numbers. -/
theorem forall_opcode {P : Byte → Prop} (h : ∀ n : Fin 256, P (BitVec.ofFin n)) (op : Byte) : P op := h op.toFin

/-- An instruction is at most three bytes (R70). -/
theorem operandCount_le (p : IllegalModes) (op : Byte) : operandCount p op ≤ 2 := by
  unfold operandCount
  generalize decodeOpcode p op 0 0 = i
  cases h : i.mode <;> decide

theorem starNopAt_mode (p : IllegalModes) (op lo hi : Byte) :
    (starNopAt p op lo hi).mode = (illegalMode p op).getD .imp :=
  NopOperand.ofMode_mode _ lo hi

/-- The mode is a function of the opcode byte alone (R70). -/
theorem decodeOpcode_mode (p : IllegalModes) (op lo hi : Byte) :
    (decodeOpcode p op lo hi).mode = (decodeOpcode p op 0 0).mode := by
  induction op using forall_opcode with | _ n
  fin_cases n <;> first
    | rfl
    | exact (starNopAt_mode p _ lo hi).trans (starNopAt_mode p _ 0 0).symm

theorem starNopAt_operandBytes (p : IllegalModes) (op lo hi : Byte) :
    (starNopAt p op lo hi).operandBytes = [lo, hi].take (starNopAt p op 0 0).mode.operandCount := by
  rw [starNopAt_mode]
  exact NopOperand.ofMode_bytes _ lo hi

/-- The mode counts the operand bytes (R73). -/
theorem decodeOpcode_operandBytes (p : IllegalModes) (op lo hi : Byte) :
    (decodeOpcode p op lo hi).operandBytes = [lo, hi].take (operandCount p op) := by
  induction op using forall_opcode with | _ n
  fin_cases n <;> first
    | rfl
    | exact starNopAt_operandBytes p _ lo hi

theorem starNopAt_unused (p : IllegalModes) (op lo hi : Byte) :
    ((starNopAt p op 0 0).mode.operandCount = 0 → starNopAt p op lo hi = starNopAt p op 0 0) ∧
    ((starNopAt p op 0 0).mode.operandCount = 1 → starNopAt p op lo hi = starNopAt p op lo 0) := by
  rw [starNopAt_mode]
  unfold starNopAt
  cases (illegalMode p op).getD .imp <;> refine ⟨fun h => ?_, fun h => ?_⟩ <;> first | rfl | cases h

theorem decodeOpcode_unused_default (op lo hi : Byte) :
    (operandCount .default op = 0 → decodeOpcode .default op lo hi = decodeOpcode .default op 0 0) ∧
    (operandCount .default op = 1 → decodeOpcode .default op lo hi = decodeOpcode .default op lo 0) := by
  induction op using forall_opcode with | _ n
  fin_cases n <;> first
    | exact ⟨fun _ => rfl, fun _ => rfl⟩
    | exact ⟨fun h => absurd h (by decide), fun _ => rfl⟩
    | exact ⟨fun h => absurd h (by decide), fun h => absurd h (by decide)⟩

/-- An instruction with fewer than two operand bytes does not depend on the bytes it does not have. -/
theorem decodeOpcode_unused (p : IllegalModes) (op lo hi : Byte) :
    (operandCount p op = 0 → decodeOpcode p op lo hi = decodeOpcode p op 0 0) ∧
    (operandCount p op = 1 → decodeOpcode p op lo hi = decodeOpcode p op lo 0) := by
  have h := decodeOpcode_unused_default op lo hi
  cases hc : opcodeCell op with
  | none =>
    simp only [operandCount, decodeOpcode, hc]
    exact starNopAt_unused p op lo hi
  | some f =>
    simp only [operandCount, decodeOpcode, hc] at h ⊢
    exact h

end Sys2Proof
end

