-- ==== Sys2Proof/Laws/Memory.lean ====
section
/-! SUPPORT. The laws of the plain memory behind the bus: a read after a write, the canonical form, and that canonical
memories with the same bytes are the same list. -/

namespace Sys2Proof.Machine

/-- A write leaves every other address alone, in any list. -/
theorem Memory.read_write_other (m : Memory) (a b : Nat) (v : Byte) (h : b ≠ a) :
    Memory.read (Memory.write m a v) b = Memory.read m b := by
  induction m with
  | nil => by_cases hv : v = unlistedByte <;> simp [Memory.write, Memory.read, hv, h]
  | cons e m ih =>
    obtain ⟨k, w⟩ := e
    by_cases hlt : a < k
    · by_cases hv : v = unlistedByte <;> simp [Memory.write, Memory.read, hlt, hv, h]
    · by_cases heq : a = k
      · subst heq
        by_cases hv : v = unlistedByte <;> simp [Memory.write, Memory.read, hv, h]
      · simp [Memory.write, Memory.read, hlt, heq, ih]

/-- Below its first address a canonical memory is unlisted. -/
theorem Memory.read_below (m : Memory) (low a : Nat) (h : Memory.wfFrom low m = true) (ha : a < low) :
    Memory.read m a = unlistedByte := by
  induction m generalizing low with
  | nil => rfl
  | cons e m ih =>
    obtain ⟨k, w⟩ := e
    simp only [Memory.wfFrom, Bool.and_eq_true, decide_eq_true_eq] at h
    have hne : a ≠ k := by omega
    simpa [Memory.read, hne] using ih (k + 1) h.2 (by omega)

/-- A lower start keeps the form. -/
theorem Memory.wfFrom_mono (m : Memory) (low low' : Nat) (h : Memory.wfFrom low m = true) (hle : low' ≤ low) :
    Memory.wfFrom low' m = true := by
  cases m with
  | nil => rfl
  | cons e m =>
    simp only [Memory.wfFrom, Bool.and_eq_true, decide_eq_true_eq] at h ⊢
    exact ⟨⟨⟨by omega, h.1.1.2⟩, h.1.2⟩, h.2⟩

theorem Memory.read_write_same_from (m : Memory) (low a : Nat) (v : Byte) (h : Memory.wfFrom low m = true) :
    Memory.read (Memory.write m a v) a = v := by
  induction m generalizing low with
  | nil => by_cases hv : v = unlistedByte <;> simp [Memory.write, Memory.read, hv]
  | cons e m ih =>
    obtain ⟨k, w⟩ := e
    have hk := h
    simp only [Memory.wfFrom, Bool.and_eq_true, decide_eq_true_eq] at hk
    by_cases hlt : a < k
    · by_cases hv : v = unlistedByte
      · have hne : a ≠ k := by omega
        simpa [Memory.write, Memory.read, hlt, hv, hne] using Memory.read_below m (k + 1) a hk.2 (by omega)
      · simp [Memory.write, Memory.read, hlt, hv]
    · by_cases heq : a = k
      · subst heq
        by_cases hv : v = unlistedByte
        · simpa [Memory.write, hv] using Memory.read_below m (a + 1) a hk.2 (by omega)
        · simp [Memory.write, Memory.read, hv]
      · simpa [Memory.write, Memory.read, hlt, heq] using ih (k + 1) hk.2

/-- A read after a write to the same address gives the value written. -/
theorem Memory.read_write_same (m : Memory) (a : Nat) (v : Byte) (h : Memory.wf m = true) :
    Memory.read (Memory.write m a v) a = v :=
  Memory.read_write_same_from m 0 a v h

/-- A read after a write. -/
theorem Memory.read_write (m : Memory) (a b : Nat) (v : Byte) (h : Memory.wf m = true) :
    Memory.read (Memory.write m a v) b = if b = a then v else Memory.read m b := by
  by_cases hb : b = a
  · subst hb; simp [Memory.read_write_same m b v h]
  · simp [hb, Memory.read_write_other m a b v hb]

theorem Memory.wfFrom_write (m : Memory) (low a : Nat) (v : Byte) (h : Memory.wfFrom low m = true) (hlow : low ≤ a)
    (ha : a < addressCount) : Memory.wfFrom low (Memory.write m a v) = true := by
  induction m generalizing low with
  | nil => by_cases hv : v = unlistedByte <;> simp [Memory.write, Memory.wfFrom, hv, hlow, ha]
  | cons e m ih =>
    obtain ⟨k, w⟩ := e
    have hk := h
    simp only [Memory.wfFrom, Bool.and_eq_true, decide_eq_true_eq] at hk
    by_cases hlt : a < k
    · by_cases hv : v = unlistedByte
      · simpa [Memory.write, hlt, hv] using h
      · simp only [Memory.write, hlt, hv, if_true, if_false, Memory.wfFrom, Bool.and_eq_true, decide_eq_true_eq]
        exact ⟨⟨⟨hlow, ha⟩, by simp [hv]⟩, ⟨⟨by omega, hk.1.1.2⟩, hk.1.2⟩, hk.2⟩
    · by_cases heq : a = k
      · subst heq
        by_cases hv : v = unlistedByte
        · simpa [Memory.write, hv] using Memory.wfFrom_mono m (a + 1) low hk.2 (by omega)
        · simp only [Memory.write, hv, if_true, if_false, Memory.wfFrom, Bool.and_eq_true, decide_eq_true_eq, lt_irrefl]
          exact ⟨⟨⟨hlow, ha⟩, by simp [hv]⟩, hk.2⟩
      · simp only [Memory.write, hlt, heq, if_false, Memory.wfFrom, Bool.and_eq_true, decide_eq_true_eq]
        exact ⟨⟨⟨hk.1.1.1, hk.1.1.2⟩, hk.1.2⟩, ih (k + 1) hk.2 (by omega)⟩

/-- A write at a bus address keeps the canonical form. -/
theorem Memory.wf_write (m : Memory) (a : Addr) (v : Byte) (h : Memory.wf m = true) :
    Memory.wf (Memory.write m a.toNat v) = true :=
  Memory.wfFrom_write m 0 a.toNat v h (Nat.zero_le _) a.isLt

/-- A read of plain memory after a byte is written on the bus. -/
theorem Memory.read_store (devices : List Addr) (m : Memory) (a b : Addr) (v : Byte) (h : Memory.wf m = true) :
    Memory.read (Memory.store devices m a v) b.toNat = if b = a ∧ a ∉ devices then v else Memory.read m b.toNat := by
  by_cases ha : a ∈ devices
  · simp [Memory.store, ha]
  · simp [Memory.store, ha, Memory.read_write _ _ _ _ h, ← BitVec.toNat_eq]

theorem Memory.read_store_other (devices : List Addr) (m : Memory) (a b : Addr) (v : Byte) (h : b ≠ a) :
    Memory.read (Memory.store devices m a v) b.toNat = Memory.read m b.toNat := by
  by_cases ha : a ∈ devices
  · simp [Memory.store, ha]
  · simp only [Memory.store, ha, if_false]
    exact Memory.read_write_other _ _ _ _ fun he => h (BitVec.eq_of_toNat_eq he)

/-- A byte written on the bus keeps the canonical form. -/
theorem Memory.wf_store (devices : List Addr) (m : Memory) (a : Addr) (v : Byte) (h : Memory.wf m = true) :
    Memory.wf (Memory.store devices m a v) = true := by
  by_cases ha : a ∈ devices
  · simpa [Memory.store, ha] using h
  · simpa [Memory.store, ha] using Memory.wf_write m a v h

/-- Behind plain memory alone a byte written on the bus is a write. -/
@[simp] theorem Memory.store_no_devices (m : Memory) (a : Addr) (v : Byte) :
    Memory.store [] m a v = Memory.write m a.toNat v := by
  simp [Memory.store]

theorem Memory.ext_from (m n : Memory) (low : Nat) (hm : Memory.wfFrom low m = true) (hn : Memory.wfFrom low n = true)
    (h : ∀ a, Memory.read m a = Memory.read n a) : m = n := by
  induction m generalizing n low with
  | nil =>
    cases n with
    | nil => rfl
    | cons e n =>
      obtain ⟨k, w⟩ := e
      simp only [Memory.wfFrom, Bool.and_eq_true, Bool.not_eq_true', beq_eq_false_iff_ne] at hn
      exact absurd (by simpa [Memory.read] using (h k).symm) hn.1.2
  | cons e m ih =>
    obtain ⟨k, w⟩ := e
    simp only [Memory.wfFrom, Bool.and_eq_true, decide_eq_true_eq, Bool.not_eq_true', beq_eq_false_iff_ne] at hm
    cases n with
    | nil => exact absurd (by simpa [Memory.read] using h k) hm.1.2
    | cons e' n =>
      obtain ⟨k', w'⟩ := e'
      simp only [Memory.wfFrom, Bool.and_eq_true, decide_eq_true_eq, Bool.not_eq_true', beq_eq_false_iff_ne] at hn
      have hk : k = k' := by
        rcases Nat.lt_trichotomy k k' with hlt | heq | hlt
        · refine absurd ?_ hm.1.2
          have := h k
          simp only [Memory.read, if_true, Nat.ne_of_lt hlt, if_false] at this
          rw [this, Memory.read_below n (k' + 1) k hn.2 (by omega)]
        · exact heq
        · refine absurd ?_ hn.1.2
          have := h k'
          simp only [Memory.read, if_true, Nat.ne_of_lt hlt, if_false] at this
          rw [← this, Memory.read_below m (k + 1) k' hm.2 (by omega)]
      subst hk
      have hw : w = w' := by simpa [Memory.read] using h k
      subst hw
      rw [ih n (k + 1) hm.2 hn.2 fun a => ?_]
      by_cases ha : a = k
      · subst ha
        rw [Memory.read_below m (a + 1) a hm.2 (by omega), Memory.read_below n (a + 1) a hn.2 (by omega)]
      · simpa [Memory.read, ha] using h a

/-- Two canonical memories that read the same everywhere are the same list. -/
theorem Memory.ext (m n : Memory) (hm : Memory.wf m = true) (hn : Memory.wf n = true)
    (h : ∀ a, Memory.read m a = Memory.read n a) : m = n :=
  Memory.ext_from m n 0 hm hn h

end Sys2Proof.Machine
end

