-- ==== Sys2Proof/Laws/State.lean ====
section
/-! SUPPORT. One lemma per field per state update: what each named update leaves in each field of the state. -/

namespace Sys2Proof.Machine

/-! ### `setNZ` (R20) -/

@[simp] theorem State.setNZ_A (s : State) (v : Byte) : (s.setNZ v).A = s.A := rfl
@[simp] theorem State.setNZ_X (s : State) (v : Byte) : (s.setNZ v).X = s.X := rfl
@[simp] theorem State.setNZ_Y (s : State) (v : Byte) : (s.setNZ v).Y = s.Y := rfl
@[simp] theorem State.setNZ_SP (s : State) (v : Byte) : (s.setNZ v).SP = s.SP := rfl
@[simp] theorem State.setNZ_PC (s : State) (v : Byte) : (s.setNZ v).PC = s.PC := rfl
@[simp] theorem State.setNZ_C (s : State) (v : Byte) : (s.setNZ v).C = s.C := rfl
@[simp] theorem State.setNZ_Z (s : State) (v : Byte) : (s.setNZ v).Z = isZero v := rfl
@[simp] theorem State.setNZ_I (s : State) (v : Byte) : (s.setNZ v).I = s.I := rfl
@[simp] theorem State.setNZ_D (s : State) (v : Byte) : (s.setNZ v).D = s.D := rfl
@[simp] theorem State.setNZ_V (s : State) (v : Byte) : (s.setNZ v).V = s.V := rfl
@[simp] theorem State.setNZ_N (s : State) (v : Byte) : (s.setNZ v).N = negative v := rfl
@[simp] theorem State.setNZ_mem (s : State) (v : Byte) : (s.setNZ v).mem = s.mem := rfl
@[simp] theorem State.setNZ_params (s : State) (v : Byte) : (s.setNZ v).params = s.params := rfl
@[simp] theorem State.setNZ_past (s : State) (v : Byte) : (s.setNZ v).past = s.past := rfl
@[simp] theorem State.setNZ_trace (s : State) (v : Byte) : (s.setNZ v).trace = s.trace := rfl

/-! ### `unpackP` (R24) -/

@[simp] theorem State.unpackP_A (s : State) (v : Byte) : (s.unpackP v).A = s.A := rfl
@[simp] theorem State.unpackP_X (s : State) (v : Byte) : (s.unpackP v).X = s.X := rfl
@[simp] theorem State.unpackP_Y (s : State) (v : Byte) : (s.unpackP v).Y = s.Y := rfl
@[simp] theorem State.unpackP_SP (s : State) (v : Byte) : (s.unpackP v).SP = s.SP := rfl
@[simp] theorem State.unpackP_PC (s : State) (v : Byte) : (s.unpackP v).PC = s.PC := rfl
@[simp] theorem State.unpackP_C (s : State) (v : Byte) : (s.unpackP v).C = v.getLsbD 0 := rfl
@[simp] theorem State.unpackP_Z (s : State) (v : Byte) : (s.unpackP v).Z = v.getLsbD 1 := rfl
@[simp] theorem State.unpackP_I (s : State) (v : Byte) : (s.unpackP v).I = v.getLsbD 2 := rfl
@[simp] theorem State.unpackP_D (s : State) (v : Byte) : (s.unpackP v).D = v.getLsbD 3 := rfl
@[simp] theorem State.unpackP_V (s : State) (v : Byte) : (s.unpackP v).V = v.getLsbD 6 := rfl
@[simp] theorem State.unpackP_N (s : State) (v : Byte) : (s.unpackP v).N = v.getLsbD 7 := rfl
@[simp] theorem State.unpackP_mem (s : State) (v : Byte) : (s.unpackP v).mem = s.mem := rfl
@[simp] theorem State.unpackP_params (s : State) (v : Byte) : (s.unpackP v).params = s.params := rfl
@[simp] theorem State.unpackP_past (s : State) (v : Byte) : (s.unpackP v).past = s.past := rfl
@[simp] theorem State.unpackP_trace (s : State) (v : Byte) : (s.unpackP v).trace = s.trace := rfl

/-! ### `compare` (R176) -/

@[simp] theorem State.compare_A (s : State) (r m : Byte) : (s.compare r m).A = s.A := rfl
@[simp] theorem State.compare_X (s : State) (r m : Byte) : (s.compare r m).X = s.X := rfl
@[simp] theorem State.compare_Y (s : State) (r m : Byte) : (s.compare r m).Y = s.Y := rfl
@[simp] theorem State.compare_SP (s : State) (r m : Byte) : (s.compare r m).SP = s.SP := rfl
@[simp] theorem State.compare_PC (s : State) (r m : Byte) : (s.compare r m).PC = s.PC := rfl
@[simp] theorem State.compare_C (s : State) (r m : Byte) : (s.compare r m).C = decide (m.toNat ≤ r.toNat) := rfl
@[simp] theorem State.compare_Z (s : State) (r m : Byte) : (s.compare r m).Z = isZero (r - m) := rfl
@[simp] theorem State.compare_I (s : State) (r m : Byte) : (s.compare r m).I = s.I := rfl
@[simp] theorem State.compare_D (s : State) (r m : Byte) : (s.compare r m).D = s.D := rfl
@[simp] theorem State.compare_V (s : State) (r m : Byte) : (s.compare r m).V = s.V := rfl
@[simp] theorem State.compare_N (s : State) (r m : Byte) : (s.compare r m).N = negative (r - m) := rfl
@[simp] theorem State.compare_mem (s : State) (r m : Byte) : (s.compare r m).mem = s.mem := rfl
@[simp] theorem State.compare_params (s : State) (r m : Byte) : (s.compare r m).params = s.params := rfl
@[simp] theorem State.compare_past (s : State) (r m : Byte) : (s.compare r m).past = s.past := rfl
@[simp] theorem State.compare_trace (s : State) (r m : Byte) : (s.compare r m).trace = s.trace := rfl

/-! ### `writeDecimal` (R214) -/

@[simp] theorem State.writeDecimal_A (s : State) (r : Byte × Bool) : (s.writeDecimal r).A = r.1 := rfl
@[simp] theorem State.writeDecimal_X (s : State) (r : Byte × Bool) : (s.writeDecimal r).X = s.X := rfl
@[simp] theorem State.writeDecimal_Y (s : State) (r : Byte × Bool) : (s.writeDecimal r).Y = s.Y := rfl
@[simp] theorem State.writeDecimal_SP (s : State) (r : Byte × Bool) : (s.writeDecimal r).SP = s.SP := rfl
@[simp] theorem State.writeDecimal_PC (s : State) (r : Byte × Bool) : (s.writeDecimal r).PC = s.PC := rfl
@[simp] theorem State.writeDecimal_C (s : State) (r : Byte × Bool) : (s.writeDecimal r).C = r.2 := rfl
@[simp] theorem State.writeDecimal_Z (s : State) (r : Byte × Bool) : (s.writeDecimal r).Z = s.Z := rfl
@[simp] theorem State.writeDecimal_I (s : State) (r : Byte × Bool) : (s.writeDecimal r).I = s.I := rfl
@[simp] theorem State.writeDecimal_D (s : State) (r : Byte × Bool) : (s.writeDecimal r).D = s.D := rfl
@[simp] theorem State.writeDecimal_V (s : State) (r : Byte × Bool) : (s.writeDecimal r).V = s.V := rfl
@[simp] theorem State.writeDecimal_N (s : State) (r : Byte × Bool) : (s.writeDecimal r).N = s.N := rfl
@[simp] theorem State.writeDecimal_mem (s : State) (r : Byte × Bool) : (s.writeDecimal r).mem = s.mem := rfl
@[simp] theorem State.writeDecimal_params (s : State) (r : Byte × Bool) : (s.writeDecimal r).params = s.params := rfl
@[simp] theorem State.writeDecimal_past (s : State) (r : Byte × Bool) : (s.writeDecimal r).past = s.past := rfl
@[simp] theorem State.writeDecimal_trace (s : State) (r : Byte × Bool) : (s.writeDecimal r).trace = s.trace := rfl

/-! ### `noteRead` (R40) -/

@[simp] theorem State.noteRead_A (s : State) (a : Addr) (v : Byte) : (s.noteRead a v).A = s.A := rfl
@[simp] theorem State.noteRead_X (s : State) (a : Addr) (v : Byte) : (s.noteRead a v).X = s.X := rfl
@[simp] theorem State.noteRead_Y (s : State) (a : Addr) (v : Byte) : (s.noteRead a v).Y = s.Y := rfl
@[simp] theorem State.noteRead_SP (s : State) (a : Addr) (v : Byte) : (s.noteRead a v).SP = s.SP := rfl
@[simp] theorem State.noteRead_PC (s : State) (a : Addr) (v : Byte) : (s.noteRead a v).PC = s.PC := rfl
@[simp] theorem State.noteRead_C (s : State) (a : Addr) (v : Byte) : (s.noteRead a v).C = s.C := rfl
@[simp] theorem State.noteRead_Z (s : State) (a : Addr) (v : Byte) : (s.noteRead a v).Z = s.Z := rfl
@[simp] theorem State.noteRead_I (s : State) (a : Addr) (v : Byte) : (s.noteRead a v).I = s.I := rfl
@[simp] theorem State.noteRead_D (s : State) (a : Addr) (v : Byte) : (s.noteRead a v).D = s.D := rfl
@[simp] theorem State.noteRead_V (s : State) (a : Addr) (v : Byte) : (s.noteRead a v).V = s.V := rfl
@[simp] theorem State.noteRead_N (s : State) (a : Addr) (v : Byte) : (s.noteRead a v).N = s.N := rfl
@[simp] theorem State.noteRead_mem (s : State) (a : Addr) (v : Byte) : (s.noteRead a v).mem = s.mem := rfl
@[simp] theorem State.noteRead_params (s : State) (a : Addr) (v : Byte) : (s.noteRead a v).params = s.params := rfl
@[simp] theorem State.noteRead_past (s : State) (a : Addr) (v : Byte) : (s.noteRead a v).past = s.past := rfl
@[simp] theorem State.noteRead_trace (s : State) (a : Addr) (v : Byte) : (s.noteRead a v).trace = s.trace ++ [.read a v] := rfl

/-! ### `memWrite` (R40) -/

@[simp] theorem State.memWrite_A (s : State) (a : Addr) (v : Byte) : (s.memWrite a v).A = s.A := rfl
@[simp] theorem State.memWrite_X (s : State) (a : Addr) (v : Byte) : (s.memWrite a v).X = s.X := rfl
@[simp] theorem State.memWrite_Y (s : State) (a : Addr) (v : Byte) : (s.memWrite a v).Y = s.Y := rfl
@[simp] theorem State.memWrite_SP (s : State) (a : Addr) (v : Byte) : (s.memWrite a v).SP = s.SP := rfl
@[simp] theorem State.memWrite_PC (s : State) (a : Addr) (v : Byte) : (s.memWrite a v).PC = s.PC := rfl
@[simp] theorem State.memWrite_C (s : State) (a : Addr) (v : Byte) : (s.memWrite a v).C = s.C := rfl
@[simp] theorem State.memWrite_Z (s : State) (a : Addr) (v : Byte) : (s.memWrite a v).Z = s.Z := rfl
@[simp] theorem State.memWrite_I (s : State) (a : Addr) (v : Byte) : (s.memWrite a v).I = s.I := rfl
@[simp] theorem State.memWrite_D (s : State) (a : Addr) (v : Byte) : (s.memWrite a v).D = s.D := rfl
@[simp] theorem State.memWrite_V (s : State) (a : Addr) (v : Byte) : (s.memWrite a v).V = s.V := rfl
@[simp] theorem State.memWrite_N (s : State) (a : Addr) (v : Byte) : (s.memWrite a v).N = s.N := rfl
@[simp] theorem State.memWrite_mem (s : State) (a : Addr) (v : Byte) : (s.memWrite a v).mem = Memory.store s.params.devices s.mem a v := rfl
@[simp] theorem State.memWrite_params (s : State) (a : Addr) (v : Byte) : (s.memWrite a v).params = s.params := rfl
@[simp] theorem State.memWrite_past (s : State) (a : Addr) (v : Byte) : (s.memWrite a v).past = s.past := rfl
@[simp] theorem State.memWrite_trace (s : State) (a : Addr) (v : Byte) : (s.memWrite a v).trace = s.trace ++ [.write a v] := rfl

/-! ### `beginTransaction` (R8) -/

@[simp] theorem State.beginTransaction_A (s : State) : (s.beginTransaction).A = s.A := rfl
@[simp] theorem State.beginTransaction_X (s : State) : (s.beginTransaction).X = s.X := rfl
@[simp] theorem State.beginTransaction_Y (s : State) : (s.beginTransaction).Y = s.Y := rfl
@[simp] theorem State.beginTransaction_SP (s : State) : (s.beginTransaction).SP = s.SP := rfl
@[simp] theorem State.beginTransaction_PC (s : State) : (s.beginTransaction).PC = s.PC := rfl
@[simp] theorem State.beginTransaction_C (s : State) : (s.beginTransaction).C = s.C := rfl
@[simp] theorem State.beginTransaction_Z (s : State) : (s.beginTransaction).Z = s.Z := rfl
@[simp] theorem State.beginTransaction_I (s : State) : (s.beginTransaction).I = s.I := rfl
@[simp] theorem State.beginTransaction_D (s : State) : (s.beginTransaction).D = s.D := rfl
@[simp] theorem State.beginTransaction_V (s : State) : (s.beginTransaction).V = s.V := rfl
@[simp] theorem State.beginTransaction_N (s : State) : (s.beginTransaction).N = s.N := rfl
@[simp] theorem State.beginTransaction_mem (s : State) : (s.beginTransaction).mem = s.mem := rfl
@[simp] theorem State.beginTransaction_params (s : State) : (s.beginTransaction).params = s.params := rfl
@[simp] theorem State.beginTransaction_past (s : State) : (s.beginTransaction).past = s.history := rfl
@[simp] theorem State.beginTransaction_trace (s : State) : (s.beginTransaction).trace = [] := rfl

/-! ### `advance` (R14) -/

@[simp] theorem State.advance_A (s : State) : (s.advance).A = s.A := rfl
@[simp] theorem State.advance_X (s : State) : (s.advance).X = s.X := rfl
@[simp] theorem State.advance_Y (s : State) : (s.advance).Y = s.Y := rfl
@[simp] theorem State.advance_SP (s : State) : (s.advance).SP = s.SP := rfl
@[simp] theorem State.advance_PC (s : State) : (s.advance).PC = s.PC + 1 := rfl
@[simp] theorem State.advance_C (s : State) : (s.advance).C = s.C := rfl
@[simp] theorem State.advance_Z (s : State) : (s.advance).Z = s.Z := rfl
@[simp] theorem State.advance_I (s : State) : (s.advance).I = s.I := rfl
@[simp] theorem State.advance_D (s : State) : (s.advance).D = s.D := rfl
@[simp] theorem State.advance_V (s : State) : (s.advance).V = s.V := rfl
@[simp] theorem State.advance_N (s : State) : (s.advance).N = s.N := rfl
@[simp] theorem State.advance_mem (s : State) : (s.advance).mem = s.mem := rfl
@[simp] theorem State.advance_params (s : State) : (s.advance).params = s.params := rfl
@[simp] theorem State.advance_past (s : State) : (s.advance).past = s.past := rfl
@[simp] theorem State.advance_trace (s : State) : (s.advance).trace = s.trace := rfl

/-! ### `takeOperand` (R100) -/

@[simp] theorem State.takeOperand_A (s : State) (b : Byte) : (s.takeOperand b).A = s.A := rfl
@[simp] theorem State.takeOperand_X (s : State) (b : Byte) : (s.takeOperand b).X = s.X := rfl
@[simp] theorem State.takeOperand_Y (s : State) (b : Byte) : (s.takeOperand b).Y = s.Y := rfl
@[simp] theorem State.takeOperand_SP (s : State) (b : Byte) : (s.takeOperand b).SP = s.SP := rfl
@[simp] theorem State.takeOperand_PC (s : State) (b : Byte) : (s.takeOperand b).PC = s.PC + 1 := rfl
@[simp] theorem State.takeOperand_C (s : State) (b : Byte) : (s.takeOperand b).C = s.C := rfl
@[simp] theorem State.takeOperand_Z (s : State) (b : Byte) : (s.takeOperand b).Z = s.Z := rfl
@[simp] theorem State.takeOperand_I (s : State) (b : Byte) : (s.takeOperand b).I = s.I := rfl
@[simp] theorem State.takeOperand_D (s : State) (b : Byte) : (s.takeOperand b).D = s.D := rfl
@[simp] theorem State.takeOperand_V (s : State) (b : Byte) : (s.takeOperand b).V = s.V := rfl
@[simp] theorem State.takeOperand_N (s : State) (b : Byte) : (s.takeOperand b).N = s.N := rfl
@[simp] theorem State.takeOperand_mem (s : State) (b : Byte) : (s.takeOperand b).mem = s.mem := rfl
@[simp] theorem State.takeOperand_params (s : State) (b : Byte) : (s.takeOperand b).params = s.params := rfl
@[simp] theorem State.takeOperand_past (s : State) (b : Byte) : (s.takeOperand b).past = s.past := rfl
@[simp] theorem State.takeOperand_trace (s : State) (b : Byte) : (s.takeOperand b).trace = s.trace ++ [.read s.PC b] := rfl

/-! ### `takeOperand16` (R100) -/

@[simp] theorem State.takeOperand16_A (s : State) (lo hi : Byte) : (s.takeOperand16 lo hi).A = s.A := rfl
@[simp] theorem State.takeOperand16_X (s : State) (lo hi : Byte) : (s.takeOperand16 lo hi).X = s.X := rfl
@[simp] theorem State.takeOperand16_Y (s : State) (lo hi : Byte) : (s.takeOperand16 lo hi).Y = s.Y := rfl
@[simp] theorem State.takeOperand16_SP (s : State) (lo hi : Byte) : (s.takeOperand16 lo hi).SP = s.SP := rfl
@[simp] theorem State.takeOperand16_PC (s : State) (lo hi : Byte) : (s.takeOperand16 lo hi).PC = s.PC + 1 + 1 := rfl
@[simp] theorem State.takeOperand16_C (s : State) (lo hi : Byte) : (s.takeOperand16 lo hi).C = s.C := rfl
@[simp] theorem State.takeOperand16_Z (s : State) (lo hi : Byte) : (s.takeOperand16 lo hi).Z = s.Z := rfl
@[simp] theorem State.takeOperand16_I (s : State) (lo hi : Byte) : (s.takeOperand16 lo hi).I = s.I := rfl
@[simp] theorem State.takeOperand16_D (s : State) (lo hi : Byte) : (s.takeOperand16 lo hi).D = s.D := rfl
@[simp] theorem State.takeOperand16_V (s : State) (lo hi : Byte) : (s.takeOperand16 lo hi).V = s.V := rfl
@[simp] theorem State.takeOperand16_N (s : State) (lo hi : Byte) : (s.takeOperand16 lo hi).N = s.N := rfl
@[simp] theorem State.takeOperand16_mem (s : State) (lo hi : Byte) : (s.takeOperand16 lo hi).mem = s.mem := rfl
@[simp] theorem State.takeOperand16_params (s : State) (lo hi : Byte) : (s.takeOperand16 lo hi).params = s.params := rfl
@[simp] theorem State.takeOperand16_past (s : State) (lo hi : Byte) : (s.takeOperand16 lo hi).past = s.past := rfl
@[simp] theorem State.takeOperand16_trace (s : State) (lo hi : Byte) : (s.takeOperand16 lo hi).trace = s.trace ++ [.read s.PC lo] ++ [.read (s.PC + 1) hi] := rfl

/-! ### `push` (R27) -/

@[simp] theorem State.push_A (s : State) (v : Byte) : (s.push v).A = s.A := rfl
@[simp] theorem State.push_X (s : State) (v : Byte) : (s.push v).X = s.X := rfl
@[simp] theorem State.push_Y (s : State) (v : Byte) : (s.push v).Y = s.Y := rfl
@[simp] theorem State.push_SP (s : State) (v : Byte) : (s.push v).SP = s.SP - 1 := rfl
@[simp] theorem State.push_PC (s : State) (v : Byte) : (s.push v).PC = s.PC := rfl
@[simp] theorem State.push_C (s : State) (v : Byte) : (s.push v).C = s.C := rfl
@[simp] theorem State.push_Z (s : State) (v : Byte) : (s.push v).Z = s.Z := rfl
@[simp] theorem State.push_I (s : State) (v : Byte) : (s.push v).I = s.I := rfl
@[simp] theorem State.push_D (s : State) (v : Byte) : (s.push v).D = s.D := rfl
@[simp] theorem State.push_V (s : State) (v : Byte) : (s.push v).V = s.V := rfl
@[simp] theorem State.push_N (s : State) (v : Byte) : (s.push v).N = s.N := rfl
@[simp] theorem State.push_mem (s : State) (v : Byte) : (s.push v).mem = Memory.store s.params.devices s.mem s.stackAddr v := rfl
@[simp] theorem State.push_params (s : State) (v : Byte) : (s.push v).params = s.params := rfl
@[simp] theorem State.push_past (s : State) (v : Byte) : (s.push v).past = s.past := rfl
@[simp] theorem State.push_trace (s : State) (v : Byte) : (s.push v).trace = s.trace ++ [.write s.stackAddr v] := rfl

/-! ### `poke` (R282) -/

@[simp] theorem State.poke_A (s : State) (a : Addr) (v : Byte) : (s.poke a v).A = s.A := rfl
@[simp] theorem State.poke_X (s : State) (a : Addr) (v : Byte) : (s.poke a v).X = s.X := rfl
@[simp] theorem State.poke_Y (s : State) (a : Addr) (v : Byte) : (s.poke a v).Y = s.Y := rfl
@[simp] theorem State.poke_SP (s : State) (a : Addr) (v : Byte) : (s.poke a v).SP = s.SP := rfl
@[simp] theorem State.poke_PC (s : State) (a : Addr) (v : Byte) : (s.poke a v).PC = s.PC := rfl
@[simp] theorem State.poke_C (s : State) (a : Addr) (v : Byte) : (s.poke a v).C = s.C := rfl
@[simp] theorem State.poke_Z (s : State) (a : Addr) (v : Byte) : (s.poke a v).Z = s.Z := rfl
@[simp] theorem State.poke_I (s : State) (a : Addr) (v : Byte) : (s.poke a v).I = s.I := rfl
@[simp] theorem State.poke_D (s : State) (a : Addr) (v : Byte) : (s.poke a v).D = s.D := rfl
@[simp] theorem State.poke_V (s : State) (a : Addr) (v : Byte) : (s.poke a v).V = s.V := rfl
@[simp] theorem State.poke_N (s : State) (a : Addr) (v : Byte) : (s.poke a v).N = s.N := rfl
@[simp] theorem State.poke_mem (s : State) (a : Addr) (v : Byte) : (s.poke a v).mem = Memory.store s.params.devices s.mem a v := rfl
@[simp] theorem State.poke_params (s : State) (a : Addr) (v : Byte) : (s.poke a v).params = s.params := rfl
@[simp] theorem State.poke_past (s : State) (a : Addr) (v : Byte) : (s.poke a v).past = s.history ++ [.hostWrite a v] := rfl
@[simp] theorem State.poke_trace (s : State) (a : Addr) (v : Byte) : (s.poke a v).trace = [] := rfl

/-! ### `install` (R275) -/

@[simp] theorem State.install_A (s : State) (a : Addr) (v : Byte) : (s.install a v).A = s.A := rfl
@[simp] theorem State.install_X (s : State) (a : Addr) (v : Byte) : (s.install a v).X = s.X := rfl
@[simp] theorem State.install_Y (s : State) (a : Addr) (v : Byte) : (s.install a v).Y = s.Y := rfl
@[simp] theorem State.install_SP (s : State) (a : Addr) (v : Byte) : (s.install a v).SP = s.SP := rfl
@[simp] theorem State.install_PC (s : State) (a : Addr) (v : Byte) : (s.install a v).PC = s.PC := rfl
@[simp] theorem State.install_C (s : State) (a : Addr) (v : Byte) : (s.install a v).C = s.C := rfl
@[simp] theorem State.install_Z (s : State) (a : Addr) (v : Byte) : (s.install a v).Z = s.Z := rfl
@[simp] theorem State.install_I (s : State) (a : Addr) (v : Byte) : (s.install a v).I = s.I := rfl
@[simp] theorem State.install_D (s : State) (a : Addr) (v : Byte) : (s.install a v).D = s.D := rfl
@[simp] theorem State.install_V (s : State) (a : Addr) (v : Byte) : (s.install a v).V = s.V := rfl
@[simp] theorem State.install_N (s : State) (a : Addr) (v : Byte) : (s.install a v).N = s.N := rfl
@[simp] theorem State.install_mem (s : State) (a : Addr) (v : Byte) : (s.install a v).mem = Memory.write s.mem a.toNat v := rfl
@[simp] theorem State.install_params (s : State) (a : Addr) (v : Byte) : (s.install a v).params = { s.params with devices := s.params.devices.filter (· ≠ a) } := rfl
@[simp] theorem State.install_past (s : State) (a : Addr) (v : Byte) : (s.install a v).past = s.past := rfl
@[simp] theorem State.install_trace (s : State) (a : Addr) (v : Byte) : (s.install a v).trace = s.trace := rfl

/-! ### `addWithCarry` (R213): `A` and `C` only when `D` is 0 -/

@[simp] theorem State.addWithCarry_A (s : State) (m : Byte) : (s.addWithCarry m).A = if s.D then s.A else sumByte s.A m s.C := by
  cases h : s.D <;> simp [State.addWithCarry, h]
@[simp] theorem State.addWithCarry_X (s : State) (m : Byte) : (s.addWithCarry m).X = s.X := by
  cases h : s.D <;> simp [State.addWithCarry, h]
@[simp] theorem State.addWithCarry_Y (s : State) (m : Byte) : (s.addWithCarry m).Y = s.Y := by
  cases h : s.D <;> simp [State.addWithCarry, h]
@[simp] theorem State.addWithCarry_SP (s : State) (m : Byte) : (s.addWithCarry m).SP = s.SP := by
  cases h : s.D <;> simp [State.addWithCarry, h]
@[simp] theorem State.addWithCarry_PC (s : State) (m : Byte) : (s.addWithCarry m).PC = s.PC := by
  cases h : s.D <;> simp [State.addWithCarry, h]
@[simp] theorem State.addWithCarry_C (s : State) (m : Byte) : (s.addWithCarry m).C = if s.D then s.C else carry7 s.A m s.C := by
  cases h : s.D <;> simp [State.addWithCarry, h]
@[simp] theorem State.addWithCarry_Z (s : State) (m : Byte) : (s.addWithCarry m).Z = isZero (sumByte s.A m s.C) := by
  cases h : s.D <;> simp [State.addWithCarry, h]
@[simp] theorem State.addWithCarry_I (s : State) (m : Byte) : (s.addWithCarry m).I = s.I := by
  cases h : s.D <;> simp [State.addWithCarry, h]
@[simp] theorem State.addWithCarry_D (s : State) (m : Byte) : (s.addWithCarry m).D = s.D := by
  cases h : s.D <;> simp [State.addWithCarry, h]
@[simp] theorem State.addWithCarry_V (s : State) (m : Byte) : (s.addWithCarry m).V = xor (carry6 s.A m s.C) (carry7 s.A m s.C) := by
  cases h : s.D <;> simp [State.addWithCarry, h]
@[simp] theorem State.addWithCarry_N (s : State) (m : Byte) : (s.addWithCarry m).N = negative (sumByte s.A m s.C) := by
  cases h : s.D <;> simp [State.addWithCarry, h]
@[simp] theorem State.addWithCarry_mem (s : State) (m : Byte) : (s.addWithCarry m).mem = s.mem := by
  cases h : s.D <;> simp [State.addWithCarry, h]
@[simp] theorem State.addWithCarry_params (s : State) (m : Byte) : (s.addWithCarry m).params = s.params := by
  cases h : s.D <;> simp [State.addWithCarry, h]
@[simp] theorem State.addWithCarry_past (s : State) (m : Byte) : (s.addWithCarry m).past = s.past := by
  cases h : s.D <;> simp [State.addWithCarry, h]
@[simp] theorem State.addWithCarry_trace (s : State) (m : Byte) : (s.addWithCarry m).trace = s.trace := by
  cases h : s.D <;> simp [State.addWithCarry, h]

end Sys2Proof.Machine
end

