-- ==== Sys2Proof/Laws/Ops.lean ====
section
/-! SUPPORT. What each shared operation over bytes, bus, stack and vectors does, said once. -/

namespace Sys2Proof.Machine

/-! ### Bytes and words -/

theorem word_toNat (hi lo : Byte) : (word hi lo).toNat = 256 * hi.toNat + lo.toNat := by
  have h : (word hi lo).toNat = hi.toNat <<< 8 ||| lo.toNat := BitVec.toNat_append hi lo
  rw [h, Nat.shiftLeft_eq, Nat.mul_comm, ← Nat.two_pow_add_eq_or_of_lt lo.isLt]

theorem word_eq (hi lo : Byte) : word hi lo = BitVec.ofNat 16 (256 * hi.toNat + lo.toNat) := by
  rw [← word_toNat, BitVec.ofNat_toNat, BitVec.setWidth_eq]

theorem hiByte_eq (w : Addr) : hiByte w = BitVec.ofNat 8 (w.toNat / 256) := by
  apply BitVec.eq_of_toNat_eq
  simp [hiByte, BitVec.extractLsb'_toNat, Nat.shiftRight_eq_div_pow]

theorem loByte_eq (w : Addr) : loByte w = BitVec.ofNat 8 w.toNat := by
  apply BitVec.eq_of_toNat_eq
  simp [loByte, BitVec.extractLsb'_toNat]

@[simp] theorem word_hiByte_loByte (w : Addr) : word (hiByte w) (loByte w) = w := by
  apply BitVec.eq_of_toNat_eq
  have h := w.isLt
  simp only [word_toNat, hiByte_eq, loByte_eq, BitVec.toNat_ofNat]
  omega

theorem zext16_eq (v : Byte) : zext16 v = BitVec.ofNat 16 v.toNat := by
  apply BitVec.eq_of_toNat_eq
  simp [zext16]

@[simp] theorem zext16_toNat (v : Byte) : (zext16 v).toNat = v.toNat := by
  have h := v.isLt
  rw [zext16_eq, BitVec.toNat_ofNat]
  omega

theorem sext16_eq (v : Byte) : sext16 v = BitVec.ofInt 16 v.toInt := by
  apply BitVec.eq_of_toInt_eq
  rw [sext16, BitVec.toInt_signExtend_of_le (by decide), BitVec.toInt_ofInt]
  have h := v.toInt_lt
  have h' := v.le_toInt
  simp only [Int.bmod] at *
  omega

theorem negative_iff (v : Byte) : negative v = true ↔ 128 ≤ v.toNat := by
  rw [negative, ← BitVec.msb_eq_getLsbD_last v, BitVec.msb_eq_decide]
  simp

theorem isZero_iff (v : Byte) : isZero v = true ↔ v.toNat = 0 := by
  simp [isZero, BitVec.toNat_eq]

/-- `SetNZ` leaves the flags of its byte (R20). -/
theorem flagsOf_setNZ (s : State) (v : Byte) : FlagsOf (s.setNZ v) v := ⟨negative_iff v, isZero_iff v⟩

/-! ### Reading the bus (R41) -/

/-- What the bus answers depends on the parameters, on plain memory and on what has happened on the bus. -/
theorem State.peek_congr {s t : State} (hp : t.params = s.params) (hm : t.mem = s.mem) (hh : t.history = s.history)
    (a : Addr) : t.peek a = s.peek a := by
  rw [State.peek, State.peek, hp, hm, hh]

/-- Plain memory answers whatever has happened on the bus. -/
theorem State.peek_plain {s : State} {a : Addr} (h : s.IsPlain a) : s.peek a = Memory.read s.mem a.toNat := if_neg h

/-- The oracle answers where a device stands. -/
theorem State.peek_device {s : State} {a : Addr} (h : ¬ s.IsPlain a) : s.peek a = Config.busAnswer s.history a :=
  if_pos (not_not.mp h)

theorem State.peek_plain_congr {s t : State} {a : Addr} (h : s.IsPlain a) (hp : t.params = s.params)
    (hm : t.mem = s.mem) : t.peek a = s.peek a := by
  rw [State.peek_plain h, State.peek_plain (s := t) (by rwa [State.IsPlain, hp]), hm]

theorem State.peek_store_same {s t : State} {a : Addr} {v : Byte} (hs : Inv s) (hp : t.params = s.params)
    (h : t.mem = Memory.store s.params.devices s.mem a v) (ha : s.IsPlain a) : t.peek a = v := by
  rw [State.peek_plain (s := t) (by rwa [State.IsPlain, hp]), h, Memory.read_store _ _ _ _ _ hs, if_pos ⟨rfl, ha⟩]

theorem State.peek_store_other {s t : State} {a b : Addr} {v : Byte} (hb : b ≠ a) (hp : t.params = s.params)
    (h : t.mem = Memory.store s.params.devices s.mem a v) (hpb : s.IsPlain b) : t.peek b = s.peek b := by
  rw [State.peek_plain hpb, State.peek_plain (s := t) (by rwa [State.IsPlain, hp]), h, Memory.read_store_other _ _ _ _ _ hb]

/-- A store is one stored byte. -/
theorem storedByte_of_store {s t : State} {a : Addr} {v : Byte} (hs : Inv s) (hp : t.params = s.params)
    (h : t.mem = Memory.store s.params.devices s.mem a v) : StoredByte s t a v :=
  ⟨State.peek_store_same hs hp h, fun _ hb => State.peek_store_other hb hp h⟩

/-- A store keeps the invariant. -/
theorem inv_of_store {s t : State} {a : Addr} {v : Byte} (hs : Inv s)
    (h : t.mem = Memory.store s.params.devices s.mem a v) : Inv t := by
  rw [Inv, h]
  exact Memory.wf_store _ _ _ _ hs

theorem inv_of_mem_eq {s t : State} (hs : Inv s) (h : t.mem = s.mem) : Inv t := by
  rw [Inv, h]
  exact hs

/-- Two reads one after another. -/
theorem State.answersAt_two (s : State) (a b : Addr) :
    s.answersAt [a, b] = [s.peek a, (s.noteRead a (s.peek a)).peek b] := rfl

/-- Three reads one after another. -/
theorem State.answersAt_three (s : State) (a b c : Addr) :
    s.answersAt [a, b, c] =
      let x := s.peek a
      let y := (s.noteRead a x).peek b
      [x, y, ((s.noteRead a x).noteRead b y).peek c] := rfl

/-- The beginning of a transaction is no event on the bus. -/
@[simp] theorem State.beginTransaction_peek (s : State) (a : Addr) : s.beginTransaction.peek a = s.peek a :=
  State.peek_congr (s := s) (t := s.beginTransaction) rfl rfl (by simp [State.history]) a

/-- Plain memory answers every read of a list with the byte it holds. -/
theorem State.answersAt_plain (s : State) (as : List Addr) (h : ∀ a ∈ as, s.IsPlain a) :
    s.answersAt as = as.map s.peek := by
  have key : ∀ (as : List Addr) (t : State), t.params = s.params → t.mem = s.mem → (∀ a ∈ as, s.IsPlain a) →
      t.answersAt as = as.map s.peek := by
    intro as
    induction as with
    | nil => exact fun _ _ _ _ => rfl
    | cons a as ih =>
      intro t hp hm h
      have ha := State.peek_plain_congr (h a (List.mem_cons_self)) hp hm
      rw [State.answersAt, List.map_cons, ha, ih (t.noteRead a (s.peek a)) hp hm fun b hb => h b (List.mem_cons_of_mem a hb)]
  exact key as s rfl rfl h

/-! ### The stack (R26 to R29) -/

theorem stackByte_toNat (sp : Byte) : (stackByte sp).toNat = 256 + sp.toNat := by
  have h := sp.isLt
  rw [stackByte, BitVec.toNat_ofNat]
  omega

theorem stackByte_inj {a b : Byte} : stackByte a = stackByte b ↔ a = b := by
  constructor
  · intro h
    have h' := congrArg BitVec.toNat h
    rw [stackByte_toNat, stackByte_toNat] at h'
    exact BitVec.eq_of_toNat_eq (by omega)
  · rintro rfl
    rfl

/-- Page 1 lies below the vectors. -/
theorem stackByte_ne (sp : Byte) (a : Addr) (h : 512 ≤ a.toNat) : a ≠ stackByte sp := by
  have hb := sp.isLt
  intro he
  rw [he, stackByte_toNat] at h
  omega

@[simp] theorem State.stackAddr_eq (s : State) : s.stackAddr = stackByte s.SP := by
  have h := s.SP.isLt
  apply BitVec.eq_of_toNat_eq
  rw [stackByte_toNat, State.stackAddr, BitVec.toNat_add, zext16_toNat]
  simp
  omega

theorem State.push_eq (s : State) (v : Byte) : s.push v = { s with
    SP := s.SP - 1, mem := Memory.store s.params.devices s.mem (stackByte s.SP) v, trace := s.trace ++ [.write (stackByte s.SP) v] } := by
  simp [State.push, State.memWrite]

theorem State.pop_eq (s : State) : s.pop = (s.peek (stackByte (s.SP + 1)), { s with
    SP := s.SP + 1, trace := s.trace ++ [.read (stackByte (s.SP + 1)) (s.peek (stackByte (s.SP + 1)))] }) := by
  simp [State.pop, State.memRead, State.noteRead, State.peek, State.history]

@[simp] theorem State.pop_A (s : State) : s.pop.2.A = s.A := rfl
@[simp] theorem State.pop_X (s : State) : s.pop.2.X = s.X := rfl
@[simp] theorem State.pop_Y (s : State) : s.pop.2.Y = s.Y := rfl
@[simp] theorem State.pop_SP (s : State) : s.pop.2.SP = s.SP + 1 := rfl
@[simp] theorem State.pop_PC (s : State) : s.pop.2.PC = s.PC := rfl
@[simp] theorem State.pop_C (s : State) : s.pop.2.C = s.C := rfl
@[simp] theorem State.pop_Z (s : State) : s.pop.2.Z = s.Z := rfl
@[simp] theorem State.pop_I (s : State) : s.pop.2.I = s.I := rfl
@[simp] theorem State.pop_D (s : State) : s.pop.2.D = s.D := rfl
@[simp] theorem State.pop_V (s : State) : s.pop.2.V = s.V := rfl
@[simp] theorem State.pop_N (s : State) : s.pop.2.N = s.N := rfl
@[simp] theorem State.pop_mem (s : State) : s.pop.2.mem = s.mem := rfl
@[simp] theorem State.pop_params (s : State) : s.pop.2.params = s.params := rfl
@[simp] theorem State.pop_past (s : State) : s.pop.2.past = s.past := rfl

/-- What a push stores. -/
theorem storedByte_push (s : State) (v : Byte) (h : Inv s) : StoredByte s (s.push v) (stackByte s.SP) v :=
  storedByte_of_store h rfl (by simp)

theorem inv_push (s : State) (v : Byte) (h : Inv s) : Inv (s.push v) := inv_of_store h (State.push_mem s v)

/-! ### Words read from memory (R100, R111) -/

theorem State.fetch8_eq (s : State) : s.fetch8 = (s.peek s.PC, { s with
    PC := s.PC + 1, trace := s.trace ++ [.read s.PC (s.peek s.PC)] }) := rfl

theorem State.deref16_eq (s : State) (p : Addr) : s.deref16 p =
    let lo := s.peek p
    let hi := (s.noteRead p lo).peek (p + 1)
    (word hi lo, { s with trace := s.trace ++ [.read p lo, .read (p + 1) hi] }) := by
  simp [State.deref16, State.memRead, State.noteRead]

theorem State.loadVector_eq (s : State) (vec : Addr) : s.loadVector vec =
    let lo := s.peek vec
    let hi := (s.noteRead vec lo).peek (vec + 1)
    { s with PC := word hi lo, trace := s.trace ++ [.read vec lo, .read (vec + 1) hi] } := by
  simp [State.loadVector, State.deref16_eq]

/-! ### Launch states (R275) -/

/-- An installed address is plain memory, and the others are what they were. -/
theorem State.install_isPlain (s : State) (a b : Addr) (v : Byte) : (s.install a v).IsPlain b ↔ b = a ∨ s.IsPlain b := by
  simp only [State.IsPlain, State.install_params, List.mem_filter, decide_eq_true_eq, ne_eq, not_and, not_not]
  tauto

/-- An installed address answers its byte, and the others answer what they did. -/
theorem State.peek_install (s : State) (a b : Addr) (v : Byte) (h : Inv s) :
    (s.install a v).peek b = if b = a then v else s.peek b := by
  by_cases hb : b = a
  · rw [State.peek_plain ((s.install_isPlain a b v).mpr (.inl hb)), hb, if_pos rfl]
    exact Memory.read_write_same _ _ _ h
  · by_cases hp : s.IsPlain b
    · rw [State.peek_plain ((s.install_isPlain a b v).mpr (.inr hp)), if_neg hb, State.peek_plain hp]
      exact Memory.read_write_other _ _ _ _ fun he => hb (BitVec.eq_of_toNat_eq he)
    · rw [State.peek_device fun h' => ((s.install_isPlain a b v).mp h').elim hb hp, if_neg hb, State.peek_device hp]
      rfl

theorem inv_install (s : State) (a : Addr) (v : Byte) (h : Inv s) : Inv (s.install a v) := Memory.wf_write _ _ _ h

/-! ### Interrupt entry (R244) -/

/-- Memory after the three pushes of the interrupt sequence. -/
def interruptMemory (s : State) (b : Bool) : Memory :=
  let d := s.params.devices
  Memory.store d
    (Memory.store d (Memory.store d s.mem (stackByte s.SP) (hiByte s.PC)) (stackByte (s.SP - 1)) (loByte s.PC))
    (stackByte (s.SP - 2)) (s.packP b)

/-- The state after the three pushes of the interrupt sequence, in which the vector is read. -/
def interruptPushes (s : State) (b : Bool) : State := { s with
  SP := s.SP - 3
  mem := interruptMemory s b
  trace := s.trace ++ [.write (stackByte s.SP) (hiByte s.PC), .write (stackByte (s.SP - 1)) (loByte s.PC),
    .write (stackByte (s.SP - 2)) (s.packP b)] }

theorem sub_one_sub_one (v : Byte) : v - 1 - 1 = v - 2 := by
  rw [BitVec.sub_sub]
  rfl

theorem sub_two_sub_one (v : Byte) : v - 2 - 1 = v - 3 := by
  rw [BitVec.sub_sub]
  rfl

theorem add_one_add_one (v : Byte) : v + 1 + 1 = v + 2 := by
  rw [BitVec.add_assoc]
  rfl

theorem add_two_add_one (v : Byte) : v + 2 + 1 = v + 3 := by
  rw [BitVec.add_assoc]
  rfl

@[simp] theorem interruptPushes_mem (s : State) (b : Bool) : (interruptPushes s b).mem = interruptMemory s b := rfl
@[simp] theorem interruptPushes_params (s : State) (b : Bool) : (interruptPushes s b).params = s.params := rfl
@[simp] theorem interruptPushes_past (s : State) (b : Bool) : (interruptPushes s b).past = s.past := rfl
@[simp] theorem interruptPushes_trace (s : State) (b : Bool) : (interruptPushes s b).trace = s.trace ++
    [.write (stackByte s.SP) (hiByte s.PC), .write (stackByte (s.SP - 1)) (loByte s.PC),
      .write (stackByte (s.SP - 2)) (s.packP b)] := rfl

/-- The interrupt sequence as one update. -/
theorem State.interrupt_eq (s : State) (vec : Addr) (b : Bool) :
    s.interrupt vec b =
      let w := interruptPushes s b
      let lo := w.peek vec
      let hi := (w.noteRead vec lo).peek (vec + 1)
      { s with
        SP := s.SP - 3
        I := true
        PC := word hi lo
        mem := interruptMemory s b
        trace := w.trace ++ [.read vec lo, .read (vec + 1) hi] } := by
  simp only [State.interrupt, State.push_eq, State.loadVector_eq, sub_one_sub_one, sub_two_sub_one,
    interruptMemory, interruptPushes, List.append_assoc, List.cons_append, List.nil_append]
  rfl

@[simp] theorem State.interrupt_A (s : State) (vec : Addr) (b : Bool) : (s.interrupt vec b).A = s.A := by
  rw [State.interrupt_eq]
@[simp] theorem State.interrupt_X (s : State) (vec : Addr) (b : Bool) : (s.interrupt vec b).X = s.X := by
  rw [State.interrupt_eq]
@[simp] theorem State.interrupt_Y (s : State) (vec : Addr) (b : Bool) : (s.interrupt vec b).Y = s.Y := by
  rw [State.interrupt_eq]
@[simp] theorem State.interrupt_SP (s : State) (vec : Addr) (b : Bool) : (s.interrupt vec b).SP = s.SP - 3 := by
  rw [State.interrupt_eq]
@[simp] theorem State.interrupt_C (s : State) (vec : Addr) (b : Bool) : (s.interrupt vec b).C = s.C := by
  rw [State.interrupt_eq]
@[simp] theorem State.interrupt_Z (s : State) (vec : Addr) (b : Bool) : (s.interrupt vec b).Z = s.Z := by
  rw [State.interrupt_eq]
@[simp] theorem State.interrupt_I (s : State) (vec : Addr) (b : Bool) : (s.interrupt vec b).I = true := by
  rw [State.interrupt_eq]
@[simp] theorem State.interrupt_D (s : State) (vec : Addr) (b : Bool) : (s.interrupt vec b).D = s.D := by
  rw [State.interrupt_eq]
@[simp] theorem State.interrupt_V (s : State) (vec : Addr) (b : Bool) : (s.interrupt vec b).V = s.V := by
  rw [State.interrupt_eq]
@[simp] theorem State.interrupt_N (s : State) (vec : Addr) (b : Bool) : (s.interrupt vec b).N = s.N := by
  rw [State.interrupt_eq]
@[simp] theorem State.interrupt_mem (s : State) (vec : Addr) (b : Bool) : (s.interrupt vec b).mem = interruptMemory s b := by
  rw [State.interrupt_eq]

@[simp] theorem State.interrupt_params (s : State) (vec : Addr) (b : Bool) : (s.interrupt vec b).params = s.params := by
  rw [State.interrupt_eq]
@[simp] theorem State.interrupt_past (s : State) (vec : Addr) (b : Bool) : (s.interrupt vec b).past = s.past := by
  rw [State.interrupt_eq]

theorem inv_interrupt (s : State) (vec : Addr) (b : Bool) (h : Inv s) : Inv (s.interrupt vec b) := by
  rw [State.interrupt_eq]
  exact Memory.wf_store _ _ _ _ (Memory.wf_store _ _ _ _ (Memory.wf_store _ _ _ _ h))

/-- The three bytes of plain memory the interrupt sequence stores, and that it stores no other. -/
theorem read_interruptMemory (s : State) (b : Bool) (h : Inv s) (a : Addr) (ha : s.IsPlain a) :
    Memory.read (interruptMemory s b) a.toNat =
      if a = stackByte (s.SP - 2) then s.packP b
      else if a = stackByte (s.SP - 1) then loByte s.PC
      else if a = stackByte s.SP then hiByte s.PC
      else s.peek a := by
  have h1 := Memory.wf_store s.params.devices s.mem (stackByte s.SP) (hiByte s.PC) h
  have h2 := Memory.wf_store s.params.devices _ (stackByte (s.SP - 1)) (loByte s.PC) h1
  have hand : ∀ b : Addr, (a = b ∧ b ∉ s.params.devices) = (a = b) := fun b =>
    propext ⟨And.left, fun h => ⟨h, h ▸ ha⟩⟩
  simp only [interruptMemory, Memory.read_store _ _ _ _ _ h2, Memory.read_store _ _ _ _ _ h1,
    Memory.read_store _ _ _ _ _ h, hand, State.peek_plain ha]

end Sys2Proof.Machine
end

