-- ==== Sys2Proof/Laws/Operands.lean ====
section
/-! SUPPORT. What the resolver and the operand accesses do, said once: they write `PC` and note accesses, and depend on
no flag and on `A` not at all. -/

namespace Sys2Proof.Machine

/-! ### The resolver writes `PC` only (R116) -/

/-- The resolver's frame and its advance of `PC`. -/
theorem resolveWith_state (wrap : Bool) (o : Operand) (s : State) : (resolveWith wrap o s).2 = { s with
    PC := s.PC + BitVec.ofNat 16 o.bytes.length, trace := (resolveWith wrap o s).2.trace } := by
  cases o <;>
    simp [resolveWith, derefZP, State.memRead, State.noteRead, State.takeOperand16, State.takeOperand, State.advance,
      Operand.bytes, BitVec.add_assoc]

theorem resolve_state (o : Operand) (s : State) : (resolve o s).2 = { s with
    PC := s.PC + BitVec.ofNat 16 o.bytes.length, trace := (resolve o s).2.trace } :=
  resolveWith_state _ o s

@[simp] theorem resolve_A (o : Operand) (s : State) : (resolve o s).2.A = s.A := by rw [resolve_state]
@[simp] theorem resolve_X (o : Operand) (s : State) : (resolve o s).2.X = s.X := by rw [resolve_state]
@[simp] theorem resolve_Y (o : Operand) (s : State) : (resolve o s).2.Y = s.Y := by rw [resolve_state]
@[simp] theorem resolve_SP (o : Operand) (s : State) : (resolve o s).2.SP = s.SP := by rw [resolve_state]
@[simp] theorem resolve_C (o : Operand) (s : State) : (resolve o s).2.C = s.C := by rw [resolve_state]
@[simp] theorem resolve_Z (o : Operand) (s : State) : (resolve o s).2.Z = s.Z := by rw [resolve_state]
@[simp] theorem resolve_I (o : Operand) (s : State) : (resolve o s).2.I = s.I := by rw [resolve_state]
@[simp] theorem resolve_D (o : Operand) (s : State) : (resolve o s).2.D = s.D := by rw [resolve_state]
@[simp] theorem resolve_V (o : Operand) (s : State) : (resolve o s).2.V = s.V := by rw [resolve_state]
@[simp] theorem resolve_N (o : Operand) (s : State) : (resolve o s).2.N = s.N := by rw [resolve_state]
@[simp] theorem resolve_mem (o : Operand) (s : State) : (resolve o s).2.mem = s.mem := by rw [resolve_state]
@[simp] theorem resolve_params (o : Operand) (s : State) : (resolve o s).2.params = s.params := by rw [resolve_state]
@[simp] theorem resolve_past (o : Operand) (s : State) : (resolve o s).2.past = s.past := by rw [resolve_state]
@[simp] theorem resolve_PC (o : Operand) (s : State) : (resolve o s).2.PC = s.PC + BitVec.ofNat 16 o.bytes.length := by
  rw [resolve_state]

/-! ### Reading an operand -/

/-- Reading an operand is the resolver and one read at the effective address. -/
theorem readOperand_eq (o : Operand) (s : State) : readOperand o s = (operandValue o s, { (resolve o s).2 with
    trace := (resolve o s).2.trace ++ [.read (effectiveAddr o s) (operandValue o s)] }) := rfl

@[simp] theorem readOperand_fst (o : Operand) (s : State) : (readOperand o s).1 = operandValue o s := rfl

@[simp] theorem readOperand_A (o : Operand) (s : State) : (readOperand o s).2.A = s.A := by
  simp [readOperand_eq]
@[simp] theorem readOperand_X (o : Operand) (s : State) : (readOperand o s).2.X = s.X := by
  simp [readOperand_eq]
@[simp] theorem readOperand_Y (o : Operand) (s : State) : (readOperand o s).2.Y = s.Y := by
  simp [readOperand_eq]
@[simp] theorem readOperand_SP (o : Operand) (s : State) : (readOperand o s).2.SP = s.SP := by
  simp [readOperand_eq]
@[simp] theorem readOperand_C (o : Operand) (s : State) : (readOperand o s).2.C = s.C := by
  simp [readOperand_eq]
@[simp] theorem readOperand_Z (o : Operand) (s : State) : (readOperand o s).2.Z = s.Z := by
  simp [readOperand_eq]
@[simp] theorem readOperand_I (o : Operand) (s : State) : (readOperand o s).2.I = s.I := by
  simp [readOperand_eq]
@[simp] theorem readOperand_D (o : Operand) (s : State) : (readOperand o s).2.D = s.D := by
  simp [readOperand_eq]
@[simp] theorem readOperand_V (o : Operand) (s : State) : (readOperand o s).2.V = s.V := by
  simp [readOperand_eq]
@[simp] theorem readOperand_N (o : Operand) (s : State) : (readOperand o s).2.N = s.N := by
  simp [readOperand_eq]
@[simp] theorem readOperand_mem (o : Operand) (s : State) : (readOperand o s).2.mem = s.mem := by
  simp [readOperand_eq]
@[simp] theorem readOperand_params (o : Operand) (s : State) : (readOperand o s).2.params = s.params := by
  simp [readOperand_eq]
@[simp] theorem readOperand_past (o : Operand) (s : State) : (readOperand o s).2.past = s.past := by
  simp [readOperand_eq]
@[simp] theorem readOperand_PC (o : Operand) (s : State) : (readOperand o s).2.PC = s.PC + BitVec.ofNat 16 o.bytes.length := by
  simp [readOperand_eq]
@[simp] theorem readOperand_trace (o : Operand) (s : State) : (readOperand o s).2.trace =
    (resolve o s).2.trace ++ [.read (effectiveAddr o s) (operandValue o s)] := rfl

/-- The operand byte is what the bus answers at the effective address after the resolver's reads; an immediate byte is
when it is the byte at `PC`. -/
theorem operandValue_eq_peek (o : Operand) (s : State) (h : o.mode = .imm → o.bytes = [s.peek s.PC]) :
    operandValue o s = (resolve o s).2.peek (effectiveAddr o s) := by
  cases o with
  | imm d8 =>
    have hd : d8 = s.peek s.PC := by simpa [Operand.mode, Operand.bytes] using h
    exact hd
  | _ => rfl

/-- In plain memory the operand byte is the byte at the effective address. -/
theorem operandValue_plain (o : Operand) (s : State) (h : o.mode = .imm → o.bytes = [s.peek s.PC])
    (hp : s.IsPlain (effectiveAddr o s)) : operandValue o s = s.peek (effectiveAddr o s) := by
  rw [operandValue_eq_peek o s h, State.peek_plain_congr hp (resolve_params o s) (resolve_mem o s)]

/-! ### Storing to an operand -/

/-- A store is the resolver and one write at the effective address. -/
theorem storeOperand_eq (o : Operand) (v : Byte) (s : State) : storeOperand o v s = { s with
    PC := (resolve o s).2.PC
    mem := Memory.store s.params.devices s.mem (effectiveAddr o s) v
    trace := (resolve o s).2.trace ++ [.write (effectiveAddr o s) v] } := by
  rw [storeOperand, State.memWrite, resolve_mem, resolve_params, effectiveAddr]
  conv_lhs => rw [resolve_state]
  simp

/-- A read-modify-write is one read and one write of the same address, and the flags of the new byte. -/
theorem modifyMemory_eq (o : Operand) (f : Byte → Byte) (s : State) :
    modifyMemory o f s = { s with
      N := negative (f (operandValue o s))
      Z := isZero (f (operandValue o s))
      PC := (resolve o s).2.PC
      mem := Memory.store s.params.devices s.mem (effectiveAddr o s) (f (operandValue o s))
      trace := (resolve o s).2.trace ++ [.read (effectiveAddr o s) (operandValue o s),
        .write (effectiveAddr o s) (f (operandValue o s))] } := by
  simp [modifyMemory, readOperand_eq, State.setNZ, State.memWrite]

/-! ### Branching (R120) -/

theorem resolveRel_eq (d8 : Byte) (s : State) : resolveRel d8 s = (s.PC + 1 + sext16 d8, { s with
    PC := s.PC + 1, trace := s.trace ++ [.read s.PC d8] }) := rfl

theorem branch_eq (cond : Bool) (d8 : Byte) (s : State) : branch cond d8 s = { s with
    PC := if cond then s.PC + 1 + sext16 d8 else s.PC + 1, trace := s.trace ++ [.read s.PC d8] } := by
  cases cond <;> rfl

theorem State.takeOperand16_eq (s : State) (lo hi : Byte) : s.takeOperand16 lo hi = { s with
    PC := s.PC + 2, trace := s.trace ++ [.read s.PC lo, .read (s.PC + 1) hi] } := by
  simp [State.takeOperand16, State.takeOperand, State.noteRead, State.advance, BitVec.add_assoc]

end Sys2Proof.Machine
end

