-- ==== Sys2Proof/Laws/Exec.lean ====
section
/-! SUPPORT. The meanings that take more than one shared operation, each as one update of the state they start in, and
that the resolver does not look at what it does not read. -/

namespace Sys2Proof.Machine

/-! ### Shifts and rotates (R200) -/

theorem shiftTarget_acc_eq (f : Byte → Bool → Byte) (out : Byte → Bool) (s : State) :
    shiftTarget .acc f out s =
      { s with A := f s.A s.C, C := out s.A, N := negative (f s.A s.C), Z := isZero (f s.A s.C) } := rfl

theorem shiftTarget_mem_eq (o : Operand) (f : Byte → Bool → Byte) (out : Byte → Bool) (s : State) :
    shiftTarget (.mem o) f out s = { s with
      C := out (operandValue o s)
      N := negative (f (operandValue o s) s.C)
      Z := isZero (f (operandValue o s) s.C)
      PC := (resolve o s).2.PC
      mem := Memory.store s.params.devices s.mem (effectiveAddr o s) (f (operandValue o s) s.C)
      trace := (resolve o s).2.trace ++ [.read (effectiveAddr o s) (operandValue o s),
        .write (effectiveAddr o s) (f (operandValue o s) s.C)] } := by
  simp only [shiftTarget, modifyMemory_eq]

/-! ### Add and subtract (R214, R217) -/

theorem execAdc_eq (o : Operand) (s : State) : execAdc o s = .next
    (let m := operandValue o s
     { s with
      A := if s.D then (decimalAdd s.A m s.C).1 else sumByte s.A m s.C
      C := if s.D then (decimalAdd s.A m s.C).2 else carry7 s.A m s.C
      V := xor (carry6 s.A m s.C) (carry7 s.A m s.C)
      N := negative (sumByte s.A m s.C)
      Z := isZero (sumByte s.A m s.C)
      PC := (resolve o s).2.PC
      trace := (resolve o s).2.trace ++ [.read (effectiveAddr o s) m] }) := by
  rw [execAdc, readOperand_eq]
  conv_lhs => rw [resolve_state]
  cases h : s.D <;> simp [State.addWithCarry, State.setNZ, State.writeDecimal]

theorem execSbc_eq (o : Operand) (s : State) : execSbc o s = .next
    (let m := operandValue o s
     { s with
      A := if s.D then (decimalSub s.A m s.C).1 else sumByte s.A (~~~m) s.C
      C := if s.D then (decimalSub s.A m s.C).2 else carry7 s.A (~~~m) s.C
      V := xor (carry6 s.A (~~~m) s.C) (carry7 s.A (~~~m) s.C)
      N := negative (sumByte s.A (~~~m) s.C)
      Z := isZero (sumByte s.A (~~~m) s.C)
      PC := (resolve o s).2.PC
      trace := (resolve o s).2.trace ++ [.read (effectiveAddr o s) m] }) := by
  rw [execSbc, readOperand_eq]
  conv_lhs => rw [resolve_state]
  cases h : s.D <;> simp [State.subWithCarry, State.addWithCarry, State.setNZ, State.writeDecimal]

/-! ### Jumps and returns (R141 to R147) -/

theorem resolveInd_eq (lo hi : Byte) (s : State) : resolveInd lo hi s =
    let p := word hi lo
    let w := s.takeOperand16 lo hi
    let l := w.peek p
    let h := (w.noteRead p l).peek (p + 1)
    (word h l, { s with
      PC := s.PC + 2
      trace := s.trace ++ [.read s.PC lo, .read (s.PC + 1) hi, .read p l, .read (p + 1) h] }) := by
  simp [resolveInd, State.deref16_eq, State.takeOperand16_eq]

theorem execJmpInd_eq (lo hi : Byte) (s : State) : execJmpInd lo hi s =
    let p := word hi lo
    let w := s.takeOperand16 lo hi
    let l := w.peek p
    let h := (w.noteRead p l).peek (p + 1)
    .next { s with
      PC := word h l
      trace := s.trace ++ [.read s.PC lo, .read (s.PC + 1) hi, .read p l, .read (p + 1) h] } := by
  simp [execJmpInd, resolveInd_eq]

theorem execJsr_eq (lo hi : Byte) (s : State) : execJsr lo hi s = .next { s with
    SP := s.SP - 2
    PC := word hi lo
    mem := Memory.store s.params.devices
      (Memory.store s.params.devices s.mem (stackByte s.SP) (hiByte (s.PC + 1))) (stackByte (s.SP - 1)) (loByte (s.PC + 1))
    trace := s.trace ++ [.read s.PC lo, .read (s.PC + 1) hi, .write (stackByte s.SP) (hiByte (s.PC + 1)),
      .write (stackByte (s.SP - 1)) (loByte (s.PC + 1))] } := by
  have h : s.PC + 2#16 - 1#16 = s.PC + 1#16 := by bv_omega
  simp [execJsr, State.takeOperand16_eq, State.push_eq, BitVec.sub_sub, h]

theorem execRts_eq (s : State) : execRts s =
    let a := stackByte (s.SP + 1)
    let b := stackByte (s.SP + 2)
    let lo := s.peek a
    let hi := (s.noteRead a lo).peek b
    .next { s with
      SP := s.SP + 2
      PC := word hi lo + 1
      trace := s.trace ++ [.read a lo, .read b hi] } := by
  simp only [execRts, State.pop_eq, add_one_add_one, List.append_assoc, List.cons_append, List.nil_append]
  rfl

theorem State.returnFromInterrupt_eq (s : State) : s.returnFromInterrupt =
    let a := stackByte (s.SP + 1)
    let b := stackByte (s.SP + 2)
    let c := stackByte (s.SP + 3)
    let p := s.peek a
    let lo := (s.noteRead a p).peek b
    let hi := ((s.noteRead a p).noteRead b lo).peek c
    { s.unpackP p with
      SP := s.SP + 3
      PC := word hi lo
      trace := s.trace ++ [.read a p, .read b lo, .read c hi] } := by
  simp only [State.returnFromInterrupt, State.pop_eq, State.unpackP, State.noteRead, add_one_add_one, add_two_add_one, List.append_assoc,
    List.cons_append, List.nil_append]
  rfl

/-! ### What the resolver does not read -/

/-- The resolver reads no flag and not `A`. -/
theorem resolve_reads_no_flag (o : Operand) (s : State) (a : Byte) (c z i d v n : Bool) :
    resolve o { s with A := a, C := c, Z := z, I := i, D := d, V := v, N := n } =
      ((resolve o s).1, { (resolve o s).2 with A := a, C := c, Z := z, I := i, D := d, V := v, N := n }) := by
  cases o <;> rfl

/-- The resolver reads `X` in the three modes of R13 only. -/
theorem resolve_reads_X (o : Operand) (s : State) (x : Byte) (h : modeReadsX o.mode = false) :
    resolve o { s with X := x } = ((resolve o s).1, { (resolve o s).2 with X := x }) := by
  cases o <;> first | rfl | cases h

/-- The resolver reads `Y` in the three modes of R13 only. -/
theorem resolve_reads_Y (o : Operand) (s : State) (y : Byte) (h : modeReadsY o.mode = false) :
    resolve o { s with Y := y } = ((resolve o s).1, { (resolve o s).2 with Y := y }) := by
  cases o <;> first | rfl | cases h

end Sys2Proof.Machine
end

