-- ==== Sys2Proof/Laws/Flags.lean ====
section
/-! SUPPORT. The flag and digit computations of Machine/Flags.lean as statements about numbers. -/

namespace Sys2Proof.Machine

theorem bitNat_le (b : Bool) : bitNat b ≤ 1 := by cases b <;> decide

/-! ### Compare (R176) -/

theorem State.compare_C_iff (s : State) (r m : Byte) : (s.compare r m).C = true ↔ m.toNat ≤ r.toNat := by
  rw [State.compare_C, decide_eq_true_eq]

theorem isZero_sub_iff (r m : Byte) : isZero (r - m) = true ↔ r = m := by
  rw [isZero_iff]
  bv_omega

/-! ### The binary sum (R213, R216) -/

theorem sumByte_toNat (a m : Byte) (c : Bool) : (sumByte a m c).toNat = (a.toNat + m.toNat + bitNat c) % 256 := by
  rw [sumByte, sumNat, BitVec.toNat_ofNat]

theorem carry7_iff (a m : Byte) (c : Bool) : carry7 a m c = true ↔ 255 < a.toNat + m.toNat + bitNat c := by
  rw [carry7, decide_eq_true_eq, sumNat]

theorem carry6_iff (a m : Byte) (c : Bool) :
    carry6 a m c = true ↔ 127 < a.toNat % 128 + m.toNat % 128 + bitNat c := by
  have h : ∀ v : Byte, (v &&& 0x7F).toNat = v.toNat % 128 := by decide
  rw [carry6, decide_eq_true_eq, h, h]

theorem not_toNat (m : Byte) : (~~~m).toNat = 255 - m.toNat := by
  rw [BitVec.toNat_not]

theorem not_toInt : ∀ m : Byte, (~~~m).toInt = -1 - m.toInt := by decide

/-! ### Decimal digits (R218, R219) -/

theorem nibbles_toNat (hi lo : Int) : ((nibbles hi lo).toNat : Int) = 16 * (hi % 16) + lo % 16 := by
  have h : (nibbles hi lo).toNat = (BitVec.ofInt 4 hi).toNat <<< 4 ||| (BitVec.ofInt 4 lo).toNat :=
    BitVec.toNat_append _ _
  rw [h, Nat.shiftLeft_eq, Nat.mul_comm, ← Nat.two_pow_add_eq_or_of_lt (BitVec.isLt _)]
  simp only [BitVec.toNat_ofInt]
  omega

/-- A digit of `DecimalAdd`: ten less and a carry out of it, or neither. -/
theorem addDigit_cases (n : Int) :
    9 < n ∧ (addDigit n).1 = n - 10 ∧ bitNat (addDigit n).2 = 1 ∧ (addDigit n).2 = true ∨
    n ≤ 9 ∧ (addDigit n).1 = n ∧ bitNat (addDigit n).2 = 0 ∧ (addDigit n).2 = false := by
  by_cases h : 9 < n
  · exact .inl ⟨h, by simp [addDigit, h], by simp [addDigit, h, bitNat], by simp [addDigit, h]⟩
  · exact .inr ⟨by omega, by simp [addDigit, h], by simp [addDigit, h, bitNat], by simp [addDigit, h]⟩

/-- A digit of `DecimalSub`: ten more and a borrow out of it, or neither. -/
theorem subDigit_cases (n : Int) :
    n < 0 ∧ (subDigit n).1 = n + 10 ∧ bitNat (subDigit n).2 = 1 ∧ (subDigit n).2 = true ∨
    0 ≤ n ∧ (subDigit n).1 = n ∧ bitNat (subDigit n).2 = 0 ∧ (subDigit n).2 = false := by
  by_cases h : n < 0
  · exact .inl ⟨h, by simp [subDigit, h], by simp [subDigit, h, bitNat], by simp [subDigit, h]⟩
  · exact .inr ⟨by omega, by simp [subDigit, h], by simp [subDigit, h, bitNat], by simp [subDigit, h]⟩

end Sys2Proof.Machine
end

