-- ==== Sys2Proof/Laws/Step.lean ====
section
/-! SUPPORT. What `step()` does around a meaning: the opcode fetch, and nothing else. -/

namespace Sys2Proof.Machine

/-- A step fetches the opcode and runs the instruction at the program counter (R75). -/
theorem step_eq (s : State) : step s = exec (instrAtPC s) (afterFetch s) := by
  rw [step, afterFetch, ← State.beginTransaction_peek]
  rfl

/-- The instruction at the program counter is read from what the bus answers there (R75). -/
theorem instrAtPC_eq (s : State) {op lo hi : Byte} (h : s.answersAt [s.PC, s.PC + 1, s.PC + 2] = [op, lo, hi]) :
    instrAtPC s = decodeOpcode s.params.illegal op lo hi := by
  have h2 : s.PC + 1 + 1 = s.PC + 2 := by rw [BitVec.add_assoc]; rfl
  simp only [State.answersAt, List.cons.injEq, and_true] at h
  obtain ⟨h0, h1, h3⟩ := h
  rw [h0] at h1 h3
  rw [h1] at h3
  subst h0
  subst h1
  rw [← h3, ← h2]
  simp [instrAtPC, State.fetchInstr, State.fetch8, State.memRead, State.dispatchAt, State.peek, State.history]

/-- How many operand bytes the instruction at the program counter has (R70). -/
theorem operandCount_at_PC (s : State) :
    operandCount s.params.illegal (s.peek s.PC) = (instrAtPC s).mode.operandCount := by
  rw [instrAtPC_eq s (State.answersAt_three s _ _ _), operandCount]
  exact congrArg _ (decodeOpcode_mode _ _ _ _).symm

/-- `withFetchWord` places the word where the next step fetches, in plain memory. -/
theorem State.withFetchWord_answersAt (s : State) (nbits w : Nat) (h : Inv s) :
    (s.withFetchWord nbits w).answersAt [s.PC, s.PC + 1, s.PC + 2] =
      [tableByte nbits w 0, tableByte nbits w 1, tableByte nbits w 2] := by
  have h1 : s.PC ≠ s.PC + 1 := by bv_omega
  have h2 : s.PC ≠ s.PC + 2 := by bv_omega
  have h3 : s.PC + 1 ≠ s.PC + 2 := by bv_omega
  rw [State.answersAt_plain]
  · simp only [List.map, State.withFetchWord, State.placeAtPC,
      State.peek_install _ _ _ _ (inv_install _ _ _ (inv_install _ _ _ h)),
      State.peek_install _ _ _ _ (inv_install _ _ _ h), State.peek_install _ _ _ _ h, h1, h2, h3, if_true, if_false]
  · simp [State.withFetchWord, State.placeAtPC, State.install_isPlain]

/-- The operand form has as many bytes as its mode counts (R73). -/
theorem operand_bytes_length (o : Operand) : o.bytes.length = o.mode.operandCount := by
  cases o <;> rfl

/-- The resolver's accesses: the operand reads, then the pointer reads (R59). -/
theorem resolve_trace_length (o : Operand) (s : State) :
    (resolve o s).2.trace.length = s.trace.length + operandReads o.mode + pointerReads o.mode := by
  cases o <;> simp [resolve, resolveWith, operandReads, pointerReads, Operand.mode, derefZP, State.memRead]

/-- A taken IRQ is the interrupt sequence (R245). -/
theorem State.irq_of_clear (s : State) (h : s.I = false) : s.irq = s.beginTransaction.interrupt irqVector false := by
  simp [State.irq, h]

/-- A masked IRQ is dropped (R249). -/
theorem State.irq_of_set (s : State) (h : s.I = true) : s.irq = s.beginTransaction := by
  simp [State.irq, h]

end Sys2Proof.Machine
end

