-- ==== Sys2Proof/Laws/PerInstr.lean ====
section
/-! SUPPORT. Statements made for every instruction, one lemma a constructor. `EncodedLength`: the encoding of a well-formed
instruction is its opcode byte and as many operand bytes as its mode counts (R70, R73), three bytes at most. -/

namespace Sys2Proof.Laws.EncodedLength

open Sys2Proof.Machine

/-- What `EncodedLength` says of an instruction. -/
def Statement (i : Instr) : Prop :=
  ∀ p, wellFormed p i = true → (encode i).length = 1 + i.mode.operandCount ∧ (encode i).length ≤ 3

/-- An encoding that exists is the opcode and the operand bytes. -/
theorem of_operandBytes {i : Instr} (h : i.operandBytes.length = i.mode.operandCount)
    (hop : ∀ {p}, wellFormed p i = true → i.opcode.isSome = true) : Statement i := by
  intro p hw
  obtain ⟨op, hop⟩ := Option.isSome_iff_exists.mp (hop hw)
  have hle : i.mode.operandCount ≤ 2 := by cases i.mode <;> decide
  simp only [encode, hop, List.length_cons, h]
  omega

/-- A well-formed shift or rotate has an opcode. -/
theorem shift_isSome {t : ShiftTarget} {acc zp zpx abs abx : Byte} (h : wellFormedShift t = true) :
    (shiftOpcode t acc zp zpx abs abx).isSome = true := by
  cases t with
  | acc => rfl
  | mem o => cases o <;> first | rfl | (revert h; exact fun h => Bool.noConfusion h)

/-- The operand bytes of a shift or rotate. -/
theorem shift_operandBytes (t : ShiftTarget) : (Instr.asl t).operandBytes.length = (Instr.asl t).mode.operandCount := by
  cases t with
  | acc => rfl
  | mem o => exact operand_bytes_length o

theorem bpl (d8 : Byte) : Statement (.bpl d8) :=
  of_operandBytes rfl fun _ => rfl

theorem bmi (d8 : Byte) : Statement (.bmi d8) :=
  of_operandBytes rfl fun _ => rfl

theorem bvc (d8 : Byte) : Statement (.bvc d8) :=
  of_operandBytes rfl fun _ => rfl

theorem bvs (d8 : Byte) : Statement (.bvs d8) :=
  of_operandBytes rfl fun _ => rfl

theorem bcc (d8 : Byte) : Statement (.bcc d8) :=
  of_operandBytes rfl fun _ => rfl

theorem bcs (d8 : Byte) : Statement (.bcs d8) :=
  of_operandBytes rfl fun _ => rfl

theorem bne (d8 : Byte) : Statement (.bne d8) :=
  of_operandBytes rfl fun _ => rfl

theorem beq (d8 : Byte) : Statement (.beq d8) :=
  of_operandBytes rfl fun _ => rfl

theorem clc : Statement .clc :=
  of_operandBytes rfl fun _ => rfl

theorem sec : Statement .sec :=
  of_operandBytes rfl fun _ => rfl

theorem cli : Statement .cli :=
  of_operandBytes rfl fun _ => rfl

theorem sei : Statement .sei :=
  of_operandBytes rfl fun _ => rfl

theorem cld : Statement .cld :=
  of_operandBytes rfl fun _ => rfl

theorem sed : Statement .sed :=
  of_operandBytes rfl fun _ => rfl

theorem clv : Statement .clv :=
  of_operandBytes rfl fun _ => rfl

theorem jmpAbs (lo hi : Byte) : Statement (.jmpAbs lo hi) :=
  of_operandBytes rfl fun _ => rfl

theorem jmpInd (lo hi : Byte) : Statement (.jmpInd lo hi) :=
  of_operandBytes rfl fun _ => rfl

theorem jsr (lo hi : Byte) : Statement (.jsr lo hi) :=
  of_operandBytes rfl fun _ => rfl

theorem rts : Statement .rts :=
  of_operandBytes rfl fun _ => rfl

theorem brk : Statement .brk :=
  of_operandBytes rfl fun _ => rfl

theorem rti : Statement .rti :=
  of_operandBytes rfl fun _ => rfl

theorem bit (o : Operand) : Statement (.bit o) := by
  refine of_operandBytes (operand_bytes_length o) fun h => ?_
  cases o <;> first | rfl | exact Bool.noConfusion h

theorem php : Statement .php :=
  of_operandBytes rfl fun _ => rfl

theorem plp : Statement .plp :=
  of_operandBytes rfl fun _ => rfl

theorem pha : Statement .pha :=
  of_operandBytes rfl fun _ => rfl

theorem pla : Statement .pla :=
  of_operandBytes rfl fun _ => rfl

theorem tax : Statement .tax :=
  of_operandBytes rfl fun _ => rfl

theorem tay : Statement .tay :=
  of_operandBytes rfl fun _ => rfl

theorem txa : Statement .txa :=
  of_operandBytes rfl fun _ => rfl

theorem tya : Statement .tya :=
  of_operandBytes rfl fun _ => rfl

theorem txs : Statement .txs :=
  of_operandBytes rfl fun _ => rfl

theorem tsx : Statement .tsx :=
  of_operandBytes rfl fun _ => rfl

theorem inc (o : Operand) : Statement (.inc o) := by
  refine of_operandBytes (operand_bytes_length o) fun h => ?_
  cases o <;> first | rfl | exact Bool.noConfusion h

theorem dec (o : Operand) : Statement (.dec o) := by
  refine of_operandBytes (operand_bytes_length o) fun h => ?_
  cases o <;> first | rfl | exact Bool.noConfusion h

theorem inx : Statement .inx :=
  of_operandBytes rfl fun _ => rfl

theorem iny : Statement .iny :=
  of_operandBytes rfl fun _ => rfl

theorem dex : Statement .dex :=
  of_operandBytes rfl fun _ => rfl

theorem dey : Statement .dey :=
  of_operandBytes rfl fun _ => rfl

theorem cmp (o : Operand) : Statement (.cmp o) := by
  refine of_operandBytes (operand_bytes_length o) fun h => ?_
  cases o <;> first | rfl | exact Bool.noConfusion h

theorem cpx (o : Operand) : Statement (.cpx o) := by
  refine of_operandBytes (operand_bytes_length o) fun h => ?_
  cases o <;> first | rfl | exact Bool.noConfusion h

theorem cpy (o : Operand) : Statement (.cpy o) := by
  refine of_operandBytes (operand_bytes_length o) fun h => ?_
  cases o <;> first | rfl | exact Bool.noConfusion h

theorem lda (o : Operand) : Statement (.lda o) := by
  refine of_operandBytes (operand_bytes_length o) fun h => ?_
  cases o <;> first | rfl | exact Bool.noConfusion h

theorem ldx (o : Operand) : Statement (.ldx o) := by
  refine of_operandBytes (operand_bytes_length o) fun h => ?_
  cases o <;> first | rfl | exact Bool.noConfusion h

theorem ldy (o : Operand) : Statement (.ldy o) := by
  refine of_operandBytes (operand_bytes_length o) fun h => ?_
  cases o <;> first | rfl | exact Bool.noConfusion h

theorem sta (o : Operand) : Statement (.sta o) := by
  refine of_operandBytes (operand_bytes_length o) fun h => ?_
  cases o <;> first | rfl | exact Bool.noConfusion h

theorem stx (o : Operand) : Statement (.stx o) := by
  refine of_operandBytes (operand_bytes_length o) fun h => ?_
  cases o <;> first | rfl | exact Bool.noConfusion h

theorem sty (o : Operand) : Statement (.sty o) := by
  refine of_operandBytes (operand_bytes_length o) fun h => ?_
  cases o <;> first | rfl | exact Bool.noConfusion h

theorem asl (t : ShiftTarget) : Statement (.asl t) :=
  of_operandBytes (shift_operandBytes t) fun h => shift_isSome h

theorem lsr (t : ShiftTarget) : Statement (.lsr t) :=
  of_operandBytes (shift_operandBytes t) fun h => shift_isSome h

theorem rol (t : ShiftTarget) : Statement (.rol t) :=
  of_operandBytes (shift_operandBytes t) fun h => shift_isSome h

theorem ror (t : ShiftTarget) : Statement (.ror t) :=
  of_operandBytes (shift_operandBytes t) fun h => shift_isSome h

theorem ora (o : Operand) : Statement (.ora o) := by
  refine of_operandBytes (operand_bytes_length o) fun h => ?_
  cases o <;> first | rfl | exact Bool.noConfusion h

theorem and (o : Operand) : Statement (.and o) := by
  refine of_operandBytes (operand_bytes_length o) fun h => ?_
  cases o <;> first | rfl | exact Bool.noConfusion h

theorem eor (o : Operand) : Statement (.eor o) := by
  refine of_operandBytes (operand_bytes_length o) fun h => ?_
  cases o <;> first | rfl | exact Bool.noConfusion h

theorem adc (o : Operand) : Statement (.adc o) := by
  refine of_operandBytes (operand_bytes_length o) fun h => ?_
  cases o <;> first | rfl | exact Bool.noConfusion h

theorem sbc (o : Operand) : Statement (.sbc o) := by
  refine of_operandBytes (operand_bytes_length o) fun h => ?_
  cases o <;> first | rfl | exact Bool.noConfusion h

theorem nop : Statement .nop :=
  of_operandBytes rfl fun _ => rfl

theorem starNop (op : Byte) (o : NopOperand) : Statement (.starNop op o) := by
  refine of_operandBytes ?_ fun _ => rfl
  cases o with
  | imp | acc | rel _ | ind _ _ => rfl
  | mem o => exact operand_bytes_length o

end Sys2Proof.Laws.EncodedLength
end

