-- ==== Sys2Proof/Tests/Slice0.lean ====
section
/-! SUPPORT. The model's own tests: what `wellFormed` refuses, words written out from the spec's encodings, one step of
each instruction against a row of spec/95_test_vectors.md (the row's id ends the theorem's name), and a witness for the
hypotheses of each statement. -/

namespace Sys2Proof.Tests

open Sys2Proof Sys2Proof.Machine

/-! ### Helpers -/

/-- The start state of the vectors of spec/95_test_vectors.md: everything zero but `SP` and `PC`. -/
def blank : State := { State.powerOn with SP := 0xFF, PC := 0x0600 }

/-- Bytes placed in plain memory, as a launch state has them. -/
def place (bytes : List (Addr × Byte)) (s : State) : State := bytes.foldl (fun s e => s.install e.1 e.2) s

/-- The call answered exactly this next state. -/
def answers (r : Result) (t : State) : Bool :=
  match r with
  | .next u => u == t
  | .fault _ | .refused _ => false

/-- The bytes decode to exactly this instruction, with nothing left over. -/
def reads (bytes : List Byte) (i : Instr) : Bool := decode .default bytes == .ok (i, [])

/-! ### WellFormed: an ill-formed term for each check -/

/-- R79, C6: the ALU group has no zero-page,Y slot. -/
theorem test_wf_refuses_lda_zpy : wellFormed .default (.lda (.zpy 0x10)) = false := by decide
/-- R193, C6: no immediate store. -/
theorem test_wf_refuses_sta_imm : wellFormed .default (.sta (.imm 0x10)) = false := by decide
/-- R170: no INC absolute,Y. -/
theorem test_wf_refuses_inc_aby : wellFormed .default (.inc (.aby 0x10 0x20)) = false := by decide
/-- R200: no shift of an immediate byte. -/
theorem test_wf_refuses_asl_imm : wellFormed .default (.asl (.mem (.imm 0x10))) = false := by decide
/-- R191: LDX is indexed by `Y`, not by `X`. -/
theorem test_wf_refuses_ldx_zpx : wellFormed .default (.ldx (.zpx 0x10)) = false := by decide
/-- R192: LDY is indexed by `X`, not by `Y`. -/
theorem test_wf_refuses_ldy_aby : wellFormed .default (.ldy (.aby 0x10 0x20)) = false := by decide
/-- R194: no STX absolute,Y (0x9E is undocumented). -/
theorem test_wf_refuses_stx_aby : wellFormed .default (.stx (.aby 0x10 0x20)) = false := by decide
/-- R195: no STY absolute,X (0x9C is undocumented). -/
theorem test_wf_refuses_sty_abx : wellFormed .default (.sty (.abx 0x10 0x20)) = false := by decide
/-- R178: no CPX zero-page,X. -/
theorem test_wf_refuses_cpx_zpx : wellFormed .default (.cpx (.zpx 0x10)) = false := by decide
/-- R150: no BIT immediate (0x89 is undocumented). -/
theorem test_wf_refuses_bit_imm : wellFormed .default (.bit (.imm 0x10)) = false := by decide
/-- R80: a documented opcode byte is no `*NOP`, nor is an undocumented one in another mode than its own. -/
theorem test_wf_refuses_starNop : wellFormed .default (.starNop 0xEA .imp) = false ∧ wellFormed .default (.starNop 0x02 (.mem (.imm 0x10))) = false ∧
    wellFormed .default (.starNop 0x80 .imp) = false := by decide

/-! ### Decoding: a word for every constructor, written out from R78, R79, R82 and the family files -/

/-- R121 to R128. Bits 7:6 the flag, bit 5 the value, then 10000. -/
theorem test_decode_branches :
    reads [0b00010000, 0x05] (.bpl 0x05) ∧ reads [0b00110000, 0x80] (.bmi 0x80) ∧ reads [0b01010000, 0x10] (.bvc 0x10) ∧
    reads [0b01110000, 0x10] (.bvs 0x10) ∧ reads [0b10010000, 0xFA] (.bcc 0xFA) ∧ reads [0b10110000, 0xFA] (.bcs 0xFA) ∧
    reads [0b11010000, 0x05] (.bne 0x05) ∧ reads [0b11110000, 0xFE] (.beq 0xFE) := by decide

/-- R130 to R136. -/
theorem test_decode_flags :
    reads [0b00011000] .clc ∧ reads [0x38] .sec ∧ reads [0x58] .cli ∧ reads [0x78] .sei ∧ reads [0xD8] .cld ∧
    reads [0xF8] .sed ∧ reads [0xB8] .clv := by decide

/-- R140 to R147. The low byte of an address comes first (R71). -/
theorem test_decode_jumps :
    reads [0b01001100, 0x34, 0x12] (.jmpAbs 0x34 0x12) ∧ reads [0b01101100, 0xFF, 0x30] (.jmpInd 0xFF 0x30) ∧
    reads [0x20, 0x00, 0x07] (.jsr 0x00 0x07) ∧ reads [0x60] .rts ∧ reads [0x00] .brk ∧ reads [0x40] .rti := by decide

/-- R150 to R165. -/
theorem test_decode_stack_and_transfers :
    reads [0b00100100, 0x40] (.bit (.zp 0x40)) ∧ reads [0x2C, 0x34, 0x12] (.bit (.abs 0x34 0x12)) ∧ reads [0x08] .php ∧
    reads [0x28] .plp ∧ reads [0x48] .pha ∧ reads [0x68] .pla ∧ reads [0xAA] .tax ∧ reads [0xA8] .tay ∧
    reads [0x8A] .txa ∧ reads [0x98] .tya ∧ reads [0x9A] .txs ∧ reads [0xBA] .tsx := by decide

/-- R170 to R179. -/
theorem test_decode_increments_and_compares :
    reads [0b11100110, 0x10] (.inc (.zp 0x10)) ∧ reads [0xDE, 0x34, 0x12] (.dec (.abx 0x34 0x12)) ∧ reads [0xE8] .inx ∧
    reads [0xC8] .iny ∧ reads [0xCA] .dex ∧ reads [0x88] .dey ∧ reads [0b11010001, 0x86] (.cmp (.izy 0x86)) ∧
    reads [0xE4, 0x10] (.cpx (.zp 0x10)) ∧ reads [0xC0, 0x10] (.cpy (.imm 0x10)) := by decide

/-- R190 to R195. -/
theorem test_decode_loads_and_stores :
    reads [0b10111101, 0x34, 0x12] (.lda (.abx 0x34 0x12)) ∧ reads [0xBE, 0x34, 0x12] (.ldx (.aby 0x34 0x12)) ∧
    reads [0xB4, 0x10] (.ldy (.zpx 0x10)) ∧ reads [0b10000001, 0x20] (.sta (.izx 0x20)) ∧
    reads [0x96, 0x10] (.stx (.zpy 0x10)) ∧ reads [0x8C, 0x34, 0x12] (.sty (.abs 0x34 0x12)) := by decide

/-- R201 to R204. -/
theorem test_decode_shifts :
    reads [0b00001010] (.asl .acc) ∧ reads [0x56, 0x10] (.lsr (.mem (.zpx 0x10))) ∧
    reads [0x2E, 0x34, 0x12] (.rol (.mem (.abs 0x34 0x12))) ∧ reads [0x7E, 0x34, 0x12] (.ror (.mem (.abx 0x34 0x12))) := by decide

/-- R210 to R217, by the bit fields of R79: operation, slot, 01. -/
theorem test_decode_alu :
    reads [0b00000001, 0x20] (.ora (.izx 0x20)) ∧ reads [0b00111001, 0x34, 0x12] (.and (.aby 0x34 0x12)) ∧
    reads [0b01010101, 0x10] (.eor (.zpx 0x10)) ∧ reads [0b01101001, 0x50] (.adc (.imm 0x50)) ∧
    reads [0b11101101, 0x34, 0x12] (.sbc (.abs 0x34 0x12)) := by decide

/-- R230, R82: NOP, and an undocumented opcode of each mode. -/
theorem test_decode_nops :
    reads [0b11101010] .nop ∧ reads [0x02] (.starNop 0x02 .imp) ∧ reads [0xEB, 0x10] (.starNop 0xEB (.mem (.imm 0x10))) ∧
    reads [0x04, 0x10] (.starNop 0x04 (.mem (.zp 0x10))) ∧ reads [0xF4, 0x10] (.starNop 0xF4 (.mem (.zpx 0x10))) ∧
    reads [0x97, 0x10] (.starNop 0x97 (.mem (.zpy 0x10))) ∧ reads [0x0C, 0x34, 0x12] (.starNop 0x0C (.mem (.abs 0x34 0x12))) ∧
    reads [0xFF, 0x34, 0x12] (.starNop 0xFF (.mem (.abx 0x34 0x12))) ∧
    reads [0x9E, 0x34, 0x12] (.starNop 0x9E (.mem (.aby 0x34 0x12))) ∧ reads [0x03, 0x10] (.starNop 0x03 (.mem (.izx 0x10))) ∧
    reads [0xF3, 0x10] (.starNop 0xF3 (.mem (.izy 0x10))) := by decide

/-- A list that ends inside an operand is rejected by name, and so is an empty one. -/
theorem test_decode_rejects_short_lists :
    decode .default [] = .error .noBytes ∧ decode .default [0xA9] = .error (.truncated 0xA9) ∧ decode .default [0x4C, 0x00] = .error (.truncated 0x4C) := by
  decide

/-- The host's number for LDA #$10, and an operand of zeros where it gives the opcode's bits alone. -/
theorem test_decodeTableWord :
    decodeTableWord 16 0x10A9 = some (.lda (.imm 0x10)) ∧ decodeTableWord 8 0x4C = some (.jmpAbs 0x00 0x00) ∧
    decodeTableWord 24 0x1234AD = some (.lda (.abs 0x34 0x12)) := by decide

/-! ### One step of each instruction (spec/95_test_vectors.md, part 2) -/

theorem test_bpl_BR05 :
    let s := place [(0x0600, 0x10), (0x0601, 0x7F)] { blank with N := false }
    answers (step s) { s with PC := 0x0681, trace := [.read 0x0600 0x10, .read 0x0601 0x7F] } = true := by decide

theorem test_bmi_BR06 :
    let s := place [(0x0600, 0x30), (0x0601, 0x80)] { blank with N := true }
    answers (step s) { s with PC := 0x0582, trace := [.read 0x0600 0x30, .read 0x0601 0x80] } = true := by decide

theorem test_bmi_BR07 :
    let s := place [(0x0600, 0x30), (0x0601, 0x80)] { blank with N := false }
    answers (step s) { s with PC := 0x0602, trace := [.read 0x0600 0x30, .read 0x0601 0x80] } = true := by decide

theorem test_bvc_BR08 :
    let s := place [(0x0600, 0x50), (0x0601, 0x10)] { blank with V := false }
    answers (step s) { s with PC := 0x0612, trace := [.read 0x0600 0x50, .read 0x0601 0x10] } = true := by decide

theorem test_bvs_BR09 :
    let s := place [(0x0600, 0x70), (0x0601, 0x10)] { blank with V := true }
    answers (step s) { s with PC := 0x0612, trace := [.read 0x0600 0x70, .read 0x0601 0x10] } = true := by decide

theorem test_bcc_BR10 :
    let s := place [(0x0600, 0x90), (0x0601, 0xFA)] { blank with C := false }
    answers (step s) { s with PC := 0x05FC, trace := [.read 0x0600 0x90, .read 0x0601 0xFA] } = true := by decide

theorem test_bcs_BR11 :
    let s := place [(0x0600, 0xB0), (0x0601, 0xFA)] { blank with C := true }
    answers (step s) { s with PC := 0x05FC, trace := [.read 0x0600 0xB0, .read 0x0601 0xFA] } = true := by decide

theorem test_bcs_BR12 :
    let s := place [(0x0600, 0xB0), (0x0601, 0xFA)] { blank with C := false }
    answers (step s) { s with PC := 0x0602, trace := [.read 0x0600 0xB0, .read 0x0601 0xFA] } = true := by decide

theorem test_bne_BR13 :
    let s := place [(0xFFFC, 0xD0), (0xFFFD, 0x05)] { blank with PC := 0xFFFC }
    answers (step s) { s with PC := 0x0003, trace := [.read 0xFFFC 0xD0, .read 0xFFFD 0x05] } = true := by decide

theorem test_bne_BR14 :
    let s := place [(0x0005, 0xD0), (0x0006, 0xF0)] { blank with PC := 0x0005 }
    answers (step s) { s with PC := 0xFFF7, trace := [.read 0x0005 0xD0, .read 0x0006 0xF0] } = true := by decide

theorem test_beq_BR03 :
    let s := place [(0x0600, 0xF0), (0x0601, 0xFE)] { blank with Z := true }
    answers (step s) { s with trace := [.read 0x0600 0xF0, .read 0x0601 0xFE] } = true := by decide

theorem test_beq_BR04 :
    let s := place [(0x0600, 0xF0), (0x0601, 0xFE)] { blank with Z := false }
    answers (step s) { s with PC := 0x0602, trace := [.read 0x0600 0xF0, .read 0x0601 0xFE] } = true := by decide

theorem test_clc_FL01 :
    let s := place [(0x0600, 0x18)] { blank with C := true }
    answers (step s) { s with PC := 0x0601, C := false, trace := [.read 0x0600 0x18] } = true := by decide

theorem test_sec_FL02 :
    let s := place [(0x0600, 0x38)] blank
    answers (step s) { s with PC := 0x0601, C := true, trace := [.read 0x0600 0x38] } = true := by decide

theorem test_cli_FL03 :
    let s := place [(0x0600, 0x58)] { blank with I := true }
    answers (step s) { s with PC := 0x0601, I := false, trace := [.read 0x0600 0x58] } = true := by decide

theorem test_sei_FL04 :
    let s := place [(0x0600, 0x78)] blank
    answers (step s) { s with PC := 0x0601, I := true, trace := [.read 0x0600 0x78] } = true := by decide

theorem test_cld_FL05 :
    let s := place [(0x0600, 0xD8)] { blank with D := true }
    answers (step s) { s with PC := 0x0601, D := false, trace := [.read 0x0600 0xD8] } = true := by decide

theorem test_sed_FL06 :
    let s := place [(0x0600, 0xF8)] blank
    answers (step s) { s with PC := 0x0601, D := true, trace := [.read 0x0600 0xF8] } = true := by decide

theorem test_clv_FL07 :
    let s := place [(0x0600, 0xB8)] { blank with V := true }
    answers (step s) { s with PC := 0x0601, V := false, trace := [.read 0x0600 0xB8] } = true := by decide

theorem test_jmpAbs_JP01 :
    let s := place [(0x0600, 0x4C), (0x0601, 0x00), (0x0602, 0xC0)] blank
    answers (step s) { s with PC := 0xC000, trace := [.read 0x0600 0x4C, .read 0x0601 0x00, .read 0x0602 0xC0] } = true := by decide

theorem test_jmpInd_AM16 :
    let s := place [(0x0600, 0x6C), (0x0601, 0xFF), (0x0602, 0x30), (0x3000, 0x80), (0x30FF, 0x40), (0x3100, 0x50)] blank
    answers (step s) { s with PC := 0x5040, trace := [.read 0x0600 0x6C, .read 0x0601 0xFF, .read 0x0602 0x30, .read 0x30FF 0x40, .read 0x3100 0x50] } = true := by decide

theorem test_jsr_JP04 :
    let s := place [(0x0600, 0x20), (0x0601, 0x00), (0x0602, 0x07)] { blank with SP := 0x00 }
    answers (step s) { s with SP := 0xFE, PC := 0x0700, mem := (place [(0x0100, 0x06), (0x01FF, 0x02)] s).mem, trace := [.read 0x0600 0x20, .read 0x0601 0x00, .read 0x0602 0x07, .write 0x0100 0x06, .write 0x01FF 0x02] } = true := by decide

theorem test_jsr_JP05 :
    let s := place [(0xFFFE, 0x20), (0xFFFF, 0x34), (0x0000, 0x12), (0x0000, 0x12)] { blank with PC := 0xFFFE }
    answers (step s) { s with SP := 0xFD, PC := 0x1234, mem := (place [(0x01FF, 0x00), (0x01FE, 0x00)] s).mem, trace := [.read 0xFFFE 0x20, .read 0xFFFF 0x34, .read 0x0000 0x12, .write 0x01FF 0x00, .write 0x01FE 0x00] } = true := by decide

theorem test_rts_JP06 :
    let s := place [(0x0700, 0x60), (0x01FE, 0x02), (0x01FF, 0x06)] { blank with SP := 0xFD, PC := 0x0700 }
    answers (step s) { s with SP := 0xFF, PC := 0x0603, trace := [.read 0x0700 0x60, .read 0x01FE 0x02, .read 0x01FF 0x06] } = true := by decide

theorem test_rts_JP07 :
    let s := place [(0x0600, 0x60), (0x01FE, 0xFF), (0x01FF, 0xFF)] { blank with SP := 0xFD }
    answers (step s) { s with SP := 0xFF, PC := 0x0000, trace := [.read 0x0600 0x60, .read 0x01FE 0xFF, .read 0x01FF 0xFF] } = true := by decide

theorem test_brk_JP09 :
    let s := place [(0x0600, 0x00), (0x0601, 0xEA), (0xFFFE, 0x00), (0xFFFF, 0x80)] { blank with C := true }
    answers (step s) { s with SP := 0xFC, PC := 0x8000, I := true, mem := (place [(0x01FF, 0x06), (0x01FE, 0x02), (0x01FD, 0x31)] s).mem, trace := [.read 0x0600 0x00, .write 0x01FF 0x06, .write 0x01FE 0x02, .write 0x01FD 0x31, .read 0xFFFE 0x00, .read 0xFFFF 0x80] } = true := by decide

theorem test_brk_JP10 :
    let s := place [(0x0600, 0x00), (0x0601, 0xEA), (0xFFFE, 0x34), (0xFFFF, 0x12)] { blank with SP := 0x01, Z := true, I := true, D := true, V := true, N := true }
    answers (step s) { s with SP := 0xFE, PC := 0x1234, mem := (place [(0x0101, 0x06), (0x0100, 0x02), (0x01FF, 0xFE)] s).mem, trace := [.read 0x0600 0x00, .write 0x0101 0x06, .write 0x0100 0x02, .write 0x01FF 0xFE, .read 0xFFFE 0x34, .read 0xFFFF 0x12] } = true := by decide

theorem test_rti_JP11 :
    let s := place [(0x8000, 0x40), (0x01FD, 0x31), (0x01FE, 0x02), (0x01FF, 0x06)] { blank with SP := 0xFC, PC := 0x8000, I := true }
    answers (step s) { s with SP := 0xFF, PC := 0x0602, C := true, I := false, trace := [.read 0x8000 0x40, .read 0x01FD 0x31, .read 0x01FE 0x02, .read 0x01FF 0x06] } = true := by decide

theorem test_rti_JP12 :
    let s := place [(0x0600, 0x40), (0x01FD, 0xFF), (0x01FE, 0xCD), (0x01FF, 0xAB)] { blank with SP := 0xFC }
    answers (step s) { s with SP := 0xFF, PC := 0xABCD, C := true, Z := true, I := true, D := true, V := true, N := true, trace := [.read 0x0600 0x40, .read 0x01FD 0xFF, .read 0x01FE 0xCD, .read 0x01FF 0xAB] } = true := by decide

theorem test_bit_BS01 :
    let s := place [(0x0600, 0x24), (0x0601, 0x40), (0x0040, 0xC0)] { blank with A := 0x0F }
    answers (step s) { s with PC := 0x0602, Z := true, V := true, N := true, trace := [.read 0x0600 0x24, .read 0x0601 0x40, .read 0x0040 0xC0] } = true := by decide

theorem test_bit_BS03 :
    let s := place [(0x0600, 0x2C), (0x0601, 0x00), (0x0602, 0x20), (0x2000, 0x3F)] { blank with A := 0x00, V := true, N := true }
    answers (step s) { s with PC := 0x0603, Z := true, V := false, N := false, trace := [.read 0x0600 0x2C, .read 0x0601 0x00, .read 0x0602 0x20, .read 0x2000 0x3F] } = true := by decide

theorem test_php_BS04 :
    let s := place [(0x0600, 0x08)] { blank with C := true, N := true }
    answers (step s) { s with SP := 0xFE, PC := 0x0601, mem := (place [(0x01FF, 0xB1)] s).mem, trace := [.read 0x0600 0x08, .write 0x01FF 0xB1] } = true := by decide

theorem test_php_BS05 :
    let s := place [(0x0600, 0x08)] blank
    answers (step s) { s with SP := 0xFE, PC := 0x0601, mem := (place [(0x01FF, 0x30)] s).mem, trace := [.read 0x0600 0x08, .write 0x01FF 0x30] } = true := by decide

theorem test_plp_BS07 :
    let s := place [(0x0600, 0x28), (0x01FF, 0xCF)] { blank with SP := 0xFE }
    answers (step s) { s with SP := 0xFF, PC := 0x0601, C := true, Z := true, I := true, D := true, V := true, N := true, trace := [.read 0x0600 0x28, .read 0x01FF 0xCF] } = true := by decide

theorem test_plp_BS08 :
    let s := place [(0x0600, 0x28), (0x01FF, 0x30)] { blank with SP := 0xFE, C := true, Z := true, I := true, D := true, V := true, N := true }
    answers (step s) { s with SP := 0xFF, PC := 0x0601, C := false, Z := false, I := false, D := false, V := false, N := false, trace := [.read 0x0600 0x28, .read 0x01FF 0x30] } = true := by decide

theorem test_pha_BS10 :
    let s := place [(0x0600, 0x48)] { blank with A := 0x80, SP := 0x00 }
    answers (step s) { s with SP := 0xFF, PC := 0x0601, mem := (place [(0x0100, 0x80)] s).mem, trace := [.read 0x0600 0x48, .write 0x0100 0x80] } = true := by decide

theorem test_pla_BS12 :
    let s := place [(0x0600, 0x68), (0x0100, 0x9C)] { blank with SP := 0xFF }
    answers (step s) { s with A := 0x9C, SP := 0x00, PC := 0x0601, N := true, trace := [.read 0x0600 0x68, .read 0x0100 0x9C] } = true := by decide

theorem test_tax_BS13 :
    let s := place [(0x0600, 0xAA)] { blank with A := 0x80 }
    answers (step s) { s with X := 0x80, PC := 0x0601, N := true, trace := [.read 0x0600 0xAA] } = true := by decide

theorem test_tay_BS14 :
    let s := place [(0x0600, 0xA8)] { blank with A := 0x00, Y := 0x11 }
    answers (step s) { s with Y := 0x00, PC := 0x0601, Z := true, trace := [.read 0x0600 0xA8] } = true := by decide

theorem test_txa_BS15 :
    let s := place [(0x0600, 0x8A)] { blank with X := 0x7F }
    answers (step s) { s with A := 0x7F, PC := 0x0601, trace := [.read 0x0600 0x8A] } = true := by decide

theorem test_tya_BS16 :
    let s := place [(0x0600, 0x98)] { blank with Y := 0xFF }
    answers (step s) { s with A := 0xFF, PC := 0x0601, N := true, trace := [.read 0x0600 0x98] } = true := by decide

theorem test_txs_BS18 :
    let s := place [(0x0600, 0x9A)] { blank with X := 0x80, SP := 0x55, Z := true }
    answers (step s) { s with SP := 0x80, PC := 0x0601, trace := [.read 0x0600 0x9A] } = true := by decide

theorem test_tsx_BS19 :
    let s := place [(0x0600, 0xBA)] { blank with SP := 0xFD }
    answers (step s) { s with X := 0xFD, PC := 0x0601, N := true, trace := [.read 0x0600 0xBA] } = true := by decide

theorem test_inc_ID01 :
    let s := place [(0x0600, 0xE6), (0x0601, 0x10), (0x0010, 0xFF)] blank
    answers (step s) { s with PC := 0x0602, Z := true, mem := (place [(0x0010, 0x00)] s).mem, trace := [.read 0x0600 0xE6, .read 0x0601 0x10, .read 0x0010 0xFF, .write 0x0010 0x00] } = true := by decide

theorem test_inc_ID05 :
    let s := place [(0x0600, 0xFE), (0x0601, 0xFF), (0x0602, 0x02), (0x0300, 0x41)] { blank with X := 0x01 }
    answers (step s) { s with PC := 0x0603, mem := (place [(0x0300, 0x42)] s).mem, trace := [.read 0x0600 0xFE, .read 0x0601 0xFF, .read 0x0602 0x02, .read 0x0300 0x41, .write 0x0300 0x42] } = true := by decide

theorem test_dec_ID03 :
    let s := place [(0x0600, 0xC6), (0x0601, 0x10), (0x0010, 0x00)] blank
    answers (step s) { s with PC := 0x0602, N := true, mem := (place [(0x0010, 0xFF)] s).mem, trace := [.read 0x0600 0xC6, .read 0x0601 0x10, .read 0x0010 0x00, .write 0x0010 0xFF] } = true := by decide

theorem test_dec_ID06 :
    let s := place [(0x0600, 0xD6), (0x0601, 0xFF), (0x0000, 0x80)] { blank with X := 0x01 }
    answers (step s) { s with PC := 0x0602, mem := (place [(0x0000, 0x7F)] s).mem, trace := [.read 0x0600 0xD6, .read 0x0601 0xFF, .read 0x0000 0x80, .write 0x0000 0x7F] } = true := by decide

theorem test_inx_ID07 :
    let s := place [(0x0600, 0xE8)] { blank with X := 0xFF }
    answers (step s) { s with X := 0x00, PC := 0x0601, Z := true, trace := [.read 0x0600 0xE8] } = true := by decide

theorem test_iny_ID08 :
    let s := place [(0x0600, 0xC8)] { blank with Y := 0x7F }
    answers (step s) { s with Y := 0x80, PC := 0x0601, N := true, trace := [.read 0x0600 0xC8] } = true := by decide

theorem test_dex_ID09 :
    let s := place [(0x0600, 0xCA)] { blank with X := 0x00 }
    answers (step s) { s with X := 0xFF, PC := 0x0601, N := true, trace := [.read 0x0600 0xCA] } = true := by decide

theorem test_dey_ID10 :
    let s := place [(0x0600, 0x88)] { blank with Y := 0x01 }
    answers (step s) { s with Y := 0x00, PC := 0x0601, Z := true, trace := [.read 0x0600 0x88] } = true := by decide

theorem test_cmp_ID13 :
    let s := place [(0x0600, 0xC9), (0x0601, 0x3F)] { blank with A := 0x40 }
    answers (step s) { s with PC := 0x0602, C := true, trace := [.read 0x0600 0xC9, .read 0x0601 0x3F] } = true := by decide

theorem test_cmp_ID16 :
    let s := place [(0x0600, 0xC9), (0x0601, 0x01)] { blank with A := 0x80 }
    answers (step s) { s with PC := 0x0602, C := true, trace := [.read 0x0600 0xC9, .read 0x0601 0x01] } = true := by decide

theorem test_cpx_ID18 :
    let s := place [(0x0600, 0xE4), (0x0601, 0x50), (0x0050, 0x20)] { blank with X := 0x10 }
    answers (step s) { s with PC := 0x0602, N := true, trace := [.read 0x0600 0xE4, .read 0x0601 0x50, .read 0x0050 0x20] } = true := by decide

theorem test_cpy_ID20 :
    let s := place [(0x0600, 0xCC), (0x0601, 0x00), (0x0602, 0x03), (0x0300, 0x01)] { blank with Y := 0xFF }
    answers (step s) { s with PC := 0x0603, C := true, N := true, trace := [.read 0x0600 0xCC, .read 0x0601 0x00, .read 0x0602 0x03, .read 0x0300 0x01] } = true := by decide

theorem test_lda_AM04 :
    let s := place [(0x0600, 0xB5), (0x0601, 0xFF), (0x0001, 0x33), (0x0101, 0x99)] { blank with X := 0x02 }
    answers (step s) { s with A := 0x33, PC := 0x0602, trace := [.read 0x0600 0xB5, .read 0x0601 0xFF, .read 0x0001 0x33] } = true := by decide

theorem test_lda_AM14 :
    let s := place [(0x0600, 0xB1), (0x0601, 0x86), (0x0010, 0xDD), (0x0086, 0xF0), (0x0087, 0xFF)] { blank with Y := 0x20 }
    answers (step s) { s with A := 0xDD, PC := 0x0602, N := true, trace := [.read 0x0600 0xB1, .read 0x0601 0x86, .read 0x0086 0xF0, .read 0x0087 0xFF, .read 0x0010 0xDD] } = true := by decide

theorem test_ldx_AM05 :
    let s := place [(0x0600, 0xB6), (0x0601, 0xF0), (0x0010, 0x44)] { blank with Y := 0x20 }
    answers (step s) { s with X := 0x44, PC := 0x0602, trace := [.read 0x0600 0xB6, .read 0x0601 0xF0, .read 0x0010 0x44] } = true := by decide

theorem test_ldy_LS06 :
    let s := place [(0x0600, 0xBC), (0x0601, 0x00), (0x0602, 0x04), (0x0405, 0x90)] { blank with X := 0x05 }
    answers (step s) { s with Y := 0x90, PC := 0x0603, N := true, trace := [.read 0x0600 0xBC, .read 0x0601 0x00, .read 0x0602 0x04, .read 0x0405 0x90] } = true := by decide

theorem test_sta_LS10 :
    let s := place [(0x0600, 0x91), (0x0601, 0x20), (0x0020, 0xFF), (0x0021, 0x02)] { blank with A := 0x34, Y := 0x01 }
    answers (step s) { s with PC := 0x0602, mem := (place [(0x0300, 0x34)] s).mem, trace := [.read 0x0600 0x91, .read 0x0601 0x20, .read 0x0020 0xFF, .read 0x0021 0x02, .write 0x0300 0x34] } = true := by decide

theorem test_sta_LS11 :
    let s := place [(0x0600, 0x81), (0x0601, 0x20), (0x0022, 0x00), (0x0023, 0x03)] { blank with A := 0x56, X := 0x02 }
    answers (step s) { s with PC := 0x0602, mem := (place [(0x0300, 0x56)] s).mem, trace := [.read 0x0600 0x81, .read 0x0601 0x20, .read 0x0022 0x00, .read 0x0023 0x03, .write 0x0300 0x56] } = true := by decide

theorem test_stx_LS12 :
    let s := place [(0x0600, 0x96), (0x0601, 0x80)] { blank with X := 0x9A, Y := 0x90 }
    answers (step s) { s with PC := 0x0602, mem := (place [(0x0010, 0x9A)] s).mem, trace := [.read 0x0600 0x96, .read 0x0601 0x80, .write 0x0010 0x9A] } = true := by decide

theorem test_sty_LS13 :
    let s := place [(0x0600, 0x94), (0x0601, 0x80)] { blank with X := 0x01, Y := 0xBC }
    answers (step s) { s with PC := 0x0602, mem := (place [(0x0081, 0xBC)] s).mem, trace := [.read 0x0600 0x94, .read 0x0601 0x80, .write 0x0081 0xBC] } = true := by decide

theorem test_asl_SH01 :
    let s := place [(0x0600, 0x0A)] { blank with A := 0x81 }
    answers (step s) { s with A := 0x02, PC := 0x0601, C := true, trace := [.read 0x0600 0x0A] } = true := by decide

theorem test_asl_SH04 :
    let s := place [(0x0600, 0x06), (0x0601, 0x10), (0x0010, 0x55)] blank
    answers (step s) { s with PC := 0x0602, N := true, mem := (place [(0x0010, 0xAA)] s).mem, trace := [.read 0x0600 0x06, .read 0x0601 0x10, .read 0x0010 0x55, .write 0x0010 0xAA] } = true := by decide

theorem test_lsr_SH05 :
    let s := place [(0x0600, 0x4A)] { blank with A := 0x03 }
    answers (step s) { s with A := 0x01, PC := 0x0601, C := true, trace := [.read 0x0600 0x4A] } = true := by decide

theorem test_lsr_SH07 :
    let s := place [(0x0600, 0x4E), (0x0601, 0x00), (0x0602, 0x03), (0x0300, 0xFE)] { blank with C := true }
    answers (step s) { s with PC := 0x0603, C := false, mem := (place [(0x0300, 0x7F)] s).mem, trace := [.read 0x0600 0x4E, .read 0x0601 0x00, .read 0x0602 0x03, .read 0x0300 0xFE, .write 0x0300 0x7F] } = true := by decide

theorem test_rol_SH08 :
    let s := place [(0x0600, 0x2A)] { blank with A := 0x40, C := true }
    answers (step s) { s with A := 0x81, PC := 0x0601, C := false, N := true, trace := [.read 0x0600 0x2A] } = true := by decide

theorem test_rol_SH11 :
    let s := place [(0x0600, 0x36), (0x0601, 0x10), (0x0012, 0xFF)] { blank with X := 0x02, C := true }
    answers (step s) { s with PC := 0x0602, N := true, mem := (place [(0x0012, 0xFF)] s).mem, trace := [.read 0x0600 0x36, .read 0x0601 0x10, .read 0x0012 0xFF, .write 0x0012 0xFF] } = true := by decide

theorem test_ror_SH12 :
    let s := place [(0x0600, 0x6A)] { blank with A := 0x01, C := true }
    answers (step s) { s with A := 0x80, PC := 0x0601, N := true, trace := [.read 0x0600 0x6A] } = true := by decide

theorem test_ror_SH16 :
    let s := place [(0x0600, 0x7E), (0x0601, 0x00), (0x0602, 0x03), (0x03FF, 0x00)] { blank with X := 0xFF, C := true }
    answers (step s) { s with PC := 0x0603, C := false, N := true, mem := (place [(0x03FF, 0x80)] s).mem, trace := [.read 0x0600 0x7E, .read 0x0601 0x00, .read 0x0602 0x03, .read 0x03FF 0x00, .write 0x03FF 0x80] } = true := by decide

theorem test_ora_AL01 :
    let s := place [(0x0600, 0x09), (0x0601, 0xF0)] { blank with A := 0x0F }
    answers (step s) { s with A := 0xFF, PC := 0x0602, N := true, trace := [.read 0x0600 0x09, .read 0x0601 0xF0] } = true := by decide

theorem test_and_AL03 :
    let s := place [(0x0600, 0x29), (0x0601, 0x0F)] { blank with A := 0xF0 }
    answers (step s) { s with A := 0x00, PC := 0x0602, Z := true, trace := [.read 0x0600 0x29, .read 0x0601 0x0F] } = true := by decide

theorem test_eor_AL05 :
    let s := place [(0x0600, 0x49), (0x0601, 0xFF)] { blank with A := 0xFF }
    answers (step s) { s with A := 0x00, PC := 0x0602, Z := true, trace := [.read 0x0600 0x49, .read 0x0601 0xFF] } = true := by decide

theorem test_adc_AL10 :
    let s := place [(0x0600, 0x69), (0x0601, 0x00)] { blank with A := 0x7F, C := true }
    answers (step s) { s with A := 0x80, PC := 0x0602, C := false, V := true, N := true, trace := [.read 0x0600 0x69, .read 0x0601 0x00] } = true := by decide

theorem test_adc_DM03 :
    let s := place [(0x0600, 0x69), (0x0601, 0x01)] { blank with A := 0x99, D := true }
    answers (step s) { s with A := 0x00, PC := 0x0602, C := true, N := true, trace := [.read 0x0600 0x69, .read 0x0601 0x01] } = true := by decide

theorem test_sbc_AL17 :
    let s := place [(0x0600, 0xE9), (0x0601, 0x01)] { blank with A := 0x00, C := true }
    answers (step s) { s with A := 0xFF, PC := 0x0602, C := false, N := true, trace := [.read 0x0600 0xE9, .read 0x0601 0x01] } = true := by decide

theorem test_sbc_DM16 :
    let s := place [(0x0600, 0xE9), (0x0601, 0x00)] { blank with A := 0x00, C := true, D := true }
    answers (step s) { s with PC := 0x0602, Z := true, trace := [.read 0x0600 0xE9, .read 0x0601 0x00] } = true := by decide

theorem test_nop_NP01 :
    let s := place [(0x0600, 0xEA)] { blank with A := 0x10, X := 0x04, Y := 0x05, SP := 0x80, C := true, Z := true, I := true, D := true, V := true, N := true }
    answers (step s) { s with PC := 0x0601, trace := [.read 0x0600 0xEA] } = true := by decide

theorem test_starNop_NP04 :
    let s := place [(0x0600, 0x80), (0x0601, 0xFF)] { blank with A := 0x10, X := 0x04, Y := 0x05, SP := 0x80, C := true, Z := true, I := true, D := true, V := true, N := true }
    answers (step s) { s with PC := 0x0602, trace := [.read 0x0600 0x80] } = true := by decide

theorem test_starNop_NP13 :
    let s := place [(0x0600, 0xA3), (0x0601, 0x20), (0x0024, 0x00), (0x0025, 0x30), (0x3000, 0x77)] { blank with A := 0x10, X := 0x04, Y := 0x05, SP := 0x80, C := true, Z := true, I := true, D := true, V := true, N := true }
    answers (step s) { s with PC := 0x0602, trace := [.read 0x0600 0xA3, .read 0x0601 0x20, .read 0x0024 0x00, .read 0x0025 0x30] } = true := by decide

theorem test_irq_taken_EV01 :
    let s := place [(0xFFFE, 0x00), (0xFFFF, 0x90)] { blank with PC := 0x1234, Z := true }
    answers (transact .irq s) { s with SP := 0xFC, PC := 0x9000, I := true, mem := (place [(0x01FF, 0x12), (0x01FE, 0x34), (0x01FD, 0x22)] s).mem, trace := [.write 0x01FF 0x12, .write 0x01FE 0x34, .write 0x01FD 0x22, .read 0xFFFE 0x00, .read 0xFFFF 0x90] } = true := by decide

theorem test_irq_masked_EV02 :
    let s := place [(0xFFFE, 0x00), (0xFFFF, 0x90)] { blank with PC := 0x1234, Z := true, I := true }
    answers (transact .irq s) { s with trace := [] } = true := by decide

theorem test_nmi_EV03 :
    let s := place [(0xFFFA, 0x00), (0xFFFB, 0xA0)] { blank with SP := 0xFC, PC := 0x1234, I := true, N := true }
    answers (transact .nmi s) { s with SP := 0xF9, PC := 0xA000, mem := (place [(0x01FC, 0x12), (0x01FB, 0x34), (0x01FA, 0xA4)] s).mem, trace := [.write 0x01FC 0x12, .write 0x01FB 0x34, .write 0x01FA 0xA4, .read 0xFFFA 0x00, .read 0xFFFB 0xA0] } = true := by decide

theorem test_reset_EV05 :
    let s := place [(0xFFFC, 0x00), (0xFFFD, 0x04)] { blank with A := 0x11, X := 0x22, Y := 0x33, SP := 0x00, PC := 0x1234, C := true, D := true }
    answers (transact .reset s) { s with SP := 0xFD, PC := 0x0400, I := true, trace := [.read 0xFFFC 0x00, .read 0xFFFD 0x04] } = true := by decide

/-! ### The pointer at 0xFF, for both values of `ZP_PTR_WRAP` (rows AM12 and AM19 and the note under the table) -/

theorem test_pointer_at_FF_AM12 :
    let s := place [(0x0000, 0x40), (0x00FF, 0x10), (0x0100, 0x20)] { blank with X := 0x02, PC := 0x0601 }
    (resolveWith false (.izx 0xFD) s).1 = 0x2010 ∧ (resolveWith true (.izx 0xFD) s).1 = 0x4010 := by decide

theorem test_pointer_at_FF_AM19 :
    let s := place [(0x0000, 0x60), (0x00FF, 0x00), (0x0100, 0x50)] { blank with Y := 0x01, PC := 0x0601 }
    (resolveWith false (.izy 0xFF) s).1 = 0x5001 ∧ (resolveWith true (.izy 0xFF) s).1 = 0x6001 := by decide

/-- Just below, the value does not matter. -/
theorem test_pointer_at_FE :
    let s := place [(0x00FE, 0x10), (0x00FF, 0x20)] blank
    resolveWith false (.izx 0xFE) s = resolveWith true (.izx 0xFE) s ∧ (resolveWith false (.izx 0xFE) s).1 = 0x2010 := by decide

/-! ### `ILLEGAL_MODE` and `BUS` (R6, R41, R82) -/

/-- `ILLEGAL_MODE` may give an undocumented opcode any mode: 0x22 here is an indirect one, of three bytes with two pointer
reads (R59, R113), and 0x02 keeps the mode of R82. -/
theorem test_starNop_other_mode :
    let p := { Parameters.default with illegal := [(0x22, .ind)] }
    let s := place [(0x0600, 0x22), (0x0601, 0xFF), (0x0602, 0x30), (0x30FF, 0x40), (0x3100, 0x50)] { blank with params := p }
    decode p.illegal [0x02, 0x22] = .ok (.starNop 0x02 .imp, [0x22]) ∧
    answers (step s) { s with PC := 0x0603, trace := [.read 0x0600 0x22, .read 0x0601 0xFF, .read 0x0602 0x30, .read 0x30FF 0x40, .read 0x3100 0x50] } = true := by
  decide

/-- A machine with a device at 0x2000 and plain memory elsewhere. -/
def withDevice (s : State) : State := { s with params := { s.params with devices := [0x2000] } }

/-- LDA of a device register: `A` is whatever the collaborator answers to the history of the bus (R41). -/
theorem test_lda_of_device :
    let s := withDevice (place [(0x0600, 0xAD), (0x0601, 0x00), (0x0602, 0x20)] blank)
    ∃ t, step s = .next t ∧
      t.A = Config.busAnswer [.read 0x0600 0xAD, .read 0x0601 0x00, .read 0x0602 0x20] 0x2000 ∧ t.mem = s.mem :=
  ⟨_, rfl, rfl, rfl⟩

/-- STA to a device register: the byte is handed to the collaborator and plain memory stays as it is (R41). -/
theorem test_sta_to_device :
    let s := withDevice (place [(0x0600, 0x8D), (0x0601, 0x00), (0x0602, 0x20)] { blank with A := 0x5A })
    ∃ t, step s = .next t ∧ t.mem = s.mem ∧
      t.trace = [.read 0x0600 0x8D, .read 0x0601 0x00, .read 0x0602 0x20, .write 0x2000 0x5A] :=
  ⟨_, rfl, rfl, rfl⟩

/-- The host's write between two transactions (R282) is an event on the bus, after the transaction before it. -/
theorem test_poke :
    answers (transact (.poke 0x0010 0x77) { blank with trace := [.read 0x0600 0xEA] })
      { blank with mem := [(0x10, 0x77)], past := [.read 0x0600 0xEA, .hostWrite 0x0010 0x77] } = true := by decide

/-- The host can place a word where the next step fetches it. -/
theorem test_withFetchWord :
    answers (step (State.reset.withFetchWord 16 0x10A9))
      { State.reset with
        A := 0x10
        PC := 0x0002
        mem := [(0, 0xA9), (1, 0x10)]
        past := [.read 0xFFFC 0x00, .read 0xFFFD 0x00]
        trace := [.read 0x0000 0xA9, .read 0x0001 0x10] } = true := by decide

/-- From reset with nothing placed the machine executes BRK at 0x0000 (note 10). -/
theorem test_first_step_after_reset : instrAtPC State.reset = .brk := by decide

/-! ### Witnesses: states and operands that meet each statement's hypotheses -/

theorem witness_DecodeOfEncode : wellFormed .default (.sbc (.aby 0xFF 0xFF)) = true ∧ wellFormed .default (.starNop 0xF3 (.mem (.izy 0xFF))) = true := by decide

theorem witness_EncodeOfDecode : decode .default [0xB1, 0x10, 0x99] = .ok (.lda (.izy 0x10), [0x99]) := by decide

theorem witness_UndocumentedOpcodesAreNoOperations :
    illegalMode .default 0x80 = some .imm ∧ illegalMode .default 0xA2 = none ∧ illegalMode [(0x80, .ind)] 0x80 = some .ind ∧
    illegalMode [(0xA2, .imp)] 0xA2 = none := by decide

theorem witness_WithFetchWordRunsTheWord :
    Inv State.reset ∧ decodeTableWordWith State.reset.params.illegal 24 0x1234AD = some (.lda (.abs 0x34 0x12)) := by decide

theorem witness_StepRunsDecodedInstruction :
    let s := place [(0xFFFF, 0xAD), (0x0000, 0x34), (0x0001, 0x12)] { blank with PC := 0xFFFF }
    decode s.params.illegal (s.answersAt [s.PC, s.PC + 1, s.PC + 2]) = .ok (.lda (.abs 0x34 0x12), []) := by decide

theorem witness_MemoryStaysCanonical :
    Inv (place [(0x0600, 0x85)] blank) ∧ ∃ t, transact .step (place [(0x0600, 0x85)] blank) = .next t := ⟨by decide, _, rfl⟩

theorem witness_FlagsWrittenOnlyByListedInstructions :
    (∃ t, exec .nop blank = .next t) ∧ writesC .nop = false ∧ writesNZ .nop = false ∧ writesI .nop = false ∧
      writesD .nop = false ∧ writesV .nop = false := ⟨⟨_, rfl⟩, by decide⟩

theorem witness_FlagsReadOnlyByListedInstructions :
    (∃ t, exec (.lda (.imm 0x10)) blank = .next t) ∧ readsC (.lda (.imm 0x10)) = false ∧ readsZ (.lda (.imm 0x10)) = false ∧
      readsI (.lda (.imm 0x10)) = false ∧ readsD (.lda (.imm 0x10)) = false ∧ readsV (.lda (.imm 0x10)) = false ∧
      readsN (.lda (.imm 0x10)) = false := ⟨⟨_, rfl⟩, by decide⟩

theorem witness_RegistersWrittenOnlyByListedInstructions :
    (∃ t, exec (.inc (.zp 0x10)) blank = .next t) ∧ writesA (.inc (.zp 0x10)) = false ∧ writesX (.inc (.zp 0x10)) = false ∧
      writesY (.inc (.zp 0x10)) = false ∧ writesSP (.inc (.zp 0x10)) = false := ⟨⟨_, rfl⟩, by decide⟩

theorem witness_RegistersReadOnlyByListedInstructions :
    (∃ t, exec (.lda (.abs 0x34 0x12)) blank = .next t) ∧ readsA (.lda (.abs 0x34 0x12)) = false ∧
      readsX (.lda (.abs 0x34 0x12)) = false ∧ readsY (.lda (.abs 0x34 0x12)) = false := ⟨⟨_, rfl⟩, by decide⟩

theorem witness_MemoryChangesOnlyWhereStored :
    (∃ t, exec .brk blank = .next t) ∧ (0x01FC : Addr) ∉ storedAddrs .brk blank ∧ (0x01FD : Addr) ∈ storedAddrs .brk blank ∧
      storedAddrs .nop blank = [] := ⟨⟨_, rfl⟩, by decide⟩

/-- The three bytes straddle the end of the address space. -/
theorem witness_ProgramCounterAdvancesByLength :
    let s := place [(0xFFFF, 0xAD)] { blank with PC := 0xFFFF }
    (∃ t, step s = .next t) ∧ transfersControl (instrAtPC s) = false := ⟨⟨_, rfl⟩, by decide⟩

/-- The fourth access of this step is a read that the oracle answers. -/
theorem witness_BusAccessCountOfStep :
    let s := withDevice (place [(0x0600, 0xAD), (0x0601, 0x00), (0x0602, 0x20)] blank)
    ∃ t v, step s = .next t ∧ t.trace[3]? = some (.read 0x2000 v) ∧ ¬ s.IsPlain 0x2000 :=
  ⟨_, _, rfl, rfl, by decide⟩

theorem witness_InterruptDisableChangesOnlyByListedEvents :
    (∃ t, transact .irq blank = .next t ∧ blank.I = false ∧ t.I = true) ∧
    (∃ t, transact .step (place [(0x0600, 0x78)] blank) = .next t ∧ t.I = true) ∧
    ∃ t, transact .step (place [(0x0600, 0x58)] { blank with I := true }) = .next t ∧ t.I = false := ⟨⟨_, rfl, by decide⟩, ⟨_, rfl, by decide⟩, _, rfl, by decide⟩

/-- The stack pointer at both ends of the page. -/
theorem witness_PushAndPop : Inv { blank with SP := 0x00 } ∧ Inv { blank with SP := 0xFF } := by decide

theorem witness_StackWrapsAfter256Pushes : Inv blank ∧ (List.replicate 256 (0x5A : Byte)).length = 256 := ⟨by decide, List.length_replicate⟩

theorem witness_StackInstructions : Inv { blank with SP := 0x00 } := by decide

theorem witness_PhpTxsAndTsxInstructions : Inv { blank with SP := 0x00 } := by decide

theorem witness_InterruptSequence : Inv { blank with SP := 0x00 } := by decide

theorem witness_NmiIsAlwaysTaken : Inv { blank with SP := 0x00 } := by decide

theorem witness_BrkInstruction : Inv { blank with SP := 0x00 } := by decide

theorem witness_IrqIsMaskedByInterruptDisable : ({ blank with I := true } : State).I = true ∧ blank.I = false ∧ Inv blank := by decide

/-- The state `h` in which RTI runs is the entry's own state `t`. -/
theorem witness_InterruptRoundTrip :
    let undisturbed (t h : State) := h.params = blank.params ∧ h.SP = t.SP ∧
      ∀ sp ∈ [blank.SP, blank.SP - 1, blank.SP - 2], h.peek (stackByte sp) = t.peek (stackByte sp)
    Inv blank ∧ blank.I = false ∧ (∀ sp ∈ [blank.SP, blank.SP - 1, blank.SP - 2], blank.IsPlain (stackByte sp)) ∧
    (∃ t, exec .brk blank = .next t ∧ undisturbed t t) ∧ (∃ t, transact .nmi blank = .next t ∧ undisturbed t t) ∧
    ∃ t, transact .irq blank = .next t ∧ undisturbed t t :=
  ⟨by decide, rfl, by decide, ⟨_, rfl, rfl, rfl, fun _ _ => rfl⟩, ⟨_, rfl, rfl, rfl, fun _ _ => rfl⟩,
    _, rfl, rfl, rfl, fun _ _ => rfl⟩

/-- A handler that saves `A` by PHA and PLA: the three bytes stay, and a byte below them does not. -/
theorem witness_InterruptRoundTrip_with_push :
    let s := { blank with A := 0x5A }
    let t := s.interrupt irqVector false
    let h := { (t.push t.A).pop.2 with A := s.A }
    h.params = s.params ∧ h.SP = t.SP ∧
    (∀ sp ∈ [s.SP, s.SP - 1, s.SP - 2], h.peek (stackByte sp) = t.peek (stackByte sp)) ∧
    h.peek (stackByte (s.SP - 3)) ≠ t.peek (stackByte (s.SP - 3)) := by decide

theorem witness_BreakBitTellsBrkFromIrq :
    Inv blank ∧ blank.I = false ∧ (∃ t, exec .brk blank = .next t ∧ blank.IsPlain (stackByte (t.SP + 1))) ∧
    (∃ u, transact .irq { blank with PC := blank.PC + 1 } = .next u) ∧ blank.IsPlain 0xFFFE ∧ blank.IsPlain 0xFFFF :=
  ⟨by decide, rfl, ⟨_, rfl, by decide⟩, ⟨_, rfl⟩, by decide⟩

theorem witness_DirectModes :
    (Operand.zpx 0xFF, (0xFF + 0x02) % 256) ∈ [(Operand.zp 0xFF, 0xFF), (.zpx 0xFF, (0xFF + 0x02) % 256), (.zpy 0xFF, 0xFF)] ∧
    (Operand.aby 0xFF 0xFF, 0) ∈ [(Operand.abs 0xFF 0xFF, 65535), (.abx 0xFF 0xFF, 65535), (.aby 0xFF 0xFF, 0)] := by decide

theorem witness_OperandByteIsAtEffectiveAddress :
    let s := place [(0x0601, 0x44)] { blank with PC := 0x0601 }
    ((Operand.imm 0x44).mode = .imm → (Operand.imm 0x44).bytes = [s.peek s.PC]) ∧ (Operand.zp 0x44).mode ≠ .imm := by decide

theorem witness_BranchInstructions : blank.N = false ∧ ({ blank with N := true } : State).N = true := by decide

theorem witness_JsrInstruction : Inv { blank with SP := 0x00, PC := 0xFFFF } := by decide

/-- The state in which RTS runs is JSR's own next state. -/
theorem witness_SubroutineRoundTrip :
    Inv blank ∧ blank.IsPlain (stackByte blank.SP) ∧ blank.IsPlain (stackByte (blank.SP - 1)) ∧
    ∃ t, exec (.jsr 0x00 0x07) blank = .next t ∧ t.params = blank.params :=
  ⟨by decide, by decide, by decide, _, rfl, rfl⟩

/-- A subroutine that itself calls another: the two bytes stay, and bytes below them do not. -/
theorem witness_SubroutineRoundTrip_with_call :
    let inner (t : State) : State := { (t.push 0x07).push 0x02 with SP := t.SP }
    ∃ t, exec (.jsr 0x00 0x07) blank = .next t ∧ (inner t).SP = t.SP ∧ (inner t).params = blank.params ∧
      (inner t).peek (stackByte blank.SP) = t.peek (stackByte blank.SP) ∧
      (inner t).peek (stackByte (blank.SP - 1)) = t.peek (stackByte (blank.SP - 1)) ∧
      (inner t).peek (stackByte (blank.SP - 2)) ≠ t.peek (stackByte (blank.SP - 2)) :=
  ⟨_, rfl, by decide⟩

theorem witness_SelfJumpRepeatsForever :
    let s := place [(0x0600, 0x4C), (0x0602, 0x06)] blank
    (∀ a, s.IsPlain a) ∧ s.peek s.PC = 0x4C ∧ s.peek (s.PC + 1) = BitVec.ofNat 8 s.PC.toNat ∧ s.peek (s.PC + 2) = BitVec.ofNat 8 (s.PC.toNat / 256) ∧
      answers (step s) { s with trace := [.read 0x0600 0x4C, .read 0x0601 0x00, .read 0x0602 0x06] } = true :=
  ⟨fun _ => List.not_mem_nil, by decide⟩

theorem witness_IncrementAndDecrementMemory : Inv (place [(0x0000, 0xFF), (0xFFFF, 0x80)] blank) := by decide

theorem witness_StoreInstructions : Inv (place [(0x0000, 0xFF), (0xFFFF, 0x80)] blank) := by decide

theorem witness_ShiftInstructions : Inv (place [(0x0000, 0xFF), (0xFFFF, 0x80)] blank) := by decide

theorem witness_AdcBinaryResult : blank.D = false := by decide

theorem witness_SbcBinaryResult : blank.D = false := by decide

theorem witness_AdcDecimalResult : ({ blank with D := true } : State).D = true := by decide

theorem witness_SbcDecimalResult : ({ blank with D := true } : State).D = true := by decide

theorem witness_DecimalArithmeticOnBcd :
    let s : State := { blank with D := true, A := 0x99 }
    s.D = true ∧ IsBcd s.A ∧ IsBcd (operandValue (.imm 0x99) s) := by decide

theorem witness_BcdRoundTrip : IsBcd 0x99 ∧ IsBcd 0x00 ∧ ¬ IsBcd 0x9A := by decide

/-- An undocumented opcode of every mode that one has. -/
theorem witness_UndocumentedOpcodeStep :
    let mode (op : Byte) := illegalMode .default op
    mode 0x02 = some .imp ∧ mode 0x80 = some .imm ∧ mode 0x04 = some .zp ∧ mode 0x14 = some .zpx ∧ mode 0x97 = some .zpy ∧
    mode 0x0C = some .abs ∧ mode 0xFF = some .abx ∧ mode 0x9E = some .aby ∧ mode 0x03 = some .izx ∧ mode 0xF3 = some .izy ∧
    illegalMode [(0x02, .acc), (0x12, .rel), (0x22, .ind)] 0x02 = some .acc ∧
    illegalMode [(0x02, .acc), (0x12, .rel), (0x22, .ind)] 0x12 = some .rel ∧
    illegalMode [(0x02, .acc), (0x12, .rel), (0x22, .ind)] 0x22 = some .ind := by decide

/-- For the statements that take the bytes the bus answers as a hypothesis: there always are such bytes. -/
theorem witness_answersAt :
    blank.answersAt [0xFFFC, 0xFFFD] = [0x00, 0x00] ∧
    (place [(0x0100, 0x31), (0x0101, 0x02), (0x0102, 0x06)] blank).answersAt [0x0100, 0x0101, 0x0102] = [0x31, 0x02, 0x06] := by
  decide

theorem witness_ZeroPagePointerModes :
    let s := place [(0x00FF, 0x10), (0x0100, 0x20)] { blank with X := 0x02, PC := 0x0601 }
    ({ s with trace := s.trace ++ [.read s.PC 0xFD] } : State).answersAt [0x00FF, 0x0100] = [0x10, 0x20] ∧
    255 = ((0xFD : Byte).toNat + s.X.toNat) % 256 := by decide

end Sys2Proof.Tests
end

section
/-! PROOFS. Completion (R9): every meaning, every step and every host call answers a next state. -/

namespace Sys2Proof.Machine

/-- `*NOP` completes in each of its thirteen modes (R231). -/
theorem execStarNop_completes (op : Byte) (o : NopOperand) (s : State) : ∃ t, execStarNop op o s = .next t := by
  cases o <;> exact ⟨_, rfl⟩

/-- Each documented handler is a next state as it stands, whatever its operands are; the handler of `*NOP` is one in each
of its modes. -/
theorem exec_completes (i : Instr) (s : State) : ∃ t, exec i s = .next t := by
  cases i with
  | starNop op o => exact execStarNop_completes op o s
  | _ => exact ⟨_, rfl⟩

/-- Every state is safe: a step is the meaning of the instruction at the program counter (R75). -/
theorem stepSafe (s : State) : StepSafe s := by
  rw [StepSafe, step_eq]
  exact exec_completes (instrAtPC s) (afterFetch s)

/-- Of the host's calls only `step()` runs an instruction; the others are a next state as they stand (R8). -/
theorem transact_completes (c : HostCall) (s : State) : ∃ t, transact c s = .next t := by
  cases c with
  | step => exact stepSafe s
  | irq => exact ⟨s.irq, rfl⟩
  | nmi => exact ⟨s.nmi, rfl⟩
  | reset => exact ⟨s.resetCall, rfl⟩
  | poke a v => exact ⟨s.poke a v, rfl⟩

/-- Settles O8: the host's calls by the case of the call, the instruction terms by the arm of `exec`. -/
theorem everyTransactionCompletes : Obligations.EveryTransactionCompletes :=
  ⟨transact_completes, exec_completes⟩

end Sys2Proof.Machine
end

section
/-! PROOFS. Noninterference and frame (R13, R16, R18): an instruction's outcome depends on the registers and flags it is
listed as reading, and changes those it is listed as writing. One case split over the instructions proves both. -/

namespace Sys2Proof.Machine

/-! ### Registers and flags taken from another state -/

/-- `s` with the registers and flags of `u`, except `PC`. -/
def State.withRegs (s u : State) : State :=
  { s with
    A := u.A, X := u.X, Y := u.Y, SP := u.SP
    C := u.C, Z := u.Z, I := u.I, D := u.D, V := u.V, N := u.N }

/-- `s` with every register and flag that the indexes do not list the instruction as reading taken from `u`. `SP` has no
row of readers (R13) and stays. -/
def State.withUnread (i : Instr) (s u : State) : State :=
  { s with
    A := if readsA i then s.A else u.A
    X := if readsX i then s.X else u.X
    Y := if readsY i then s.Y else u.Y
    C := if readsC i then s.C else u.C
    Z := if readsZ i then s.Z else u.Z
    I := if readsI i then s.I else u.I
    D := if readsD i then s.D else u.D
    V := if readsV i then s.V else u.V
    N := if readsN i then s.N else u.N }

/-- `t` with every register and flag that the indexes do not list the instruction as writing taken from `u`. -/
def State.withUnwritten (i : Instr) (t u : State) : State :=
  { t with
    A := if writesA i then t.A else u.A
    X := if writesX i then t.X else u.X
    Y := if writesY i then t.Y else u.Y
    SP := if writesSP i then t.SP else u.SP
    C := if writesC i then t.C else u.C
    Z := if writesNZ i then t.Z else u.Z
    I := if writesI i then t.I else u.I
    D := if writesD i then t.D else u.D
    V := if writesV i then t.V else u.V
    N := if writesNZ i then t.N else u.N }

/-- What is not read may as well be left alone. -/
@[simp] theorem State.withUnread_self (i : Instr) (s : State) : s.withUnread i s = s := by
  simp [State.withUnread]

/-! ### The resolver and the operand accesses -/

/-- The resolver reads `X` and `Y` in the modes of R13, and no other register or flag but `PC`. -/
theorem resolve_withRegs {o : Operand} {s u : State} (hx : modeReadsX o.mode = true → u.X = s.X)
    (hy : modeReadsY o.mode = true → u.Y = s.Y) :
    resolve o (s.withRegs u) = ((resolve o s).1, (resolve o s).2.withRegs u) := by
  cases o with
  | imm _ | zp _ | abs _ _ => rfl
  | zpx _ | abx _ _ | izx _ =>
    have hX := hx rfl
    simp only [resolve, resolveWith, State.withRegs, hX]
    rfl
  | zpy _ | aby _ _ | izy _ =>
    have hY := hy rfl
    simp only [resolve, resolveWith, State.withRegs, hY]
    rfl

/-- An instruction reads `X` if its mode does (R13). -/
theorem readsX_of_mode {i : Instr} (h : modeReadsX i.mode = true) : readsX i = true := by
  cases i with
  | stx _ | txa | txs | inx | dex | cpx _ => rfl
  | _ => exact h

/-- An instruction reads `Y` if its mode does (R13). -/
theorem readsY_of_mode {i : Instr} (h : modeReadsY i.mode = true) : readsY i = true := by
  cases i with
  | sty _ | tya | iny | dey | cpy _ => rfl
  | _ => exact h

section
variable {i : Instr} {o : Operand} (s u : State) (hm : i.mode = o.mode)
include hm

theorem resolve_withUnread :
    resolve o (s.withUnread i u) = ((resolve o s).1, (resolve o s).2.withRegs (s.withUnread i u)) :=
  resolve_withRegs (u := s.withUnread i u) (fun h => if_pos (readsX_of_mode (hm ▸ h)))
    fun h => if_pos (readsY_of_mode (hm ▸ h))

theorem effectiveAddr_withUnread : effectiveAddr o (s.withUnread i u) = effectiveAddr o s := by
  rw [effectiveAddr, resolve_withUnread s u hm, effectiveAddr]

theorem readOperand_withUnread : readOperand o (s.withUnread i u) =
    (operandValue o s, (readOperand o s).2.withRegs (s.withUnread i u)) := by
  rw [readOperand, resolve_withUnread s u hm]
  cases o <;> rfl

theorem operandValue_withUnread : operandValue o (s.withUnread i u) = operandValue o s := by
  rw [operandValue, readOperand_withUnread s u hm]

end

/-! ### Noninterference, by the case of the instruction -/

/-- Noninterference for all registers and flags at once: exchange what the instruction is not listed as reading, and the
outcome is the same in what it is listed as writing, in `PC` and behind the bus, and keeps the rest of the start state. -/
theorem exec_withUnread {i : Instr} {s t : State} (h : exec i s = .next t) (u : State) :
    exec i (s.withUnread i u) = .next (t.withUnwritten i (s.withUnread i u)) := by
  have hresolve := fun o => @resolve_withUnread i o s u
  have haddr := fun o => @effectiveAddr_withUnread i o s u
  have hread := fun o => @readOperand_withUnread i o s u
  have hvalue := fun o => @operandValue_withUnread i o s u
  cases i with
  | bpl _ | bmi _ | bvc _ | bvs _ | bcc _ | bcs _ | bne _ | beq _ =>
    simp only [exec, execBpl, execBmi, execBvc, execBvs, execBcc, execBcs, execBne, execBeq, branch_eq] at h ⊢
    cases h
    rfl
  | clc | sec | cli | sei | cld | sed | clv | tax | tay | txa | tya | txs | tsx | inx | iny | dex | dey | nop =>
    cases h
    rfl
  | jmpAbs _ _ | php | plp | pha | pla =>
    cases h
    rfl
  | jmpInd _ _ | jsr _ _ | rts | brk | rti =>
    simp only [exec, execJmpInd_eq, execJsr_eq, execRts_eq, execBrk, execRti, State.interrupt_eq,
      State.returnFromInterrupt_eq] at h ⊢
    cases h
    rfl
  | lda o | ldx o | ldy o | ora o | and o | eor o | bit o | cmp o | cpx o | cpy o =>
    cases h
    simp only [exec, execLda, execLdx, execLdy, execOra, execAnd, execEor, execBit, execCmp, execCpx, execCpy,
      hread o rfl]
    rfl
  | sta o | stx o | sty o =>
    cases h
    simp only [exec, execSta, execStx, execSty, storeOperand, hresolve o rfl]
    rfl
  | inc o | dec o =>
    cases h
    simp only [exec, execInc, execDec, modifyMemory, hread o rfl,
      haddr o rfl]
    rfl
  | adc o | sbc o =>
    simp only [exec, execAdc_eq, execSbc_eq] at h ⊢
    cases h
    simp only [hresolve o rfl, haddr o rfl,
      hvalue o rfl]
    rfl
  | asl t | lsr t | rol t | ror t =>
    cases h
    cases t with
    | acc => rfl
    | mem o =>
      simp only [exec, execAsl, execLsr, execRol, execRor, shiftTarget_mem_eq, hresolve o rfl,
        haddr o rfl, hvalue o rfl]
      rfl
  | starNop op n =>
    cases n with
    | imp | acc | rel _ | ind _ _ =>
      cases h
      rfl
    | mem o =>
      cases h
      simp only [exec, execStarNop, hresolve o rfl]
      rfl

/-! ### The frame: nothing but what is listed as written changes -/

/-- The outcome keeps every register and flag that the instruction is not listed as writing: noninterference with `s`
itself as the other state. -/
theorem exec_eq_withUnwritten {i : Instr} {s t : State} (h : exec i s = .next t) : t = t.withUnwritten i s := by
  have hs := exec_withUnread h s
  rw [State.withUnread_self, h] at hs
  exact Host.Outcome.next.inj hs

section
variable {i : Instr} {s t : State} (h : exec i s = .next t)
include h

theorem exec_keeps_A (hw : writesA i = false) : t.A = s.A := by
  simpa [State.withUnwritten, hw] using congrArg State.A (exec_eq_withUnwritten h)

theorem exec_keeps_X (hw : writesX i = false) : t.X = s.X := by
  simpa [State.withUnwritten, hw] using congrArg State.X (exec_eq_withUnwritten h)

theorem exec_keeps_Y (hw : writesY i = false) : t.Y = s.Y := by
  simpa [State.withUnwritten, hw] using congrArg State.Y (exec_eq_withUnwritten h)

theorem exec_keeps_SP (hw : writesSP i = false) : t.SP = s.SP := by
  simpa [State.withUnwritten, hw] using congrArg State.SP (exec_eq_withUnwritten h)

theorem exec_keeps_C (hw : writesC i = false) : t.C = s.C := by
  simpa [State.withUnwritten, hw] using congrArg State.C (exec_eq_withUnwritten h)

theorem exec_keeps_Z (hw : writesNZ i = false) : t.Z = s.Z := by
  simpa [State.withUnwritten, hw] using congrArg State.Z (exec_eq_withUnwritten h)

theorem exec_keeps_N (hw : writesNZ i = false) : t.N = s.N := by
  simpa [State.withUnwritten, hw] using congrArg State.N (exec_eq_withUnwritten h)

theorem exec_keeps_I (hw : writesI i = false) : t.I = s.I := by
  simpa [State.withUnwritten, hw] using congrArg State.I (exec_eq_withUnwritten h)

theorem exec_keeps_D (hw : writesD i = false) : t.D = s.D := by
  simpa [State.withUnwritten, hw] using congrArg State.D (exec_eq_withUnwritten h)

theorem exec_keeps_V (hw : writesV i = false) : t.V = s.V := by
  simpa [State.withUnwritten, hw] using congrArg State.V (exec_eq_withUnwritten h)

/-- Noninterference for one update `f` of a register or flag that the instruction is not listed as reading: the outcome
is the same, with the update made to it unless the instruction writes there (`written`). -/
theorem exec_of_unread_update (f : State → State) (written : Bool) (hread : s.withUnread i (f s) = f s)
    (hwrite : t.withUnwritten i (f s) = if written then t.withUnwritten i s else f (t.withUnwritten i s)) :
    exec i (f s) = .next (if written then t else f t) := by
  have hf := exec_withUnread h (f s)
  rwa [hread, hwrite, ← exec_eq_withUnwritten h] at hf

end

/-! ### The statements about registers and flags -/

/-- Settles O11: the flag rows of the frame. -/
theorem flagsWrittenOnlyByListedInstructions : Obligations.FlagsWrittenOnlyByListedInstructions :=
  fun _ _ _ h => ⟨exec_keeps_C h, fun hw => ⟨exec_keeps_Z h hw, exec_keeps_N h hw⟩, exec_keeps_I h, exec_keeps_D h,
    exec_keeps_V h⟩

/-- Settles O13: the register rows of the frame. -/
theorem registersWrittenOnlyByListedInstructions : Obligations.RegistersWrittenOnlyByListedInstructions :=
  fun _ _ _ h => ⟨exec_keeps_A h, exec_keeps_X h, exec_keeps_Y h, exec_keeps_SP h⟩

/-- Settles O12: noninterference, for each flag alone. -/
theorem flagsReadOnlyByListedInstructions : Obligations.FlagsReadOnlyByListedInstructions := by
  intro i s t b h
  refine ⟨fun hr => ?_, fun hr => ?_, fun hr => ?_, fun hr => ?_, fun hr => ?_, fun hr => ?_⟩
  · refine exec_of_unread_update h (fun s => { s with C := b }) _ (by simp [State.withUnread, hr]) ?_
    cases hw : writesC i <;> simp [State.withUnwritten, hw]
  · refine exec_of_unread_update h (fun s => { s with Z := b }) _ (by simp [State.withUnread, hr]) ?_
    cases hw : writesNZ i <;> simp [State.withUnwritten, hw]
  · refine exec_of_unread_update h (fun s => { s with I := b }) _ (by simp [State.withUnread, hr]) ?_
    cases hw : writesI i <;> simp [State.withUnwritten, hw]
  · refine exec_of_unread_update h (fun s => { s with D := b }) _ (by simp [State.withUnread, hr]) ?_
    cases hw : writesD i <;> simp [State.withUnwritten, hw]
  · refine exec_of_unread_update h (fun s => { s with V := b }) _ (by simp [State.withUnread, hr]) ?_
    cases hw : writesV i <;> simp [State.withUnwritten, hw]
  · refine exec_of_unread_update h (fun s => { s with N := b }) _ (by simp [State.withUnread, hr]) ?_
    cases hw : writesNZ i <;> simp [State.withUnwritten, hw]

/-- Settles O14: noninterference, for each register alone. -/
theorem registersReadOnlyByListedInstructions : Obligations.RegistersReadOnlyByListedInstructions := by
  intro i s t v h
  refine ⟨fun hr => ?_, fun hr => ?_, fun hr => ?_⟩
  · refine exec_of_unread_update h (fun s => { s with A := v }) _ (by simp [State.withUnread, hr]) ?_
    cases hw : writesA i <;> simp [State.withUnwritten, hw]
  · refine exec_of_unread_update h (fun s => { s with X := v }) _ (by simp [State.withUnread, hr]) ?_
    cases hw : writesX i <;> simp [State.withUnwritten, hw]
  · refine exec_of_unread_update h (fun s => { s with Y := v }) _ (by simp [State.withUnread, hr]) ?_
    cases hw : writesY i <;> simp [State.withUnwritten, hw]

end Sys2Proof.Machine
end

section
/-! PROOFS. The program counter past an instruction (R14, R15, R73). -/

namespace Sys2Proof.Machine

/-- An operand form moves `PC` past the operand bytes of its mode (R73, R100). -/
theorem resolve_PC_mode (o : Operand) (s : State) :
    (resolve o s).2.PC = s.PC + BitVec.ofNat 16 o.mode.operandCount := by
  rw [resolve_PC, operand_bytes_length]

/-- Past no operand bytes `PC` is where it was. -/
theorem add_no_bytes (pc : Addr) : pc = pc + BitVec.ofNat 16 0 := (BitVec.add_zero pc).symm

/-- `*NOP` moves `PC` past the bytes its mode consumes (R231). -/
theorem execStarNop_PC {op : Byte} {n : NopOperand} {s t : State} (h : execStarNop op n s = .next t) :
    t.PC = s.PC + BitVec.ofNat 16 n.mode.operandCount := by
  cases n with
  | imp | acc => cases h; exact add_no_bytes _
  | rel _ => cases h; rfl
  | ind lo hi =>
    simp only [execStarNop, resolveInd_eq] at h
    cases h; rfl
  | mem o => cases h; exact resolve_PC_mode o s

/-- An instruction that is no control transfer leaves `PC` past its operand bytes (R15). -/
theorem exec_PC {i : Instr} {s t : State} (h : exec i s = .next t) (hi : transfersControl i = false) :
    t.PC = s.PC + BitVec.ofNat 16 i.mode.operandCount := by
  cases i with
  | bpl _ | bmi _ | bvc _ | bvs _ | bcc _ | bcs _ | bne _ | beq _ | jmpAbs _ _ | jmpInd _ _ | jsr _ _ | rts | rti | brk =>
    cases hi
  | clc | sec | cli | sei | cld | sed | clv | tax | tay | txa | tya | txs | tsx | inx | iny | dex | dey | nop | php | plp
  | pha | pla =>
    cases h
    exact add_no_bytes _
  | lda o | ldx o | ldy o | ora o | and o | eor o | bit o | cmp o | cpx o | cpy o | sta o | stx o | sty o | inc o
  | dec o =>
    cases h
    exact resolve_PC_mode o s
  | adc o | sbc o =>
    simp only [exec, execAdc_eq, execSbc_eq] at h
    cases h
    exact resolve_PC_mode o s
  | asl target | lsr target | rol target | ror target =>
    cases target with
    | acc => cases h; exact add_no_bytes _
    | mem o =>
      simp only [exec, execAsl, execLsr, execRol, execRor, shiftTarget_mem_eq] at h
      cases h
      exact resolve_PC_mode o s
  | starNop op n => exact execStarNop_PC (op := op) h

/-- Settles O16: the opcode fetch moves `PC` by one, and the meaning by the operand bytes. -/
theorem programCounterAdvancesByLength : Obligations.ProgramCounterAdvancesByLength := by
  intro s t h hi
  rw [step_eq] at h
  have hpc : t.PC = s.PC + 1 + BitVec.ofNat 16 (instrAtPC s).mode.operandCount := exec_PC h hi
  rw [operandCount_at_PC, hpc]
  simp [BitVec.toNat_add]

end Sys2Proof.Machine
end

section
/-! PROOFS. Who sets and clears interrupt-disable (R18, R245, R246). -/

namespace Sys2Proof.Machine

/-- What an instruction does to `I`: nothing, or what one of its five writers in R18 does. -/
theorem exec_I_cases {i : Instr} {s t : State} (h : exec i s = .next t) :
    t.I = s.I ∨ (i = .sei ∨ i = .brk) ∧ t.I = true ∨ i = .cli ∧ t.I = false ∨
      (i = .plp ∨ i = .rti) ∧ t.I = (s.peek (stackByte (s.SP + 1))).getLsbD 2 := by
  cases i with
  | sei => cases h; exact .inr (.inl ⟨.inl rfl, rfl⟩)
  | brk => cases h; exact .inr (.inl ⟨.inr rfl, State.interrupt_I _ _ _⟩)
  | cli => cases h; exact .inr (.inr (.inl ⟨rfl, rfl⟩))
  | plp =>
    simp only [exec, execPlp, State.pop_eq] at h
    cases h
    exact .inr (.inr (.inr ⟨.inl rfl, rfl⟩))
  | rti =>
    simp only [exec, execRti, State.returnFromInterrupt_eq] at h
    cases h
    exact .inr (.inr (.inr ⟨.inr rfl, rfl⟩))
  | _ => exact .inl (exec_keeps_I h rfl)

/-- The instructions that set `I`. -/
theorem exec_sets_I {i : Instr} {s t : State} (h : exec i s = .next t) (h0 : s.I = false) (h1 : t.I = true) :
    i = .sei ∨ i = .brk ∨ (i = .plp ∨ i = .rti) ∧ (s.peek (stackByte (s.SP + 1))).getLsbD 2 = true := by
  obtain hkeep | ⟨hi, -⟩ | ⟨-, hzero⟩ | ⟨hi, hbit⟩ := exec_I_cases h
  · simp [hkeep, h0] at h1
  · exact hi.imp_right .inl
  · simp [hzero] at h1
  · exact .inr (.inr ⟨hi, hbit.symm.trans h1⟩)

/-- The instructions that clear `I`. -/
theorem exec_clears_I {i : Instr} {s t : State} (h : exec i s = .next t) (h1 : s.I = true) (h0 : t.I = false) :
    i = .cli ∨ (i = .plp ∨ i = .rti) ∧ (s.peek (stackByte (s.SP + 1))).getLsbD 2 = false := by
  obtain hkeep | ⟨-, hone⟩ | ⟨hi, -⟩ | ⟨hi, hbit⟩ := exec_I_cases h
  · simp [hkeep, h1] at h0
  · simp [hone] at h0
  · exact .inl hi
  · exact .inr ⟨hi, hbit.symm.trans h0⟩

/-- Settles O18: a step by its instruction, and the host's other calls each by what it leaves in `I`. -/
theorem interruptDisableChangesOnlyByListedEvents : Obligations.InterruptDisableChangesOnlyByListedEvents := by
  intro c s t h
  cases c with
  | step =>
    have hexec : exec (instrAtPC s) (afterFetch s) = .next t := (step_eq s).symm.trans h
    exact ⟨fun h0 h1 => .inr (.inr (.inr ⟨rfl, exec_sets_I hexec h0 h1⟩)),
      fun h1 h0 => ⟨rfl, exec_clears_I hexec h1 h0⟩⟩
  | irq =>
    cases h
    refine ⟨fun _ _ => .inl rfl, fun h1 h0 => ?_⟩
    rw [State.irq_of_set s h1] at h0
    exact absurd (h0.symm.trans h1) Bool.false_ne_true
  | nmi =>
    cases h
    refine ⟨fun _ _ => .inr (.inl rfl), fun _ h0 => ?_⟩
    rw [State.nmi, State.interrupt_I] at h0
    cases h0
  | reset =>
    cases h
    exact ⟨fun _ _ => .inr (.inr (.inl rfl)), fun _ h0 => Bool.noConfusion h0⟩
  | poke a v =>
    cases h
    exact ⟨fun h0 h1 => absurd (h0.symm.trans h1) Bool.false_ne_true,
      fun h1 h0 => absurd (h0.symm.trans h1) Bool.false_ne_true⟩

end Sys2Proof.Machine
end

section
/-! PROOFS. The stack, the status byte and the reset state (R23, R24, R27 to R31). -/

namespace Sys2Proof.Machine

/-- A pop after a push answers the pushed byte where plain memory stands (R29). -/
theorem State.pop_push_fst (s : State) (v : Byte) (hs : Inv s) (h : s.IsPlain (stackByte s.SP)) :
    (s.push v).pop.1 = v := by
  have hsp : (s.push v).SP + 1 = s.SP := by rw [State.push_SP, BitVec.sub_add_cancel]
  rw [State.pop_eq, hsp]
  exact (storedByte_push s v hs).1 h

/-- Settles O20: push and pop as one update each, and the store of a push. -/
theorem pushAndPop : Obligations.PushAndPop := by
  intro s v hs
  have hsp := s.SP.isLt
  refine ⟨storedByte_push s v hs, by rw [State.push_eq], by rw [State.pop_eq], by rw [State.pop_eq],
    State.pop_push_fst s v hs, ?_, ?_, ?_⟩
  · rw [State.pop_SP, State.push_SP, BitVec.sub_add_cancel]
  · rw [stackByte_toNat]; omega
  · rw [stackByte_toNat]; omega

/-- A flag in the status byte is one bit of it. -/
theorem getElem_statusBit (b : Bool) (place k : Nat) (hk : k < 8) :
    (statusBit b place)[k] = (b && decide (k = place)) := by
  cases b with
  | false => simp [statusBit]
  | true =>
    by_cases hlt : k < place
    · have hne : k ≠ place := by omega
      simp [statusBit, hlt, hne]
    · have hsub : k - place = 0 ↔ k = place := by omega
      simp [statusBit, hlt, hsub]

/-- `PackP` lays the status byte out as in R23. -/
theorem statusByte_packP (s : State) (b : Bool) : StatusByte (s.packP b) s b := by
  simp [StatusByte, State.packP, getElem_statusBit]

/-- `UnpackP` writes the six flags from their bits (R24). -/
theorem flagsFrom_unpackP (s : State) (v : Byte) : FlagsFrom (s.unpackP v) v :=
  ⟨rfl, rfl, rfl, rfl, rfl, rfl⟩

/-- Settles O19: the two columns of R23; that `UnpackP` writes nothing else is its definition. -/
theorem statusByteLayout : Obligations.StatusByteLayout :=
  fun s b v => ⟨statusByte_packP s b, flagsFrom_unpackP s v, rfl⟩

/-- Settles O10: an empty memory is canonical, and the reset transaction is run on the power-on state. -/
theorem resetStateIsCanonical : Obligations.ResetStateIsCanonical := ⟨rfl, rfl⟩

end Sys2Proof.Machine
end

section
/-! PROOFS. What a transaction does on the bus (R40, R41, R43, R48, R59): `BusRun` says which accesses lead from one state
to another, `busRun_exec` says so of every instruction, and the statements about memory are read off it. -/

namespace Sys2Proof.Machine

/-! ### Runs on the bus -/

/-- `t` and `u` differ in registers and flags alone: what stands behind the bus and the record of events are the same. -/
structure SameBus (t u : State) : Prop where
  params : u.params = t.params
  past : u.past = t.past
  trace : u.trace = t.trace
  mem : u.mem = t.mem

/-- `BusRun P s t n ws`: from `s` the machine came to `t` by `n` bus accesses, the writes among them to `ws` in this
order, and by changes of registers and flags. If `P` holds, every read was answered by the bus; without it a byte that the
instruction term holds may have been noted in place of the bus's answer (note 9). -/
inductive BusRun (P : Prop) (s : State) : State → Nat → List Addr → Prop where
  | refl : BusRun P s s 0 []
  | quiet {t u : State} {n : Nat} {ws : List Addr} : BusRun P s t n ws → SameBus t u → BusRun P s u n ws
  | noteRead {t : State} {n : Nat} {ws : List Addr} {a : Addr} {v : Byte} :
      BusRun P s t n ws → (P → v = t.peek a) → BusRun P s (t.noteRead a v) (n + 1) ws
  | memWrite {t : State} {n : Nat} {ws : List Addr} (a : Addr) (v : Byte) :
      BusRun P s t n ws → BusRun P s (t.memWrite a v) (n + 1) (ws ++ [a])

/-! ### What every run on the bus keeps -/

/-- Each read of the current transaction behind which no plain memory stands was answered by the oracle, applied to all
that had happened on the bus before it (R41). -/
def OracleAnswered (s : State) : Prop :=
  ∀ (k : Nat) (a : Addr) (v : Byte), s.trace[k]? = some (.read a v) → ¬ s.IsPlain a →
    v = Config.busAnswer (s.past ++ s.trace.take k) a

theorem oracleAnswered_beginTransaction (s : State) : OracleAnswered s.beginTransaction := by
  simp [OracleAnswered]

/-- One more event keeps `OracleAnswered` if it is no read of a device or the oracle's answer to one. -/
theorem OracleAnswered.append {s t : State} (h : OracleAnswered s) {e : BusAccess} (hparams : t.params = s.params)
    (hpast : t.past = s.past) (htrace : t.trace = s.trace ++ [e])
    (he : ∀ a v, e = .read a v → ¬ s.IsPlain a → v = Config.busAnswer s.history a) : OracleAnswered t := by
  intro k a v hk ha
  rw [State.IsPlain, hparams] at ha
  rw [htrace] at hk
  rw [htrace, hpast]
  have hlen := (List.getElem?_eq_some_iff.mp hk).1
  rw [List.length_append, List.length_singleton] at hlen
  obtain hlt | rfl := Nat.lt_succ_iff_lt_or_eq.mp hlen
  · rw [List.getElem?_append_left hlt] at hk
    rw [List.take_append_of_le_length hlt.le]
    exact h k a v hk ha
  · rw [List.getElem?_concat_length] at hk
    rw [List.take_left]
    exact he a v (Option.some.inj hk) ha

theorem OracleAnswered.noteRead {s : State} (h : OracleAnswered s) (a : Addr) :
    OracleAnswered (s.noteRead a (s.peek a)) :=
  h.append rfl rfl rfl fun _ _ he hd => by cases he; exact State.peek_device hd

namespace BusRun
variable {P : Prop} {s t : State} {n : Nat} {ws : List Addr}

theorem params_eq (h : BusRun P s t n ws) : t.params = s.params := by
  induction h with
  | refl => rfl
  | quiet _ hsame ih => exact hsame.params.trans ih
  | noteRead _ _ ih | memWrite _ _ _ ih => exact ih

theorem past_eq (h : BusRun P s t n ws) : t.past = s.past := by
  induction h with
  | refl => rfl
  | quiet _ hsame ih => exact hsame.past.trans ih
  | noteRead _ _ ih | memWrite _ _ _ ih => exact ih

theorem trace_length (h : BusRun P s t n ws) : t.trace.length = s.trace.length + n := by
  induction h with
  | refl => rfl
  | quiet _ hsame ih => rw [hsame.trace, ih]
  | noteRead _ _ ih => rw [State.noteRead_trace, List.length_append, ih]; rfl
  | memWrite _ _ _ ih => rw [State.memWrite_trace, List.length_append, ih]; rfl

theorem keeps_inv (h : BusRun P s t n ws) (hs : Inv s) : Inv t := by
  induction h with
  | refl => exact hs
  | quiet _ hsame ih => exact inv_of_mem_eq ih hsame.mem
  | noteRead _ _ ih => exact ih
  | memWrite a v _ ih => exact inv_of_store ih (State.memWrite_mem _ a v)

theorem mem_eq (h : BusRun P s t n ws) (hws : ws = []) : t.mem = s.mem := by
  induction h with
  | refl => rfl
  | quiet _ hsame ih => exact hsame.mem.trans (ih hws)
  | noteRead _ _ ih => exact ih hws
  | memWrite _ _ _ _ => exact absurd hws (List.concat_ne_nil _ _)

theorem read_other (h : BusRun P s t n ws) {a : Addr} (ha : a ∉ ws) :
    Memory.read t.mem a.toNat = Memory.read s.mem a.toNat := by
  induction h with
  | refl => rfl
  | quiet _ hsame ih => rw [hsame.mem, ih ha]
  | noteRead _ _ ih => exact ih ha
  | memWrite b v _ ih =>
    rw [List.mem_append, List.mem_singleton, not_or] at ha
    rw [State.memWrite_mem, Memory.read_store_other _ _ _ _ _ ha.2, ih ha.1]

theorem peek_other (h : BusRun P s t n ws) {a : Addr} (ha : a ∉ ws) (hplain : s.IsPlain a) : t.peek a = s.peek a := by
  have hplain' : t.IsPlain a := by rwa [State.IsPlain, h.params_eq]
  rw [State.peek_plain hplain', State.peek_plain hplain, h.read_other ha]

theorem oracleAnswered (h : BusRun P s t n ws) (hP : P) (hs : OracleAnswered s) : OracleAnswered t := by
  induction h with
  | refl => exact hs
  | quiet _ hsame ih => simpa only [OracleAnswered, State.IsPlain, hsame.params, hsame.past, hsame.trace] using ih
  | noteRead _ hv ih => rw [hv hP]; exact ih.noteRead _
  | memWrite _ _ _ ih => exact ih.append rfl rfl rfl fun _ _ he => nomatch he

end BusRun

/-! ### The operand bytes of an instruction term (note 9) -/

/-- The operand bytes are those that the bus answers at `PC`. -/
def OperandAnswered (bytes : List Byte) (s : State) : Prop := bytes <+: s.answersAt [s.PC, s.PC + 1]

theorem OperandAnswered.one {d8 : Byte} {s : State} (h : OperandAnswered [d8] s) : d8 = s.peek s.PC := by
  simpa [OperandAnswered, State.answersAt_two] using h

theorem OperandAnswered.two {lo hi : Byte} {s : State} (h : OperandAnswered [lo, hi] s) :
    lo = s.peek s.PC ∧ hi = (s.takeOperand lo).peek (s.PC + 1) := by
  rw [OperandAnswered, State.answersAt_two, List.cons_prefix_cons, List.cons_prefix_cons] at h
  obtain ⟨rfl, hhi, -⟩ := h
  exact ⟨rfl, hhi⟩

/-- The instruction that a step dispatches holds the bytes that the bus answers (R75). -/
theorem operandAnswered_at_PC (s : State) : OperandAnswered (instrAtPC s).operandBytes (afterFetch s) := by
  have hdispatch : instrAtPC s = (afterFetch s).dispatchAt (s.peek s.PC) := by
    rw [afterFetch, ← State.beginTransaction_peek]
    rfl
  rw [hdispatch, State.dispatchAt, decodeOpcode_operandBytes]
  exact List.take_prefix _ _

/-! ### The shared operations as runs on the bus -/

namespace BusRun
variable {P : Prop} {s t : State} {n : Nat} {ws : List Addr} (h : BusRun P s t n ws)
include h

theorem memRead (a : Addr) : BusRun P s (t.memRead a).2 (n + 1) ws := h.noteRead fun _ => rfl

theorem deref16 (p : Addr) : BusRun P s (t.deref16 p).2 (n + 2) ws := (h.memRead p).memRead (p + 1)

theorem takeOperand {d8 : Byte} (hd : P → OperandAnswered [d8] t) : BusRun P s (t.takeOperand d8) (n + 1) ws :=
  (h.noteRead fun hP => (hd hP).one).quiet ⟨rfl, rfl, rfl, rfl⟩

theorem takeOperand16 {lo hi : Byte} (hb : P → OperandAnswered [lo, hi] t) :
    BusRun P s (t.takeOperand16 lo hi) (n + 2) ws := by
  have hlo : BusRun P s (t.takeOperand lo) (n + 1) ws :=
    (h.noteRead fun hP => (hb hP).two.1).quiet ⟨rfl, rfl, rfl, rfl⟩
  exact (hlo.noteRead fun hP => (hb hP).two.2).quiet ⟨rfl, rfl, rfl, rfl⟩

theorem push (v : Byte) : BusRun P s (t.push v) (n + 1) (ws ++ [stackByte t.SP]) := by
  rw [← State.stackAddr_eq]
  exact (h.memWrite t.stackAddr v).quiet ⟨rfl, rfl, rfl, rfl⟩

theorem pop : BusRun P s t.pop.2 (n + 1) ws :=
  (h.quiet (u := { t with SP := t.SP + 1 }) ⟨rfl, rfl, rfl, rfl⟩).memRead _

theorem loadVector (vec : Addr) : BusRun P s (t.loadVector vec) (n + 2) ws :=
  (h.deref16 vec).quiet ⟨rfl, rfl, rfl, rfl⟩

theorem interrupt (vec : Addr) (b : Bool) :
    BusRun P s (t.interrupt vec b) (n + 5) (ws ++ [stackByte t.SP, stackByte (t.SP - 1), stackByte (t.SP - 2)]) := by
  have hpush := ((h.push (hiByte t.PC)).push (loByte t.PC)).push
    (((t.push (hiByte t.PC)).push (loByte t.PC)).packP b)
  simp only [State.push_SP, sub_one_sub_one, List.append_assoc, List.cons_append, List.nil_append] at hpush
  refine loadVector (hpush.quiet ?_) vec
  exact ⟨rfl, rfl, rfl, rfl⟩

theorem returnFromInterrupt : BusRun P s t.returnFromInterrupt (n + 3) ws :=
  (h.pop.quiet (u := t.pop.2.unpackP t.pop.1) ⟨rfl, rfl, rfl, rfl⟩).pop.pop.quiet ⟨rfl, rfl, rfl, rfl⟩

theorem derefZP (wrap : Bool) (z : Byte) : BusRun P s (derefZP wrap z t).2 (n + 2) ws :=
  (h.memRead (zext16 z)).memRead (pointerHighAddr wrap z)

theorem branch {d8 : Byte} (hd : P → OperandAnswered [d8] t) (cond : Bool) :
    BusRun P s (branch cond d8 t) (n + 1) ws := by
  cases cond with
  | false => exact h.takeOperand hd
  | true => exact (h.takeOperand hd).quiet ⟨rfl, rfl, rfl, rfl⟩

end BusRun

section
variable {P : Prop} {o : Operand} {s : State} (ho : P → OperandAnswered o.bytes s)
include ho

/-- The resolver makes the operand reads and the pointer reads of its mode (R59). -/
theorem busRun_resolve : BusRun P s (resolve o s).2 (operandReads o.mode + pointerReads o.mode) [] := by
  have hstart : BusRun P s s 0 [] := .refl
  cases o with
  | imm _ => exact hstart.quiet ⟨rfl, rfl, rfl, rfl⟩
  | zp _ | zpx _ | zpy _ => exact hstart.takeOperand ho
  | abs _ _ | abx _ _ | aby _ _ => exact hstart.takeOperand16 ho
  | izx _ | izy _ => exact (hstart.takeOperand ho).derefZP _ _

theorem busRun_readOperand : BusRun P s (readOperand o s).2 (operandReads o.mode + pointerReads o.mode + 1) [] := by
  refine (busRun_resolve ho).noteRead fun hP => operandValue_eq_peek o s fun himm => ?_
  cases o with
  | imm d8 => exact congrArg (fun v => [v]) (ho hP).one
  | _ => cases himm

theorem busRun_storeOperand (v : Byte) :
    BusRun P s (storeOperand o v s) (operandReads o.mode + pointerReads o.mode + 1) [effectiveAddr o s] :=
  (busRun_resolve ho).memWrite (effectiveAddr o s) v

theorem busRun_modifyMemory (f : Byte → Byte) :
    BusRun P s (modifyMemory o f s) (operandReads o.mode + pointerReads o.mode + 2) [effectiveAddr o s] :=
  ((busRun_readOperand ho).memWrite (effectiveAddr o s) _).quiet ⟨rfl, rfl, rfl, rfl⟩

theorem busRun_shiftMemory (f : Byte → Bool → Byte) (out : Byte → Bool) :
    BusRun P s (shiftTarget (.mem o) f out s) (operandReads o.mode + pointerReads o.mode + 2) [effectiveAddr o s] :=
  (busRun_modifyMemory ho fun v => f v s.C).quiet ⟨rfl, rfl, rfl, rfl⟩

end

/-! ### Every instruction as a run on the bus -/

/-- The accesses of a meaning: the operand and pointer reads of the mode and the handler's own (R59), with writes to the
addresses of R48 and no others. -/
theorem busRun_exec {i : Instr} {s t : State} (h : exec i s = .next t) :
    BusRun (OperandAnswered i.operandBytes s) s t (operandReads i.mode + pointerReads i.mode + handlerAccesses i)
      (storedAddrs i s) := by
  have hstart : BusRun (OperandAnswered i.operandBytes s) s s 0 [] := .refl
  cases i with
  | bpl _ | bmi _ | bvc _ | bvs _ | bcc _ | bcs _ | bne _ | beq _ =>
    cases h
    exact hstart.branch id _
  | clc | sec | cli | sei | cld | sed | clv | tax | tay | txa | tya | txs | tsx | inx | iny | dex | dey | nop =>
    cases h
    exact hstart.quiet ⟨rfl, rfl, rfl, rfl⟩
  | jmpAbs lo hi =>
    cases h
    exact (hstart.takeOperand16 id).quiet ⟨rfl, rfl, rfl, rfl⟩
  | jmpInd lo hi =>
    cases h
    exact ((hstart.takeOperand16 id).deref16 _).quiet ⟨rfl, rfl, rfl, rfl⟩
  | jsr lo hi =>
    cases h
    exact (((hstart.takeOperand16 id).push (hiByte ((s.takeOperand16 lo hi).PC - 1))).push
      (loByte ((s.takeOperand16 lo hi).PC - 1))).quiet ⟨rfl, rfl, rfl, rfl⟩
  | rts =>
    cases h
    exact hstart.pop.pop.quiet ⟨rfl, rfl, rfl, rfl⟩
  | brk =>
    cases h
    exact (hstart.quiet (u := s.advance) ⟨rfl, rfl, rfl, rfl⟩).interrupt _ _
  | rti =>
    cases h
    exact hstart.returnFromInterrupt
  | php | pha =>
    cases h
    exact hstart.push _
  | plp | pla =>
    cases h
    exact hstart.pop.quiet ⟨rfl, rfl, rfl, rfl⟩
  | lda o | ldx o | ldy o | ora o | and o | eor o | bit o | cmp o | cpx o | cpy o =>
    cases h
    exact (busRun_readOperand id).quiet ⟨rfl, rfl, rfl, rfl⟩
  | adc o | sbc o =>
    simp only [exec, execAdc_eq, execSbc_eq] at h
    cases h
    exact (busRun_readOperand id).quiet ⟨by simp, by simp, by simp, by simp⟩
  | sta o | stx o | sty o =>
    cases h
    exact busRun_storeOperand id _
  | inc o | dec o =>
    cases h
    exact busRun_modifyMemory id _
  | asl target | lsr target | rol target | ror target =>
    cases h
    cases target with
    | acc => exact hstart.quiet ⟨rfl, rfl, rfl, rfl⟩
    | mem o => exact busRun_shiftMemory id _ _
  | starNop op o =>
    cases o with
    | imp | acc => cases h; exact hstart
    | rel _ => cases h; exact hstart.takeOperand id
    | ind _ _ => cases h; exact (hstart.takeOperand16 id).deref16 _
    | mem o => cases h; exact busRun_resolve id

/-! ### The statements about memory and the bus -/

/-- An interrupt at the beginning of a transaction keeps the canonical form and the open parameters. -/
theorem interrupt_keeps (s : State) (vec : Addr) (b : Bool) :
    (Inv s → Inv (s.beginTransaction.interrupt vec b)) ∧ (s.beginTransaction.interrupt vec b).params = s.params :=
  ⟨inv_interrupt s.beginTransaction vec b, State.interrupt_params s.beginTransaction vec b⟩

/-- Settles O9, by the case of the host's call: a step is a run on the bus, an interrupt and the host's own write are
stores, and a reset and a masked IRQ store nothing. -/
theorem memoryStaysCanonical : Obligations.MemoryStaysCanonical := by
  intro c s t h
  cases c with
  | step =>
    have hrun := busRun_exec ((step_eq s).symm.trans h)
    exact ⟨hrun.keeps_inv, hrun.params_eq⟩
  | irq =>
    cases h
    cases hI : s.I with
    | true => rw [State.irq_of_set s hI]; exact ⟨id, rfl⟩
    | false => rw [State.irq_of_clear s hI]; exact interrupt_keeps s irqVector false
  | nmi =>
    cases h
    exact interrupt_keeps s nmiVector false
  | reset =>
    cases h
    exact ⟨id, rfl⟩
  | poke a v =>
    cases h
    exact ⟨fun hs => inv_of_store hs (State.poke_mem s a v), State.poke_params s a v⟩

/-- Settles O15: the writes of the instruction's run on the bus are to the addresses of R48. -/
theorem memoryChangesOnlyWhereStored : Obligations.MemoryChangesOnlyWhereStored := by
  intro i s t h
  have hrun := busRun_exec h
  exact ⟨fun _ => hrun.peek_other, hrun.mem_eq, hrun.params_eq⟩

/-- The opcode fetch is answered by the bus (R75). -/
theorem oracleAnswered_afterFetch (s : State) : OracleAnswered (afterFetch s) := by
  rw [afterFetch, ← State.beginTransaction_peek]
  exact (oracleAnswered_beginTransaction s).noteRead s.PC

/-- Settles O17: the opcode fetch and the run on the bus of the instruction, whose operand bytes the bus answered. -/
theorem busAccessCountOfStep : Obligations.BusAccessCountOfStep := by
  intro s t h
  have hrun := busRun_exec ((step_eq s).symm.trans h)
  refine ⟨?_, hrun.past_eq, fun k a v hk ha => ?_⟩
  · rw [hrun.trace_length, ← Nat.add_assoc, ← Nat.add_assoc]
    rfl
  · have hplain : ¬ t.IsPlain a := by rwa [State.IsPlain, hrun.params_eq]
    exact hrun.oracleAnswered (operandAnswered_at_PC s) (oracleAnswered_afterFetch s) k a v hk hplain

end Sys2Proof.Machine
end

section
/-! PROOFS. Decoding and encoding are inverse (R70, R71, R77, R78, R80 to R82): a decode reads an opcode byte and the
operand bytes of the instruction it answers, and the opcode map of R77 and the table by mnemonic of R78 agree cell by
cell. -/

namespace Sys2Proof

/-! ### Decoding a list of bytes -/

/-- The opcode byte and the operand bytes of its instruction decode to it, whatever follows (R70, R71). -/
theorem decode_operandBytes (p : IllegalModes) (op lo hi : Byte) (rest : List Byte) :
    decode p (op :: (decodeOpcode p op lo hi).operandBytes ++ rest) = .ok (decodeOpcode p op lo hi, rest) := by
  obtain ⟨hnone, hone⟩ := decodeOpcode_unused p op lo hi
  have hle := operandCount_le p op
  rw [decodeOpcode_operandBytes]
  interval_cases hn : operandCount p op
  · simp [decode, hn, hnone rfl]
  · simp [decode, hn, hone rfl]
  · simp [decode, hn]

/-- Whatever decodes was read from an opcode byte of the map and the operand bytes of the instruction (R70, R74). -/
theorem decode_ok {p : IllegalModes} {bytes rest : List Byte} {i : Instr} (h : decode p bytes = .ok (i, rest)) :
    ∃ op lo hi, i = decodeOpcode p op lo hi ∧ bytes = op :: i.operandBytes ++ rest := by
  unfold decode at h
  split at h
  next => cases h
  next op _ =>
    split at h
    next hn => cases h; exact ⟨op, 0, 0, rfl, by simp [decodeOpcode_operandBytes, hn]⟩
    next d8 _ hn => cases h; exact ⟨op, d8, 0, rfl, by simp [decodeOpcode_operandBytes, hn]⟩
    next lo hi _ hn => cases h; exact ⟨op, lo, hi, rfl, by simp [decodeOpcode_operandBytes, hn]⟩
    next => cases h

/-- With two bytes or more after the opcode a decode succeeds, and leaves the bytes after the operand (R70). -/
theorem decode_three (p : IllegalModes) (op lo hi : Byte) (rest : List Byte) :
    decode p (op :: lo :: hi :: rest) =
      .ok (decodeOpcode p op lo hi, (lo :: hi :: rest).drop (operandCount p op)) := by
  have htake : [lo, hi].take (operandCount p op) = (lo :: hi :: rest).take (operandCount p op) :=
    (List.take_append_of_le_length (operandCount_le p op)).symm
  have h := decode_operandBytes p op lo hi ((lo :: hi :: rest).drop (operandCount p op))
  rwa [decodeOpcode_operandBytes, htake, List.cons_append, List.take_append_drop] at h

/-! ### From R77 to R78 -/

/-- The table by mnemonic gives a decoded instruction the opcode byte it was decoded from (R78, R82). -/
theorem opcode_decodeOpcode (p : IllegalModes) (op lo hi : Byte) : (decodeOpcode p op lo hi).opcode = some op := by
  induction op using forall_opcode with | _ n
  fin_cases n <;> rfl

/-- A documented cell of R77 holds an encoding of R78, and `ILLEGAL_MODE` does not reach it. -/
theorem wellFormed_opcodeCell {op : Byte} {f : Byte → Byte → Instr} (h : opcodeCell op = some f) (p : IllegalModes)
    (lo hi : Byte) : wellFormed p (f lo hi) = true := by
  induction op using forall_opcode with | _ n
  fin_cases n <;> cases h <;> rfl

/-- The dispatcher yields encodings only (R74, R78, R82). -/
theorem wellFormed_decodeOpcode (p : IllegalModes) (op lo hi : Byte) :
    wellFormed p (decodeOpcode p op lo hi) = true := by
  cases hm : illegalMode p op with
  | some m => simp [decodeOpcode_undocumented p op lo hi m hm, wellFormed, wellFormedStarNop, hm]
  | none =>
    have hcell : (opcodeCell op).isSome = true := by
      rw [← Option.not_isNone, opcodeCell_isNone p, hm]; rfl
    obtain ⟨f, hf⟩ := Option.isSome_iff_exists.mp hcell
    simpa only [decodeOpcode, hf] using wellFormed_opcodeCell hf p lo hi

/-- Settles O2: a decode is read from an opcode byte and operand bytes, and both are what the encoder writes. -/
theorem encodeOfDecode : Obligations.EncodeOfDecode := by
  intro p bytes rest i h
  obtain ⟨op, lo, hi, rfl, rfl⟩ := decode_ok h
  exact ⟨wellFormed_decodeOpcode p op lo hi, by rw [encode, opcode_decodeOpcode]⟩

/-! ### From R78 to R77 -/

/-- The first operand byte, or zero where there is none. -/
def Instr.firstByte (i : Instr) : Byte := i.operandBytes.getD 0 0

/-- The second operand byte, or zero where there is none. -/
def Instr.secondByte (i : Instr) : Byte := i.operandBytes.getD 1 0

/-- What `*NOP` consumes is made from its mode and its own bytes (R231). -/
theorem NopOperand.ofMode_self (o : NopOperand) : NopOperand.ofMode o.mode (o.bytes.getD 0 0) (o.bytes.getD 1 0) = o := by
  cases o with
  | imp | acc | rel _ | ind _ _ => rfl
  | mem o => cases o <;> rfl

/-- A well-formed instruction stands in R77 at its opcode byte of R78, with its own operand bytes: by the row of R78, and
in each row by its columns. -/
theorem exists_opcode_of_wellFormed {p : IllegalModes} {i : Instr} (h : wellFormed p i = true) :
    ∃ op, i.opcode = some op ∧ decodeOpcode p op i.firstByte i.secondByte = i := by
  cases i with
  | starNop op o =>
    have hm : illegalMode p op = some o.mode := by simpa [wellFormed, wellFormedStarNop] using h
    refine ⟨op, rfl, ?_⟩
    rw [decodeOpcode_undocumented p op _ _ _ hm]
    exact congrArg (Instr.starNop op) o.ofMode_self
  | ora o | and o | eor o | adc o | lda o | cmp o | sbc o =>
    cases o with
    | zpy _ => cases h
    | _ => exact ⟨_, rfl, rfl⟩
  | sta o =>
    cases o with
    | imm _ | zpy _ => cases h
    | _ => exact ⟨_, rfl, rfl⟩
  | asl t | rol t | lsr t | ror t =>
    cases t with
    | acc => exact ⟨_, rfl, rfl⟩
    | mem o =>
      cases o with
      | zp _ | zpx _ | abs _ _ | abx _ _ => exact ⟨_, rfl, rfl⟩
      | _ => cases h
  | dec o | inc o =>
    cases o with
    | zp _ | zpx _ | abs _ _ | abx _ _ => exact ⟨_, rfl, rfl⟩
    | _ => cases h
  | ldx o =>
    cases o with
    | imm _ | zp _ | zpy _ | abs _ _ | aby _ _ => exact ⟨_, rfl, rfl⟩
    | _ => cases h
  | ldy o =>
    cases o with
    | imm _ | zp _ | zpx _ | abs _ _ | abx _ _ => exact ⟨_, rfl, rfl⟩
    | _ => cases h
  | stx o =>
    cases o with
    | zp _ | zpy _ | abs _ _ => exact ⟨_, rfl, rfl⟩
    | _ => cases h
  | sty o =>
    cases o with
    | zp _ | zpx _ | abs _ _ => exact ⟨_, rfl, rfl⟩
    | _ => cases h
  | cpx o | cpy o =>
    cases o with
    | imm _ | zp _ | abs _ _ => exact ⟨_, rfl, rfl⟩
    | _ => cases h
  | bit o =>
    cases o with
    | zp _ | abs _ _ => exact ⟨_, rfl, rfl⟩
    | _ => cases h
  | _ => exact ⟨_, rfl, rfl⟩

/-- Settles O1: the encoder's opcode byte stands for the instruction in R77, and its operand bytes follow. -/
theorem decodeOfEncode : Obligations.DecodeOfEncode := by
  intro p i rest h
  obtain ⟨op, hop, hi⟩ := exists_opcode_of_wellFormed h
  have hdecode := decode_operandBytes p op i.firstByte i.secondByte rest
  rw [hi] at hdecode
  rwa [encode, hop]

/-- Settles O3: the count of operand bytes, and a decode with two bytes or more after the opcode. -/
theorem everyOpcodeByteDecodes : Obligations.EveryOpcodeByteDecodes := by
  intro p op
  have hle := operandCount_le p op
  refine ⟨by omega, fun lo hi rest => ?_⟩
  rw [decode_three, Nat.add_comm, List.drop_succ_cons]

/-! ### Undocumented opcodes (R80 to R82) -/

/-- The `*` cells of R77 are the listing by low nibble of R80. -/
theorem opcodeCell_isNone_iff : ∀ op : Byte, (opcodeCell op).isNone = true ↔
    let row := op.toNat / 16
    let column := op.toNat % 16
    column = 2 ∧ row ≠ 10 ∨ column ∈ [3, 7, 11, 15] ∨ column = 4 ∧ row ∈ [0, 1, 3, 4, 5, 6, 7, 13, 15] ∨
    column = 10 ∧ row ∈ [1, 3, 5, 7, 13, 15] ∨ column = 12 ∧ row ∈ [0, 1, 3, 5, 7, 9, 13, 15] ∨
    op = 0x80 ∨ op = 0x89 ∨ op = 0x9E := by decide

/-- An undocumented opcode in implied mode is one byte long (R73, R231). -/
theorem decode_of_illegalMode_imp {p : IllegalModes} {op : Byte} (h : illegalMode p op = some .imp) (rest : List Byte) :
    decode p (op :: rest) = .ok (.starNop op .imp, rest) := by
  have hdecode := decode_operandBytes p op 0 0 rest
  rwa [decodeOpcode_undocumented p op 0 0 .imp h] at hdecode

/-- Settles O4: the `*` cells of R77 checked byte by byte against R80 and counted, and the dispatcher at an undocumented opcode. -/
theorem undocumentedOpcodesAreNoOperations : Obligations.UndocumentedOpcodesAreNoOperations := by
  refine ⟨fun p op => ?_, fun p => ?_, fun p op lo hi m hm => ?_, fun op hop rest => ?_⟩
  · rw [← opcodeCell_isNone]
    exact opcodeCell_isNone_iff op
  · simp only [← opcodeCell_isNone]
    decide
  · exact ⟨_, decodeOpcode_undocumented p op lo hi m hm, NopOperand.ofMode_mode m lo hi⟩
  · have himp : illegalMode .default op = some .imp := by
      revert op
      decide
    exact decode_of_illegalMode_imp himp rest

/-- Settles O5: the decoder evaluated on each of the nine words. -/
theorem writtenOutWordsDecode : Obligations.WrittenOutWordsDecode :=
  ⟨rfl, rfl, rfl, rfl, rfl, rfl, rfl, rfl, rfl⟩

end Sys2Proof
end

section
/-! PROOFS. What a step decodes (R75): the bytes the bus answers at `PC`, and those that the host has placed there. -/

namespace Sys2Proof.Machine

/-- The three bytes answered at `PC` decode to the instruction that the step runs (R75). -/
theorem instrAtPC_of_decode {s : State} {i : Instr} {rest : List Byte}
    (h : decode s.params.illegal (s.answersAt [s.PC, s.PC + 1, s.PC + 2]) = .ok (i, rest)) : instrAtPC s = i := by
  rw [State.answersAt_three, decode_three] at h
  cases h
  exact instrAtPC_eq s (State.answersAt_three s _ _ _)

/-- Settles O7: a step runs the instruction at `PC` after the opcode fetch, and the bytes answered decode to it. -/
theorem stepRunsDecodedInstruction : Obligations.StepRunsDecodedInstruction := by
  intro s i rest h
  rw [step_eq, instrAtPC_of_decode h, afterFetch]

/-- A word that holds an instruction is the first three bytes decoded (note 14). -/
theorem decodeTableWordWith_some {p : IllegalModes} {nbits w : Nat} {i : Instr}
    (h : decodeTableWordWith p nbits w = some i) :
    ∃ rest, decode p [tableByte nbits w 0, tableByte nbits w 1, tableByte nbits w 2] = .ok (i, rest) := by
  unfold decodeTableWordWith at h
  split at h
  next => cases h
  next =>
    split at h
    next rest hdecode => cases h; exact ⟨rest, hdecode⟩
    next => cases h

/-- Placing a word is no event on the bus, and changes the list of oracle addresses alone among the parameters. -/
@[simp] theorem State.withFetchWord_history (s : State) (nbits w : Nat) :
    (s.withFetchWord nbits w).history = s.history := rfl

@[simp] theorem State.withFetchWord_illegal (s : State) (nbits w : Nat) :
    (s.withFetchWord nbits w).params.illegal = s.params.illegal := rfl

@[simp] theorem State.withFetchWord_PC (s : State) (nbits w : Nat) : (s.withFetchWord nbits w).PC = s.PC := rfl

/-- The opcode byte of a placed word is its low byte (note 14). -/
theorem State.peek_withFetchWord_PC (s : State) (nbits w : Nat) (h : Inv s) :
    (s.withFetchWord nbits w).peek s.PC = BitVec.ofNat 8 (w % 2 ^ nbits) := by
  have hbytes := s.withFetchWord_answersAt nbits w h
  rw [State.answersAt_three] at hbytes
  have hop : (s.withFetchWord nbits w).peek s.PC = tableByte nbits w 0 := (List.cons.inj hbytes).1
  rw [hop, tableByte, Nat.pow_zero, Nat.div_one]

/-- Settles O6: the placed bytes are answered where the step fetches, and they are the bytes decoded. -/
theorem withFetchWordRunsTheWord : Obligations.WithFetchWordRunsTheWord := by
  refine ⟨fun s nbits w i hs h => ?_, rfl⟩
  obtain ⟨rest, hdecode⟩ := decodeTableWordWith_some h
  rw [← s.withFetchWord_answersAt nbits w hs] at hdecode
  have hstep := stepRunsDecodedInstruction (s.withFetchWord nbits w) i rest hdecode
  rwa [State.withFetchWord_PC, State.withFetchWord_history, State.peek_withFetchWord_PC s nbits w hs] at hstep

end Sys2Proof.Machine
end

section
/-! PROOFS. Addressing (R103 to R116): the effective address of each mode as a number, the resolver's reads, and the byte
at the effective address. -/

namespace Sys2Proof.Machine

/-! ### Address arithmetic as numbers -/

/-- Zero-page indexing wraps in page 0 (R106, R107). -/
theorem zext16_add (z x : Byte) : zext16 (z + x) = BitVec.ofNat 16 ((z.toNat + x.toNat) % 256) := by
  rw [zext16_eq, BitVec.toNat_add]

/-- Absolute indexing carries into the high byte and wraps at 65536 (R109, R110, R115). -/
theorem word_add_zext16 (hi lo x : Byte) :
    word hi lo + zext16 x = BitVec.ofNat 16 ((256 * hi.toNat + lo.toNat + x.toNat) % 65536) := by
  apply BitVec.eq_of_toNat_eq
  rw [BitVec.toNat_add, word_toNat, zext16_toNat, BitVec.toNat_ofNat, Nat.mod_mod]

/-- A signed displacement is added modulo 65536 (R104). -/
theorem add_sext16_toNat (pc : Addr) (d8 : Byte) :
    ((pc + sext16 d8).toNat : Int) = (pc.toNat + d8.toInt) % 65536 := by
  rw [sext16_eq, BitVec.toNat_add, BitVec.toNat_ofInt]
  omega

/-- Where the high byte of a zero-page pointer is read from, as a number (R112). -/
theorem pointerHighAddr_eq (wrap : Bool) (z : Byte) : pointerHighAddr wrap z =
    if z.toNat = 255 then (if wrap then 0x0000 else 0x0100) else BitVec.ofNat 16 (z.toNat + 1) := by
  have hlast : z = 0xFF ↔ z.toNat = 255 := BitVec.toNat_inj.symm
  rw [pointerHighAddr]
  by_cases hz : z.toNat = 255
  · rw [if_pos hz, if_pos (hlast.mpr hz)]
  · have hlt : z.toNat + 1 < 256 := by omega
    rw [if_neg hz, if_neg (mt hlast.mp hz), zext16_add]
    exact congrArg (BitVec.ofNat 16) (Nat.mod_eq_of_lt hlt)

/-! ### The modes -/

/-- Settles O32: each mode takes its operand bytes, and its address is a number by the address arithmetic above. -/
theorem directModes : Obligations.DirectModes := by
  intro s d8 lo hi
  refine ⟨rfl, fun o ea h => ?_, fun o ea h => ?_⟩
  all_goals simp only [List.mem_cons, List.not_mem_nil, or_false, Prod.mk.injEq] at h
  · obtain ⟨rfl, rfl⟩ | ⟨rfl, rfl⟩ | ⟨rfl, rfl⟩ := h
    · exact Prod.ext (zext16_eq d8) rfl
    · exact Prod.ext (zext16_add d8 s.X) rfl
    · exact Prod.ext (zext16_add d8 s.Y) rfl
  · obtain ⟨rfl, rfl⟩ | ⟨rfl, rfl⟩ | ⟨rfl, rfl⟩ := h
    · exact Prod.ext (word_eq hi lo) (s.takeOperand16_eq lo hi)
    · exact Prod.ext (word_add_zext16 hi lo s.X) (s.takeOperand16_eq lo hi)
    · exact Prod.ext (word_add_zext16 hi lo s.Y) (s.takeOperand16_eq lo hi)

/-- `DerefZP` answers the word of the two bytes that the bus answers, low byte first, and notes the two reads (R112). -/
theorem derefZP_eq {wrap : Bool} {z : Byte} {s : State} {lo hi : Byte}
    (h : s.answersAt [zext16 z, pointerHighAddr wrap z] = [lo, hi]) :
    derefZP wrap z s = (word hi lo, { s with
      trace := s.trace ++ [.read (zext16 z) lo, .read (pointerHighAddr wrap z) hi] }) := by
  rw [State.answersAt_two] at h
  cases h
  simp [derefZP, State.memRead, State.noteRead]

/-- Settles O33: both modes are `DerefZP` after the operand byte was taken; the second adds `Y` to what it answers. -/
theorem zeroPagePointerModes : Obligations.ZeroPagePointerModes := by
  intro wrap s d8 lo hi z lowAt highAt h pointer after
  have hderef : ∀ b : Byte, b.toNat = z → derefZP wrap b (s.takeOperand d8) = (word hi lo, after) := by
    rintro b rfl
    have hlow : zext16 b = lowAt := zext16_eq b
    have hhigh : pointerHighAddr wrap b = highAt := pointerHighAddr_eq wrap b
    have hread : (s.takeOperand d8).answersAt [zext16 b, pointerHighAddr wrap b] = [lo, hi] := by
      rw [hlow, hhigh]
      exact h
    rw [derefZP_eq hread, hlow, hhigh, State.takeOperand_trace, List.append_assoc]
    rfl
  constructor
  · intro hz
    rw [resolveWith, hderef (d8 + s.X) (hz ▸ BitVec.toNat_add d8 s.X), word_eq]
  · intro hz
    rw [resolveWith, hderef d8 hz.symm, word_add_zext16]

/-- Settles O34: relative mode as one update, and the signed sum. -/
theorem relativeMode : Obligations.RelativeMode :=
  fun s d8 => ⟨rfl, add_sext16_toNat (s.PC + 1) d8⟩

/-- Settles O35: the operand value is a read at the effective address after the resolver, which leaves memory as it is. -/
theorem operandByteIsAtEffectiveAddress : Obligations.OperandByteIsAtEffectiveAddress :=
  fun o s h => ⟨operandValue_eq_peek o s h, operandValue_plain o s h⟩

end Sys2Proof.Machine
end

section
/-! PROOFS. Branches and flag instructions (R120 to R136). -/

namespace Sys2Proof.Machine

/-- A documented instruction, one that is an encoding under every `ILLEGAL_MODE`, decodes from the bytes that the encoder
writes (R77, R78). -/
theorem decodesFrom_encode {i : Instr} (h : ∀ p, wellFormed p i = true) : DecodesFrom i (encode i) :=
  fun p rest => decodeOfEncode p i rest (h p)

/-! ### Branches -/

/-- The target of a taken branch as one signed sum from the address of the displacement byte (R104). -/
theorem add_one_add_sext16 (pc : Addr) (d8 : Byte) :
    pc + 1 + sext16 d8 = BitVec.ofInt 16 (pc.toNat + 1 + d8.toInt) := by
  have hpc : BitVec.ofInt 16 pc.toNat = pc := by simp
  rw [sext16_eq, BitVec.ofInt_add, BitVec.ofInt_add, hpc]
  rfl

/-- A taken branch leaves `PC` at the signed sum (R120). -/
theorem branch_PC_taken (d8 : Byte) (s : State) :
    (branch true d8 s).PC = BitVec.ofInt 16 (s.PC.toNat + 1 + d8.toInt) :=
  add_one_add_sext16 s.PC d8

/-- A branch not taken leaves `PC` after the displacement byte (R120). -/
theorem branch_PC_untaken (d8 : Byte) (s : State) : (branch false d8 s).PC = s.PC + 1 := rfl

/-- Taken or not, a branch reads its displacement byte and changes nothing else but `PC` (R120). -/
theorem branch_frame (cond : Bool) (d8 : Byte) (s : State) : branch cond d8 s =
    { s with PC := (branch cond d8 s).PC, trace := s.trace ++ [.read s.PC d8] } := by
  rw [branch_eq]

/-- Settles O36: each of the eight is `branch` on the flag value of its row, and `branch` is taken or not. -/
theorem branchInstructions : Obligations.BranchInstructions := by
  intro d8 s branches
  have hbranch : ∀ {i : Instr} {op : Byte} {cond : Prop} {taken : Bool}, (∀ p, wellFormed p i = true) →
      encode i = [op, d8] → exec i s = .next (branch taken d8 s) → (taken = true ↔ cond) → branches i op cond := by
    intro i op cond taken hwf hencode hexec hcond
    refine ⟨hencode ▸ decodesFrom_encode hwf, branch taken d8 s, hexec, branch_frame taken d8 s, fun h => ?_, fun h => ?_⟩
    · rw [hcond.mpr h, branch_PC_taken]
    · rw [Bool.eq_false_iff.mpr (mt hcond.mp h), branch_PC_untaken]
  have hclear := fun flag => iff_of_eq (Bool.not_eq_true' flag)
  exact ⟨hbranch (fun _ => rfl) rfl rfl (hclear s.N), hbranch (fun _ => rfl) rfl rfl Iff.rfl,
    hbranch (fun _ => rfl) rfl rfl (hclear s.V), hbranch (fun _ => rfl) rfl rfl Iff.rfl,
    hbranch (fun _ => rfl) rfl rfl (hclear s.C), hbranch (fun _ => rfl) rfl rfl Iff.rfl,
    hbranch (fun _ => rfl) rfl rfl (hclear s.Z), hbranch (fun _ => rfl) rfl rfl Iff.rfl⟩

/-! ### Flag instructions -/

/-- Settles O37: each is one update of a flag by its arm of `exec`, and decodes from what the encoder writes. -/
theorem flagInstructions : Obligations.FlagInstructions := by
  refine ⟨?encodings, fun s => ⟨rfl, rfl, rfl, rfl, rfl, rfl, rfl⟩⟩
  case encodings =>
    refine ⟨?_, ?_, ?_, ?_, ?_, ?_, ?_⟩
    all_goals exact decodesFrom_encode fun _ => rfl

end Sys2Proof.Machine
end

section
/-! PROOFS. Jumps and subroutines (R140 to R145): the meanings as updates by what the bus answers, and RTS after JSR. -/

namespace Sys2Proof.Machine

/-! ### Jumps -/

/-- `Deref16` answers the word of the two bytes that the bus answers, low byte first, and notes the two reads (R111). -/
theorem State.deref16_of_answersAt {s : State} {p : Addr} {lo hi : Byte} (h : s.answersAt [p, p + 1] = [lo, hi]) :
    s.deref16 p = (word hi lo, { s with trace := s.trace ++ [.read p lo, .read (p + 1) hi] }) := by
  rw [State.answersAt_two] at h
  cases h
  exact s.deref16_eq p

/-- Settles O38: JMP takes its operand bytes, and JMP indirect dereferences them after they were read. -/
theorem jumpInstructions : Obligations.JumpInstructions := by
  intro lo hi s p operandReads
  have hp : word hi lo = p := word_eq hi lo
  refine ⟨decodesFrom_encode fun _ => rfl, decodesFrom_encode fun _ => rfl, ?absolute, fun l h hread => ?indirect⟩
  case absolute =>
    rw [exec, execJmpAbs, State.takeOperand16_eq, hp]
  case indirect =>
    have hderef : (s.takeOperand16 lo hi).answersAt [p, p + 1] = [l, h] := by
      rw [State.takeOperand16_eq]
      exact hread
    rw [exec, execJmpInd, resolveInd, hp, State.deref16_of_answersAt hderef, State.takeOperand16_eq, word_eq]

/-! ### Subroutine call and return -/

/-- Two bytes stored one after the other: each of the two addresses holds its byte, and the others what they held. -/
theorem storedByte_two {s t : State} {a b : Addr} {v w : Byte} (hs : Inv s) (hparams : t.params = s.params)
    (hmem : t.mem = Memory.store s.params.devices (Memory.store s.params.devices s.mem a v) b w) (hab : a ≠ b) :
    (s.IsPlain a → t.peek a = v) ∧ (s.IsPlain b → t.peek b = w) ∧
      ∀ c, c ≠ a → c ≠ b → s.IsPlain c → t.peek c = s.peek c := by
  let mid : State := { s with mem := Memory.store s.params.devices s.mem a v }
  obtain ⟨hfirst, hfirst_other⟩ : StoredByte s mid a v := storedByte_of_store hs rfl rfl
  obtain ⟨hsecond, hsecond_other⟩ : StoredByte mid t b w := storedByte_of_store (inv_of_store hs rfl) hparams hmem
  exact ⟨fun ha => (hsecond_other a hab ha).trans (hfirst ha), hsecond,
    fun c ha hb hc => (hsecond_other c hb hc).trans (hfirst_other c ha hc)⟩

/-- A push moves on to another byte of page 1. -/
theorem stackByte_ne_sub_one (sp : Byte) : stackByte sp ≠ stackByte (sp - 1) := by
  rw [Ne, stackByte_inj]
  bv_omega

/-- The two bytes that JSR stores: the address of its last byte, high byte first, and no others (R143). -/
theorem execJsr_stores {lo hi : Byte} {s t : State} (hs : Inv s) (h : exec (.jsr lo hi) s = .next t) :
    (s.IsPlain (stackByte s.SP) → t.peek (stackByte s.SP) = hiByte (s.PC + 1)) ∧
    (s.IsPlain (stackByte (s.SP - 1)) → t.peek (stackByte (s.SP - 1)) = loByte (s.PC + 1)) ∧
    ∀ a, a ≠ stackByte s.SP → a ≠ stackByte (s.SP - 1) → s.IsPlain a → t.peek a = s.peek a := by
  rw [exec, execJsr_eq] at h
  cases h
  exact storedByte_two hs rfl rfl (stackByte_ne_sub_one s.SP)

/-- JSR lowers `SP` by its two pushes (R143). -/
theorem execJsr_SP {lo hi : Byte} {s t : State} (h : exec (.jsr lo hi) s = .next t) : t.SP = s.SP - 2 := by
  rw [exec, execJsr_eq] at h
  cases h
  rfl

/-- Settles O39: JSR as one update, and its two stores. -/
theorem jsrInstruction : Obligations.JsrInstruction := by
  intro lo hi s
  refine ⟨decodesFrom_encode fun _ => rfl, fun hs => ?_⟩
  have hexec : exec (.jsr lo hi) s = .next _ := execJsr_eq lo hi s
  obtain ⟨hhigh, hlow, hother⟩ := execJsr_stores hs hexec
  rw [← hiByte_eq, ← loByte_eq, ← word_eq]
  exact ⟨_, hexec, hhigh, hlow, hother, rfl⟩

/-- RTS as one update by the two bytes that the bus answers (R144). -/
theorem execRts_of_answersAt {s : State} {lo hi : Byte}
    (h : s.answersAt [stackByte (s.SP + 1), stackByte (s.SP + 2)] = [lo, hi]) :
    exec .rts s = .next { s with
      SP := s.SP + 2
      PC := word hi lo + 1
      trace := s.trace ++ [.read (stackByte (s.SP + 1)) lo, .read (stackByte (s.SP + 2)) hi] } := by
  rw [State.answersAt_two] at h
  cases h
  exact execRts_eq s

/-- Settles O40: RTS by the bytes answered, and its target as a number. -/
theorem rtsInstruction : Obligations.RtsInstruction := by
  refine ⟨decodesFrom_encode fun _ => rfl, fun s lo hi h => ?_⟩
  rw [execRts_of_answersAt h, word_eq, BitVec.ofNat_add (256 * hi.toNat + lo.toNat) 1]
  rfl

/-- Settles O41: the two bytes that RTS pops are those that JSR stored, the address of its last byte. -/
theorem subroutineRoundTrip : Obligations.SubroutineRoundTrip := by
  intro lo hi s t h hs hjsr hparams hplain hplain' hSP hhigh hlow
  obtain ⟨hhigh_stored, hlow_stored, -⟩ := execJsr_stores hs hjsr
  rw [execJsr_SP hjsr] at hSP
  have hsp1 : h.SP + 1 = s.SP - 1 := by rw [hSP]; bv_omega
  have hsp2 : h.SP + 2 = s.SP := by rw [hSP]; bv_omega
  have hpopped : h.answersAt [stackByte (h.SP + 1), stackByte (h.SP + 2)] = [loByte (s.PC + 1), hiByte (s.PC + 1)] := by
    rw [hsp1, hsp2, State.answersAt_plain]
    · simp only [List.map, hlow, hhigh, hlow_stored hplain', hhigh_stored hplain]
    · simpa [State.IsPlain, hparams] using ⟨hplain', hplain⟩
  have hpc : word (hiByte (s.PC + 1)) (loByte (s.PC + 1)) + 1 = s.PC + 2 := by
    rw [word_hiByte_loByte, BitVec.add_assoc]
    rfl
  exact ⟨_, execRts_of_answersAt hpopped, hpc, hsp2⟩

end Sys2Proof.Machine
end

section
/-! PROOFS. Interrupt entry and return (R146 to R148): what an entry stores and reads, BRK, RTI, and RTI after an entry. -/

namespace Sys2Proof.Machine

/-! ### Interrupt entry -/

/-- What the interrupt sequence stores, for any state with its memory (R244). -/
theorem threeStored_of_interruptMemory {s t : State} {b : Bool} (hs : Inv s) (hparams : t.params = s.params)
    (hmem : t.mem = interruptMemory s b) : ThreeStored s t (hiByte s.PC) (loByte s.PC) (s.packP b) := by
  have hread : ∀ a, s.IsPlain a → t.peek a =
      if a = stackByte (s.SP - 2) then s.packP b
      else if a = stackByte (s.SP - 1) then loByte s.PC
      else if a = stackByte s.SP then hiByte s.PC
      else s.peek a := by
    intro a ha
    rw [State.peek_plain (s := t) (by rwa [State.IsPlain, hparams]), hmem, read_interruptMemory s b hs a ha]
  have h01 : s.SP ≠ s.SP - 1 := by bv_omega
  have h02 : s.SP ≠ s.SP - 2 := by bv_omega
  have h12 : s.SP - 1 ≠ s.SP - 2 := by bv_omega
  refine ⟨fun ha => ?_, fun ha => ?_, fun ha => ?_, fun a h0 h1 h2 ha => ?_⟩
  · rw [hread _ ha, if_neg (mt stackByte_inj.mp h02), if_neg (mt stackByte_inj.mp h01), if_pos rfl]
  · rw [hread _ ha, if_neg (mt stackByte_inj.mp h12), if_pos rfl]
  · rw [hread _ ha, if_pos rfl]
  · rw [hread _ ha, if_neg h2, if_neg h1, if_neg h0]

/-- The interrupt sequence as the three pushes and then the word that the bus answers at the vector (R244). -/
theorem State.interrupt_of_answersAt {s : State} {vec : Addr} {b : Bool} {lo hi : Byte}
    (h : (interruptPushes s b).answersAt [vec, vec + 1] = [lo, hi]) :
    s.interrupt vec b = { interruptPushes s b with
      I := true
      PC := word hi lo
      trace := (interruptPushes s b).trace ++ [.read vec lo, .read (vec + 1) hi] } := by
  rw [State.answersAt_two] at h
  cases h
  exact s.interrupt_eq vec b

/-- Above page 1 the pushes of an entry leave plain memory as it is. -/
theorem peek_interruptPushes_above {s : State} (b : Bool) {a : Addr} (hs : Inv s) (habove : 512 ≤ a.toNat)
    (ha : s.IsPlain a) : (interruptPushes s b).peek a = s.peek a := by
  obtain ⟨-, -, -, hother⟩ :=
    threeStored_of_interruptMemory hs (interruptPushes_params s b) (interruptPushes_mem s b)
  exact hother a (stackByte_ne _ a habove) (stackByte_ne _ a habove) (stackByte_ne _ a habove) ha

/-- A vector in plain memory is read as it stood before the pushes. -/
theorem vector_answers_plain {s : State} {vec : Addr} {b : Bool} {lo hi : Byte} (hs : Inv s)
    (hlow : 512 ≤ vec.toNat) (hhigh : 512 ≤ (vec + 1).toNat)
    (h : (interruptPushes s b).answersAt [vec, vec + 1] = [lo, hi]) :
    (s.IsPlain vec → lo = s.peek vec) ∧ (s.IsPlain (vec + 1) → hi = s.peek (vec + 1)) := by
  rw [State.answersAt_two] at h
  cases h
  refine ⟨peek_interruptPushes_above b hs hlow, fun ha => ?_⟩
  rw [← peek_interruptPushes_above b hs hhigh ha]
  exact State.peek_plain_congr ha rfl rfl

/-- Settles O28: BRK is the interrupt sequence from the address after the padding byte. -/
theorem brkInstruction : Obligations.BrkInstruction := by
  refine ⟨decodesFrom_encode fun _ => rfl, fun s hs => ?_⟩
  obtain ⟨lo, hi, hvector⟩ : ∃ lo hi, (interruptPushes s.advance true).answersAt [0xFFFE, 0xFFFE + 1] = [lo, hi] :=
    ⟨_, _, State.answersAt_two _ _ _⟩
  have hentry : s.advance.interrupt 0xFFFE true = _ := State.interrupt_of_answersAt hvector
  obtain ⟨hlow, hhigh⟩ := vector_answers_plain (s := s.advance) hs (by decide) (by decide) hvector
  refine ⟨s.advance.interrupt 0xFFFE true, s.packP true, lo, hi, rfl, statusByte_packP s true, ?_⟩
  simp only [← hiByte_eq, ← loByte_eq, ← word_eq]
  refine ⟨threeStored_of_interruptMemory (s := s.advance) hs (State.interrupt_params _ _ _) (State.interrupt_mem _ _ _),
    ?_, hlow, hhigh, ?_⟩
  · rw [State.interrupt_mem]
    exact hvector
  · rw [hentry]
    rfl

/-! ### Return from interrupt -/

/-- RTI as one update by the three bytes that the bus answers (R147). -/
theorem execRti_of_answersAt {s : State} {p lo hi : Byte}
    (h : s.answersAt [stackByte (s.SP + 1), stackByte (s.SP + 2), stackByte (s.SP + 3)] = [p, lo, hi]) :
    exec .rti s = .next { s.unpackP p with
      SP := s.SP + 3
      PC := word hi lo
      trace := s.trace ++ [.read (stackByte (s.SP + 1)) p, .read (stackByte (s.SP + 2)) lo,
        .read (stackByte (s.SP + 3)) hi] } := by
  rw [State.answersAt_three] at h
  cases h
  exact congrArg Host.Outcome.next s.returnFromInterrupt_eq

/-- Settles O29: RTI by the bytes answered, and the flags of `UnpackP`. -/
theorem rtiInstruction : Obligations.RtiInstruction := by
  refine ⟨decodesFrom_encode fun _ => rfl, fun s p lo hi h => ?_⟩
  rw [← word_eq]
  exact ⟨_, execRti_of_answersAt h, flagsFrom_unpackP s p, rfl⟩

/-- Pulling the status byte of a state gives back its six flags, whatever the break bit was (R23, R24). -/
theorem flags_eq_of_flagsFrom {s u : State} {p : Byte} {b : Bool} (hpush : StatusByte p s b) (hpull : FlagsFrom u p) :
    u.C = s.C ∧ u.Z = s.Z ∧ u.I = s.I ∧ u.D = s.D ∧ u.V = s.V ∧ u.N = s.N := by
  obtain ⟨hC, hZ, hI, hD, -, -, hV, hN⟩ := hpush
  obtain ⟨hC', hZ', hI', hD', hV', hN'⟩ := hpull
  exact ⟨hC'.trans hC, hZ'.trans hZ, hI'.trans hI, hD'.trans hD, hV'.trans hV, hN'.trans hN⟩

/-- RTI from a state `h` with `SP` and the three stack bytes as the interrupt sequence from `s` left them returns to the
`PC`, `SP` and flags of `s`. -/
theorem execRti_after_interrupt {s h : State} {vec : Addr} {b : Bool} (hs : Inv s) (hparams : h.params = s.params)
    (hplain : ∀ sp ∈ [s.SP, s.SP - 1, s.SP - 2], s.IsPlain (stackByte sp)) (hSP : h.SP = (s.interrupt vec b).SP)
    (hbytes : ∀ sp ∈ [s.SP, s.SP - 1, s.SP - 2], h.peek (stackByte sp) = (s.interrupt vec b).peek (stackByte sp)) :
    ∃ u, exec .rti h = .next u ∧ u.PC = s.PC ∧ u.SP = s.SP ∧ u.C = s.C ∧ u.Z = s.Z ∧ u.I = s.I ∧ u.D = s.D ∧
      u.V = s.V ∧ u.N = s.N := by
  obtain ⟨hhigh, hlow, hstatus, -⟩ :=
    threeStored_of_interruptMemory hs (s.interrupt_params vec b) (s.interrupt_mem vec b)
  simp only [List.forall_mem_cons, List.not_mem_nil, false_implies, implies_true, and_true] at hplain hbytes
  obtain ⟨hplain0, hplain1, hplain2⟩ := hplain
  obtain ⟨hbyte0, hbyte1, hbyte2⟩ := hbytes
  rw [State.interrupt_SP] at hSP
  have hsp1 : h.SP + 1 = s.SP - 2 := by rw [hSP]; bv_omega
  have hsp2 : h.SP + 2 = s.SP - 1 := by rw [hSP]; bv_omega
  have hsp3 : h.SP + 3 = s.SP := by rw [hSP]; bv_omega
  have hpopped : h.answersAt [stackByte (h.SP + 1), stackByte (h.SP + 2), stackByte (h.SP + 3)] =
      [s.packP b, loByte s.PC, hiByte s.PC] := by
    rw [hsp1, hsp2, hsp3, State.answersAt_plain]
    · simp only [List.map, hbyte0, hbyte1, hbyte2, hhigh hplain0, hlow hplain1, hstatus hplain2]
    · simpa [State.IsPlain, hparams] using ⟨hplain2, hplain1, hplain0⟩
  exact ⟨_, execRti_of_answersAt hpopped, word_hiByte_loByte s.PC, hsp3,
    flags_eq_of_flagsFrom (statusByte_packP s b) (flagsFrom_unpackP h _)⟩

/-- Settles O30: each of the three entries is the interrupt sequence, BRK's from the address after its padding byte. -/
theorem interruptRoundTrip : Obligations.InterruptRoundTrip := by
  intro s h hs hparams hplain undisturbed restores
  refine ⟨fun t ht hkept => ?brk, fun t ht hkept => ?nmi, fun t hI ht hkept => ?irq⟩
  case brk =>
    cases ht
    exact execRti_after_interrupt (s := s.advance) hs hparams hplain hkept.1 hkept.2
  case nmi =>
    cases ht
    exact execRti_after_interrupt (s := s.beginTransaction) hs hparams hplain hkept.1 hkept.2
  case irq =>
    rw [transact, State.irq_of_clear s hI] at ht
    cases ht
    exact execRti_after_interrupt (s := s.beginTransaction) hs hparams hplain hkept.1 hkept.2

end Sys2Proof.Machine
end

section
/-! PROOFS. Bit test, stack instructions and transfers (R150 to R165), and the stack over a whole page (R155). -/

namespace Sys2Proof.Machine

/-! ### Many pushes and pops (R26 to R29, R155) -/

/-- The last byte of a list is pushed last. -/
theorem pushAll_concat (vs : List Byte) (v : Byte) (s : State) : pushAll (vs ++ [v]) s = (pushAll vs s).push v :=
  List.foldl_concat ..

/-- Each push lowers `SP` by one, modulo 256. -/
theorem pushAll_SP (vs : List Byte) (s : State) : (pushAll vs s).SP = s.SP - BitVec.ofNat 8 vs.length := by
  induction vs using List.reverseRecOn with
  | nil => simp [pushAll]
  | append_singleton vs v ih =>
    rw [pushAll_concat, State.push_SP, ih, BitVec.sub_sub, List.length_append, BitVec.ofNat_add]
    rfl

@[simp] theorem pushAll_params (vs : List Byte) (s : State) : (pushAll vs s).params = s.params := by
  induction vs using List.reverseRecOn with
  | nil => rfl
  | append_singleton vs v ih => rw [pushAll_concat, State.push_params, ih]

theorem inv_pushAll (vs : List Byte) (s : State) (hs : Inv s) : Inv (pushAll vs s) := by
  induction vs using List.reverseRecOn with
  | nil => exact hs
  | append_singleton vs v ih => exact pushAll_concat vs v s ▸ inv_push _ v ih

/-- Below 256 two distances from `SP` lead to the same byte of page 1 only when they are equal. -/
theorem stackByte_sub_ofNat_ne {sp : Byte} {j k : Nat} (hjk : j < k) (hk : k < 256) :
    stackByte (sp - BitVec.ofNat 8 j) ≠ stackByte (sp - BitVec.ofNat 8 k) := by
  rw [Ne, stackByte_inj]
  bv_omega

/-- At most 256 pushes write no byte of page 1 twice: byte `k` of the list is found at offset `SP - k`. -/
theorem peek_pushAll {vs : List Byte} {s : State} (hs : Inv s) (hlen : vs.length ≤ 256) {k : Nat} {v : Byte}
    (hk : vs[k]? = some v) (hplain : s.IsPlain (stackByte (s.SP - BitVec.ofNat 8 k))) :
    (pushAll vs s).peek (stackByte (s.SP - BitVec.ofNat 8 k)) = v := by
  induction vs using List.reverseRecOn with
  | nil => cases hk
  | append_singleton vs w ih =>
    obtain ⟨hlast, hother⟩ := storedByte_push (pushAll vs s) w (inv_pushAll vs s hs)
    rw [List.length_append, List.length_singleton] at hlen
    rw [pushAll_SP, State.IsPlain, pushAll_params] at hlast
    rw [pushAll_SP] at hother
    have hindex : k < (vs ++ [w]).length := (List.getElem?_eq_some_iff.mp hk).1
    rw [List.length_append, List.length_singleton] at hindex
    rcases Nat.lt_succ_iff_lt_or_eq.mp hindex with hlt | rfl
    · rw [List.getElem?_append_left hlt] at hk
      rw [pushAll_concat, hother _ (stackByte_sub_ofNat_ne hlt hlen) (by rwa [State.IsPlain, pushAll_params])]
      exact ih (by omega) hk
    · rw [List.getElem?_concat_length] at hk
      cases hk
      rw [pushAll_concat]
      exact hlast hplain

/-- Each pop raises `SP` by one, modulo 256. -/
theorem popMany_SP (n : Nat) (s : State) : (popMany n s).2.SP = s.SP + BitVec.ofNat 8 n := by
  induction n generalizing s with
  | zero => simp [popMany]
  | succ n ih =>
    rw [popMany, ih, State.pop_SP, BitVec.add_assoc, Nat.add_comm, BitVec.ofNat_add]
    rfl

/-- Where page 1 is plain memory, pops answer the bytes that lie above `SP`, the nearest first. -/
theorem popMany_of_peek {vs : List Byte} {s : State} (hplain : ∀ sp, s.IsPlain (stackByte sp))
    (h : ∀ k v, vs[k]? = some v → s.peek (stackByte (s.SP + 1 + BitVec.ofNat 8 k)) = v) :
    (popMany vs.length s).1 = vs := by
  induction vs generalizing s with
  | nil => rfl
  | cons v vs ih =>
    have hhead : s.pop.1 = v := by
      rw [State.pop_eq]
      simpa using h 0 v rfl
    have htail : (popMany vs.length s.pop.2).1 = vs := by
      refine ih hplain fun k w hk => ?_
      have hsp : s.SP + 1 + 1 + BitVec.ofNat 8 k = s.SP + 1 + BitVec.ofNat 8 (k + 1) := by bv_omega
      rw [State.pop_SP, hsp, State.peek_plain_congr (hplain _) (State.pop_params s) (State.pop_mem s)]
      exact h (k + 1) w hk
    rw [List.length_cons, popMany, hhead, htail]

/-- Pops answer what at most 256 pushes wrote to plain memory, in reverse order. -/
theorem popMany_pushAll {vs : List Byte} {s : State} (hs : Inv s) (hlen : vs.length ≤ 256)
    (hplain : ∀ sp, s.IsPlain (stackByte sp)) : (popMany vs.length (pushAll vs s)).1 = vs.reverse := by
  rw [← List.length_reverse]
  refine popMany_of_peek (by simpa [State.IsPlain] using hplain) fun k v hk => ?_
  obtain ⟨hlt, -⟩ := List.getElem?_eq_some_iff.mp hk
  rw [List.length_reverse] at hlt
  rw [List.getElem?_reverse hlt] at hk
  have hsp : (pushAll vs s).SP + 1 + BitVec.ofNat 8 k = s.SP - BitVec.ofNat 8 (vs.length - 1 - k) := by
    rw [pushAll_SP]
    bv_omega
  rw [hsp]
  exact peek_pushAll hs hlen hk (hplain _)

/-- Settles O21: 256 is 0 modulo 256, so `SP` comes round, and no byte was pushed over. -/
theorem stackWrapsAfter256Pushes : Obligations.StackWrapsAfter256Pushes := by
  intro s vs hs hlen
  have hround : (pushAll vs s).SP = s.SP := by
    rw [pushAll_SP, hlen]
    exact BitVec.sub_zero s.SP
  refine ⟨hround, fun k v => peek_pushAll hs hlen.le, fun hplain => ?_, ?_⟩
  · rw [← popMany_pushAll hs hlen.le hplain, hlen]
  · rw [popMany_SP, hround]
    exact BitVec.add_zero s.SP

/-! ### Stack instructions (R151 to R154) -/

/-- Settles O22: a push or a pop, and the flags of what was pulled. -/
theorem stackInstructions : Obligations.StackInstructions := by
  refine ⟨⟨decodesFrom_encode fun _ => rfl, decodesFrom_encode fun _ => rfl, decodesFrom_encode fun _ => rfl⟩,
    fun s hs => ⟨?plp, ?pha, ?pla⟩⟩
  case plp =>
    rw [exec, execPlp, State.pop_eq]
    exact ⟨_, rfl, flagsFrom_unpackP _ _, rfl⟩
  case pha => exact ⟨_, rfl, storedByte_push s s.A hs, by rw [State.push_eq]⟩
  case pla =>
    rw [exec, execPla, State.pop_eq]
    exact ⟨_, rfl, rfl, flagsOf_setNZ _ _, rfl⟩

/-- Settles O23: PHP is a push of `PackP`; TXS sets no flag, and TSX is a copy and `SetNZ`. -/
theorem phpTxsAndTsxInstructions : Obligations.PhpTxsAndTsxInstructions := by
  refine ⟨⟨decodesFrom_encode fun _ => rfl, decodesFrom_encode fun _ => rfl, decodesFrom_encode fun _ => rfl⟩,
    fun s => ⟨fun hs => ?php, rfl, ⟨_, rfl, flagsOf_setNZ _ _, rfl⟩⟩⟩
  case php =>
    exact ⟨_, s.packP true, rfl, statusByte_packP s true, storedByte_push s _ hs, by rw [State.push_eq]⟩

/-! ### Bit test (R150) -/

/-- A row of R78: an instruction is encoded in the modes of the row, with the opcode bytes of the row, when the encoder
writes those and the instruction is well-formed in just those modes. -/
theorem encodedBy_of_opcode {f : Operand → Instr} {row : List (Mode × Byte)}
    (hopcode : ∀ o, (f o).opcode = row.lookup o.mode) (hbytes : ∀ o, (f o).operandBytes = o.bytes)
    (hwf : ∀ p o, wellFormed p (f o) = (row.lookup o.mode).isSome) : EncodedBy f row := by
  intro o
  cases hrow : row.lookup o.mode with
  | none => exact fun p => by rw [hwf, hrow]; rfl
  | some op =>
    have hencode : encode (f o) = op :: o.bytes := by rw [encode, hopcode, hrow, hbytes]
    change DecodesFrom (f o) (op :: o.bytes)
    exact hencode ▸ decodesFrom_encode fun p => by rw [hwf, hrow]; rfl

/-- Whether two bytes share no bit, bit by bit (R150). -/
theorem isZero_and_iff (a m : Byte) :
    isZero (a &&& m) = true ↔ ∀ k, k < 8 → (a.getLsbD k && m.getLsbD k) = false := by
  rw [isZero, beq_iff_eq]
  constructor
  · intro h k _
    rw [← BitVec.getLsbD_and, h]
    exact BitVec.getLsbD_zero
  · intro h
    refine BitVec.eq_of_getLsbD_eq fun k hk => ?_
    rw [BitVec.getLsbD_and, h k hk]
    exact BitVec.getLsbD_zero.symm

/-- Bit 6 of a byte as a number. -/
theorem getLsbD_six_iff (v : Byte) : v.getLsbD 6 = true ↔ 64 ≤ v.toNat % 128 := by
  rw [BitVec.getLsbD, Nat.testBit_eq_decide_div_mod_eq, decide_eq_true_eq]
  omega

/-- Reading an operand as one update of the state: `PC`, and the accesses of the resolver and of the read (R116). -/
theorem readOperand_update (o : Operand) (s : State) : readOperand o s = (operandValue o s, { s with
    PC := (resolve o s).2.PC
    trace := (resolve o s).2.trace ++ [.read (effectiveAddr o s) (operandValue o s)] }) := by
  rw [readOperand_eq, resolve_PC]
  conv_lhs => rw [resolve_state]

/-- Settles O43: each of the three flags as what it says of the operand byte. -/
theorem bitInstruction : Obligations.BitInstruction := by
  refine ⟨encodedBy_of_opcode ?opcode (fun _ => rfl) ?modes, fun o s => ?_⟩
  case opcode => intro o; cases o <;> rfl
  case modes => intro p o; cases o <;> rfl
  rw [exec, execBit, readOperand_update]
  exact ⟨_, rfl, isZero_and_iff s.A _, negative_iff _, getLsbD_six_iff _, rfl⟩

/-! ### Transfers (R160 to R163) -/

/-- Settles O44: each is a copy and `SetNZ` of the byte copied. -/
theorem transferInstructions : Obligations.TransferInstructions :=
  ⟨⟨decodesFrom_encode fun _ => rfl, decodesFrom_encode fun _ => rfl, decodesFrom_encode fun _ => rfl,
      decodesFrom_encode fun _ => rfl⟩,
    fun s => ⟨⟨_, rfl, flagsOf_setNZ _ s.A, rfl⟩, ⟨_, rfl, flagsOf_setNZ _ s.A, rfl⟩,
      ⟨_, rfl, flagsOf_setNZ _ s.X, rfl⟩, ⟨_, rfl, flagsOf_setNZ _ s.Y, rfl⟩⟩⟩

end Sys2Proof.Machine
end

section
/-! PROOFS. Increment, decrement and compare (R170 to R179). -/

namespace Sys2Proof.Machine

/-- A row of R78, form by form of the operand. -/
theorem encodedBy_of_forms {f : Operand → Instr} {row : List (Mode × Byte)}
    (h : ∀ p o, (f o).opcode = row.lookup o.mode ∧ (f o).operandBytes = o.bytes ∧
      wellFormed p (f o) = (row.lookup o.mode).isSome) : EncodedBy f row :=
  encodedBy_of_opcode (fun o => (h .default o).1) (fun o => (h .default o).2.1) fun p o => (h p o).2.2

/-! ### One more and one less, modulo 256 (R170 to R175) -/

theorem add_one_toNat (v : Byte) : (v + 1).toNat = (v.toNat + 1) % 256 := BitVec.toNat_add v 1

theorem sub_one_toNat (v : Byte) : (v - 1).toNat = (v.toNat + 255) % 256 := by
  rw [BitVec.toNat_sub, Nat.add_comm]
  rfl

/-! ### Increment and decrement of memory (R170, R171) -/

/-- A read-modify-write stores the new byte at the effective address and nothing else. -/
theorem storedByte_modifyMemory {s : State} (hs : Inv s) (o : Operand) (f : Byte → Byte) :
    StoredByte s (modifyMemory o f s) (effectiveAddr o s) (f (operandValue o s)) :=
  storedByte_of_store hs (by rw [modifyMemory_eq]) (by rw [modifyMemory_eq])

/-- An instruction that is a read-modify-write by `f`: its store, its flags, and all it leaves as it was. The new byte is
named by its number. -/
theorem exec_modifies {i : Instr} {o : Operand} {f : Byte → Byte} {s : State} {n : Nat} (hs : Inv s)
    (hexec : exec i s = .next (modifyMemory o f s)) (hn : (f (operandValue o s)).toNat = n) :
    ∃ t, exec i s = .next t ∧ StoredByte s t (effectiveAddr o s) (BitVec.ofNat 8 n) ∧ FlagsOf t (BitVec.ofNat 8 n) ∧
      t = { s with
        N := t.N
        Z := t.Z
        PC := (resolve o s).2.PC
        mem := t.mem
        trace := (resolve o s).2.trace ++
          [.read (effectiveAddr o s) (operandValue o s), .write (effectiveAddr o s) (BitVec.ofNat 8 n)] } := by
  have hbyte : BitVec.ofNat 8 n = f (operandValue o s) := by rw [← hn, BitVec.ofNat_toNat, BitVec.setWidth_eq]
  rw [hbyte]
  exact ⟨_, hexec, storedByte_modifyMemory hs o f, flagsOf_setNZ _ _, by rw [modifyMemory_eq]⟩

/-- Settles O45: INC and DEC are read-modify-writes by `+ 1` and `- 1`. -/
theorem incrementAndDecrementMemory : Obligations.IncrementAndDecrementMemory :=
  ⟨encodedBy_of_forms fun _ o => by cases o <;> exact ⟨rfl, rfl, rfl⟩,
    encodedBy_of_forms fun _ o => by cases o <;> exact ⟨rfl, rfl, rfl⟩,
    fun _ _ hs => ⟨exec_modifies hs rfl (add_one_toNat _), exec_modifies hs rfl (sub_one_toNat _)⟩⟩

/-! ### Increment and decrement of the index registers (R172 to R175) -/

/-- Settles O46: each is `+ 1` or `- 1` on its register, and `SetNZ` of the new value. -/
theorem incrementAndDecrementRegisters : Obligations.IncrementAndDecrementRegisters :=
  ⟨⟨decodesFrom_encode fun _ => rfl, decodesFrom_encode fun _ => rfl, decodesFrom_encode fun _ => rfl,
      decodesFrom_encode fun _ => rfl⟩,
    fun s => ⟨⟨_, rfl, add_one_toNat s.X, flagsOf_setNZ _ _, rfl⟩, ⟨_, rfl, add_one_toNat s.Y, flagsOf_setNZ _ _, rfl⟩,
      ⟨_, rfl, sub_one_toNat s.X, flagsOf_setNZ _ _, rfl⟩, ⟨_, rfl, sub_one_toNat s.Y, flagsOf_setNZ _ _, rfl⟩⟩⟩

/-! ### Compare (R176 to R179) -/

/-- `Z` after a compare: the difference is zero just when the two are equal. -/
theorem State.compare_Z_iff (s : State) (r m : Byte) : (s.compare r m).Z = true ↔ r = m := by
  rw [State.compare_Z, isZero_sub_iff]

/-- `N` after a compare: bit 7 of the difference modulo 256. -/
theorem State.compare_N_iff (s : State) (r m : Byte) :
    (s.compare r m).N = true ↔ 128 ≤ (r.toNat + 256 - m.toNat) % 256 := by
  rw [State.compare_N, negative_iff]
  bv_omega

/-- An instruction that reads its operand and compares the register value `r` with it: its flags, and all it leaves as it
was. -/
theorem exec_compares {i : Instr} {o : Operand} {s : State} {r : Byte}
    (hexec : exec i s = .next ((readOperand o s).2.compare r (operandValue o s))) :
    ∃ t, exec i s = .next t ∧ (t.C = true ↔ (operandValue o s).toNat ≤ r.toNat) ∧ (t.Z = true ↔ r = operandValue o s) ∧
      (t.N = true ↔ 128 ≤ (r.toNat + 256 - (operandValue o s).toNat) % 256) ∧
      t = { s with
        C := t.C
        Z := t.Z
        N := t.N
        PC := (resolve o s).2.PC
        trace := (resolve o s).2.trace ++ [.read (effectiveAddr o s) (operandValue o s)] } := by
  rw [readOperand_update] at hexec
  exact ⟨_, hexec, State.compare_C_iff _ _ _, State.compare_Z_iff _ _ _, State.compare_N_iff _ _ _, rfl⟩

/-- Settles O47: CMP, CPX and CPY compare `A`, `X` and `Y` with the operand they read. -/
theorem compareInstructions : Obligations.CompareInstructions :=
  ⟨encodedBy_of_forms fun _ o => by cases o <;> exact ⟨rfl, rfl, rfl⟩,
    encodedBy_of_forms fun _ o => by cases o <;> exact ⟨rfl, rfl, rfl⟩,
    encodedBy_of_forms fun _ o => by cases o <;> exact ⟨rfl, rfl, rfl⟩,
    fun _ _ => ⟨exec_compares rfl, exec_compares rfl, exec_compares rfl⟩⟩

end Sys2Proof.Machine
end

section
/-! PROOFS. Loads and stores (R190 to R195). -/

namespace Sys2Proof.Machine

/-! ### Loads (R190 to R192) -/

/-- Settles O48: each reads its operand once, copies the byte to its register, and takes `SetNZ` of it. -/
theorem loadInstructions : Obligations.LoadInstructions := by
  refine ⟨encodedBy_of_forms fun _ o => ?lda, encodedBy_of_forms fun _ o => ?ldx, encodedBy_of_forms fun _ o => ?ldy,
    fun o s => ?loads⟩
  case loads =>
    simp only [exec, execLda, execLdx, execLdy, readOperand_update]
    exact ⟨⟨_, rfl, flagsOf_setNZ _ _, rfl⟩, ⟨_, rfl, flagsOf_setNZ _ _, rfl⟩, ⟨_, rfl, flagsOf_setNZ _ _, rfl⟩⟩
  all_goals cases o <;> exact ⟨rfl, rfl, rfl⟩

/-! ### Stores (R193 to R195) -/

/-- An instruction that stores the register value `v`: one write at the effective address, no read of it, and all else
but `PC` as it was. -/
theorem exec_stores {i : Instr} {o : Operand} {s : State} {v : Byte} (hs : Inv s)
    (hexec : exec i s = .next (storeOperand o v s)) :
    ∃ t, exec i s = .next t ∧ StoredByte s t (effectiveAddr o s) v ∧
      t = { s with
        mem := t.mem
        PC := (resolve o s).2.PC
        trace := (resolve o s).2.trace ++ [.write (effectiveAddr o s) v] } := by
  rw [storeOperand_eq] at hexec
  exact ⟨_, hexec, storedByte_of_store hs rfl rfl, rfl⟩

/-- Settles O49: STA, STX and STY store `A`, `X` and `Y`. -/
theorem storeInstructions : Obligations.StoreInstructions :=
  ⟨encodedBy_of_forms fun _ o => by cases o <;> exact ⟨rfl, rfl, rfl⟩,
    encodedBy_of_forms fun _ o => by cases o <;> exact ⟨rfl, rfl, rfl⟩,
    encodedBy_of_forms fun _ o => by cases o <;> exact ⟨rfl, rfl, rfl⟩,
    fun _ _ hs => ⟨exec_stores hs rfl, exec_stores hs rfl, exec_stores hs rfl⟩⟩

end Sys2Proof.Machine
end

section
/-! PROOFS. Shifts and rotates (R200 to R204): the new byte and the bit shifted out as numbers, and what the four
instructions share. -/

namespace Sys2Proof.Machine

/-! ### One bit position as arithmetic (R201 to R204) -/

theorem shiftLeft_one_toNat (v : Byte) : (v <<< 1).toNat = 2 * v.toNat % 256 := by
  rw [BitVec.toNat_shiftLeft, Nat.shiftLeft_eq, Nat.mul_comm]

theorem shiftRight_one_toNat (v : Byte) : (v >>> 1).toNat = v.toNat / 2 := by
  rw [BitVec.toNat_ushiftRight, Nat.shiftRight_eq_div_pow]

theorem carryLow_toNat (c : Bool) : (carryLow c).toNat = bitNat c := by cases c <;> rfl

theorem carryHigh_toNat (c : Bool) : (carryHigh c).toNat = 128 * bitNat c := by cases c <;> rfl

/-- The shift left frees bit 0, so the carry is added there (R203). -/
theorem rotateLeft_toNat (v : Byte) (c : Bool) :
    (v <<< 1 ||| carryLow c).toNat = 2 * v.toNat % 256 + bitNat c := by
  have heven : 2 * v.toNat % 256 = 2 ^ 1 * (v.toNat % 128) := by omega
  have hcarry : bitNat c < 2 ^ 1 := Nat.lt_succ_of_le (bitNat_le c)
  rw [BitVec.toNat_or, shiftLeft_one_toNat, carryLow_toNat, heven, ← Nat.two_pow_add_eq_or_of_lt hcarry]

/-- The shift right frees bit 7, so the carry is added there (R204). -/
theorem rotateRight_toNat (v : Byte) (c : Bool) :
    (v >>> 1 ||| carryHigh c).toNat = v.toNat / 2 + 128 * bitNat c := by
  have hlow : v.toNat / 2 < 2 ^ 7 := by omega
  rw [BitVec.toNat_or, shiftRight_one_toNat, carryHigh_toNat, Nat.or_comm, Nat.add_comm]
  exact (Nat.two_pow_add_eq_or_of_lt hlow (bitNat c)).symm

/-- Bit 0 of a byte as a number. -/
theorem getLsbD_zero_iff (v : Byte) : v.getLsbD 0 = true ↔ v.toNat % 2 = 1 := by
  rw [BitVec.getLsbD, Nat.testBit_zero, decide_eq_true_eq]

/-! ### What the four instructions share (R200) -/

section
variable {i : Instr} {f : Byte → Bool → Byte} {out : Byte → Bool} {s : State} {new : Nat → Nat} {shiftedOut : Nat → Prop}
  (hnew : ∀ v, (f v s.C).toNat = new v.toNat) (hout : ∀ v, out v = true ↔ shiftedOut v.toNat)
include hnew hout

/-- In accumulator mode only `A` and the three flags change, and there is no access. -/
theorem exec_shifts_acc (hexec : exec i s = .next (shiftTarget .acc f out s)) :
    ∃ t, exec i s = .next t ∧ t.A.toNat = new s.A.toNat ∧ (t.C = true ↔ shiftedOut s.A.toNat) ∧ FlagsOf t t.A ∧
      t = { s with A := t.A, C := t.C, N := t.N, Z := t.Z } := by
  rw [shiftTarget_acc_eq] at hexec
  exact ⟨_, hexec, hnew s.A, hout s.A, flagsOf_setNZ s _, rfl⟩

/-- In a memory mode the new byte replaces the operand byte, by one read and one write at the effective address. -/
theorem exec_shifts_mem {o : Operand} (hs : Inv s) (hexec : exec i s = .next (shiftTarget (.mem o) f out s)) :
    ∃ t r, exec i s = .next t ∧ r.toNat = new (operandValue o s).toNat ∧
      (t.C = true ↔ shiftedOut (operandValue o s).toNat) ∧ FlagsOf t r ∧ StoredByte s t (effectiveAddr o s) r ∧
      t = { s with
        C := t.C
        N := t.N
        Z := t.Z
        PC := (resolve o s).2.PC
        mem := t.mem
        trace := (resolve o s).2.trace ++
          [.read (effectiveAddr o s) (operandValue o s), .write (effectiveAddr o s) r] } := by
  rw [shiftTarget_mem_eq] at hexec
  exact ⟨_, f (operandValue o s) s.C, hexec, hnew _, hout _, flagsOf_setNZ s _, storedByte_of_store hs rfl rfl, rfl⟩

end

/-- Settles O50: each is `shiftTarget` with its own new byte and bit shifted out, which are the numbers of R201 to R204. -/
theorem shiftInstructions : Obligations.ShiftInstructions := by
  refine ⟨⟨decodesFrom_encode fun _ => rfl, decodesFrom_encode fun _ => rfl, decodesFrom_encode fun _ => rfl,
    decodesFrom_encode fun _ => rfl⟩, encodedBy_of_forms fun _ o => ?asl, encodedBy_of_forms fun _ o => ?lsr,
    encodedBy_of_forms fun _ o => ?rol, encodedBy_of_forms fun _ o => ?ror, fun o s hs => ?meanings⟩
  case meanings =>
    intro m ea shifts
    have hshifts : ∀ {i : ShiftTarget → Instr} {f : Byte → Bool → Byte} {out : Byte → Bool} {new : Nat → Nat}
        {shiftedOut : Nat → Prop}, (∀ t, exec (i t) s = .next (shiftTarget t f out s)) →
        (∀ v, (f v s.C).toNat = new v.toNat) → (∀ v, out v = true ↔ shiftedOut v.toNat) → shifts i new shiftedOut :=
      fun hexec hnew hout => ⟨exec_shifts_acc hnew hout (hexec .acc), exec_shifts_mem hnew hout hs (hexec (.mem o))⟩
    -- Kept folded, so that its arguments are matched and not the bodies that apply them.
    clear_value shifts
    exact ⟨hshifts (fun _ => rfl) shiftLeft_one_toNat negative_iff,
      hshifts (fun _ => rfl) shiftRight_one_toNat getLsbD_zero_iff,
      hshifts (fun _ => rfl) (fun v => rotateLeft_toNat v s.C) negative_iff,
      hshifts (fun _ => rfl) (fun v => rotateRight_toNat v s.C) getLsbD_zero_iff⟩
  all_goals cases o <;> exact ⟨rfl, rfl, rfl⟩

end Sys2Proof.Machine
end

section
/-! PROOFS. Logic (R210 to R212): the result bit by bit, and what the three instructions share. -/

namespace Sys2Proof.Machine

/-- An instruction that reads its operand, puts the byte `r` in `A` and takes `SetNZ` of it: `A` by its bits, and all that
is left as it was. -/
theorem exec_combines {i : Instr} {o : Operand} {s : State} {r : Byte} {f : Bool → Bool → Bool}
    (hexec : exec i s = .next (({ (readOperand o s).2 with A := r }).setNZ r))
    (hbits : ∀ k, r.getLsbD k = f (s.A.getLsbD k) ((operandValue o s).getLsbD k)) :
    ∃ t, exec i s = .next t ∧ (∀ k, k < 8 → t.A.getLsbD k = f (s.A.getLsbD k) ((operandValue o s).getLsbD k)) ∧
      FlagsOf t t.A ∧ t = { s with
        A := t.A
        N := t.N
        Z := t.Z
        PC := (resolve o s).2.PC
        trace := (resolve o s).2.trace ++ [.read (effectiveAddr o s) (operandValue o s)] } := by
  rw [readOperand_update] at hexec
  exact ⟨_, hexec, fun k _ => hbits k, flagsOf_setNZ _ r, rfl⟩

/-- Settles O51: ORA, AND and EOR combine `A` with the operand byte by the or, and, exclusive or of two bytes. -/
theorem logicInstructions : Obligations.LogicInstructions :=
  ⟨encodedBy_of_forms fun _ o => by cases o <;> exact ⟨rfl, rfl, rfl⟩,
    encodedBy_of_forms fun _ o => by cases o <;> exact ⟨rfl, rfl, rfl⟩,
    encodedBy_of_forms fun _ o => by cases o <;> exact ⟨rfl, rfl, rfl⟩,
    fun _ _ => ⟨exec_combines rfl fun _ => BitVec.getLsbD_or, exec_combines rfl fun _ => BitVec.getLsbD_and,
      exec_combines rfl fun _ => BitVec.getLsbD_xor⟩⟩

end Sys2Proof.Machine
end

section
/-! PROOFS. Add and subtract with carry (R213 to R221): the binary flags as signed and unsigned range facts, the decimal
result digit by digit, and decimal arithmetic on valid BCD. -/

namespace Sys2Proof.Machine

/-! ### The binary sum and difference as numbers (R213, R216) -/

/-- `SetNZ` values written out in a state are the flags of their byte. -/
theorem flagsOf_of_eq {t : State} {v : Byte} (hN : t.N = negative v) (hZ : t.Z = isZero v) : FlagsOf t v :=
  ⟨by rw [hN, negative_iff], by rw [hZ, isZero_iff]⟩

/-- The carries out of bits 6 and 7 differ just when the signed sum does not fit a byte (R213). -/
theorem overflow_iff (a m : Byte) (c : Bool) : (carry6 a m c ^^ carry7 a m c) = true ↔
    a.toInt + m.toInt + bitNat c < -128 ∨ 127 < a.toInt + m.toInt + bitNat c := by
  have hle := bitNat_le c
  have ha := a.isLt
  have hm := m.isLt
  rw [bne_iff_ne, Ne, Bool.eq_iff_iff, carry6_iff, carry7_iff, BitVec.toInt_eq_toNat_cond, BitVec.toInt_eq_toNat_cond]
  split <;> split <;> omega

/-- Subtraction is addition of the complement (R216): it overflows when the signed difference does not fit a byte. -/
theorem overflow_not_iff (a m : Byte) (c : Bool) : (carry6 a (~~~m) c ^^ carry7 a (~~~m) c) = true ↔
    a.toInt - m.toInt - (1 - bitNat c) < -128 ∨ 127 < a.toInt - m.toInt - (1 - bitNat c) := by
  have hsum : a.toInt + (~~~m).toInt + bitNat c = a.toInt - m.toInt - (1 - bitNat c) := by
    rw [not_toInt]
    omega
  rw [overflow_iff, hsum]

/-- The byte of the binary difference (R216). -/
theorem sumByte_not_toNat (a m : Byte) (c : Bool) :
    ((sumByte a (~~~m) c).toNat : Int) = ((a.toNat - m.toNat - (1 - bitNat c) : Int)) % 256 := by
  have hm := m.isLt
  rw [sumByte_toNat, not_toNat]
  omega

/-- The binary difference as the byte that decimal mode takes `N` and `Z` from (R215, R216). -/
theorem sumByte_not (a m : Byte) (c : Bool) :
    sumByte a (~~~m) c = BitVec.ofInt 8 (a.toNat - m.toNat - (1 - bitNat c)) := by
  apply BitVec.eq_of_toNat_eq
  have h := sumByte_not_toNat a m c
  rw [BitVec.toNat_ofInt]
  omega

/-- The carry out of the binary difference says that nothing was borrowed (R216). -/
theorem carry7_not_iff (a m : Byte) (c : Bool) :
    carry7 a (~~~m) c = true ↔ (0 : Int) ≤ a.toNat - m.toNat - (1 - bitNat c) := by
  have hm := m.isLt
  rw [carry7_iff, not_toNat]
  omega

/-! ### Frame and binary results (R213 to R217) -/

/-- Settles O52: each as one update of the state it starts in. -/
theorem addAndSubtractFrame : Obligations.AddAndSubtractFrame :=
  ⟨encodedBy_of_forms fun _ o => by cases o <;> exact ⟨rfl, rfl, rfl⟩,
    encodedBy_of_forms fun _ o => by cases o <;> exact ⟨rfl, rfl, rfl⟩,
    fun o s => ⟨⟨_, execAdc_eq o s, rfl⟩, ⟨_, execSbc_eq o s, rfl⟩⟩⟩

/-- Settles O53: the binary sum, its carry out of bit 7, and the two carries that overflow compares. -/
theorem adcBinaryResult : Obligations.AdcBinaryResult := by
  intro o s hD m sum
  have hexec : exec (.adc o) s = .next _ := execAdc_eq o s
  simp only [hD, Bool.false_eq_true, if_false] at hexec
  exact ⟨_, hexec, sumByte_toNat s.A m s.C, carry7_iff s.A m s.C, flagsOf_of_eq rfl rfl, overflow_iff s.A m s.C⟩

/-- Settles O55: SBC adds the complement of its operand, and each part of that sum says its part of the difference. -/
theorem sbcBinaryResult : Obligations.SbcBinaryResult := by
  intro o s hD m difference
  have hexec : exec (.sbc o) s = .next _ := execSbc_eq o s
  simp only [hD, Bool.false_eq_true, if_false] at hexec
  exact ⟨_, hexec, sumByte_not_toNat s.A m s.C, carry7_not_iff s.A m s.C, flagsOf_of_eq rfl rfl,
    overflow_not_iff s.A m s.C⟩

/-! ### Decimal digits (R218, R219) -/

/-- A digit of `DecimalAdd` of a sum that is a natural number. -/
theorem addDigit_natCast (n : Nat) : addDigit n = (((if 9 < n then n - 10 else n : Nat) : Int), decide (9 < n)) := by
  by_cases h : 9 < n
  · have hcast : ((n - 10 : Nat) : Int) = n - 10 := by omega
    simp [addDigit, h, hcast]
  · simp [addDigit, h]

/-- A digit of `DecimalSub` as a pair. -/
theorem subDigit_eq (n : Int) : subDigit n = (if n < 0 then n + 10 else n, decide (n < 0)) := by
  by_cases h : n < 0 <;> simp [subDigit, h]

theorem bitNat_decide (p : Prop) [Decidable p] : bitNat (decide p) = if p then 1 else 0 := by
  simp [bitNat]

/-- The two digits of `DecimalAdd` and the carry out of the high one, for any two bytes (R218). -/
theorem decimalAdd_digits (a m : Byte) (c : Bool) :
    let lo := a.toNat % 16 + m.toNat % 16 + bitNat c
    let hi := a.toNat / 16 + m.toNat / 16 + (if 9 < lo then 1 else 0)
    let lo' := if 9 < lo then lo - 10 else lo
    let hi' := if 9 < hi then hi - 10 else hi
    (decimalAdd a m c).1.toNat = 16 * (hi' % 16) + lo' % 16 ∧ ((decimalAdd a m c).2 = true ↔ 9 < hi) := by
  intro lo hi lo' hi'
  have hlow : addDigit (lowNibble a + lowNibble m + bitNat c) = ((lo' : Int), decide (9 < lo)) :=
    addDigit_natCast lo
  have hhigh : addDigit (highNibble a + highNibble m + bitNat (decide (9 < lo))) = ((hi' : Int), decide (9 < hi)) := by
    rw [bitNat_decide]
    exact addDigit_natCast hi
  have hresult : decimalAdd a m c = (nibbles hi' lo', decide (9 < hi)) := by
    simp only [decimalAdd, hlow, hhigh]
  have hbyte := nibbles_toNat hi' lo'
  rw [hresult]
  exact ⟨by exact_mod_cast hbyte, decide_eq_true_iff⟩

/-- The two digits of `DecimalSub` and the not-borrow of the high one, for any two bytes (R219). -/
theorem decimalSub_digits (a m : Byte) (c : Bool) :
    let lo : Int := (a.toNat % 16 : Nat) - (m.toNat % 16 : Nat) - (1 - bitNat c)
    let hi : Int := (a.toNat / 16 : Nat) - (m.toNat / 16 : Nat) - (if lo < 0 then 1 else 0)
    let lo' := if lo < 0 then lo + 10 else lo
    let hi' := if hi < 0 then hi + 10 else hi
    ((decimalSub a m c).1.toNat : Int) = 16 * (hi' % 16) + lo' % 16 ∧ ((decimalSub a m c).2 = true ↔ 0 ≤ hi) := by
  intro lo hi lo' hi'
  have hlow : subDigit (lowNibble a - lowNibble m - (1 - bitNat c)) = (lo', decide (lo < 0)) := subDigit_eq lo
  have hhigh : subDigit (highNibble a - highNibble m - bitNat (decide (lo < 0))) = (hi', decide (hi < 0)) := by
    rw [bitNat_decide, Nat.cast_ite]
    exact subDigit_eq hi
  have hresult : decimalSub a m c = (nibbles hi' lo', !decide (hi < 0)) := by
    simp only [decimalSub, hlow, hhigh]
  rw [hresult]
  exact ⟨nibbles_toNat hi' lo', by simp⟩

/-- The not-borrow out of the high digit is the binary one (R219). -/
theorem decimalSub_carry_iff (a m : Byte) (c : Bool) :
    (decimalSub a m c).2 = true ↔ (0 : Int) ≤ a.toNat - m.toNat - (1 - bitNat c) := by
  have hle := bitNat_le c
  rw [(decimalSub_digits a m c).2]
  split <;> omega

/-- Settles O54: the digits of `DecimalAdd`, and the flags of the binary sum. -/
theorem adcDecimalResult : Obligations.AdcDecimalResult := by
  intro o s hD m lo hi lo' hi'
  have hexec : exec (.adc o) s = .next _ := execAdc_eq o s
  simp only [hD, if_true] at hexec
  obtain ⟨hbyte, hcarry⟩ := decimalAdd_digits s.A m s.C
  exact ⟨_, hexec, hbyte, hcarry, flagsOf_of_eq rfl rfl, overflow_iff s.A m s.C⟩

/-- Settles O56: the digits of `DecimalSub`, the two not-borrows, and the flags of the binary difference. -/
theorem sbcDecimalResult : Obligations.SbcDecimalResult := by
  intro o s hD m difference lo hi lo' hi'
  have hexec : exec (.sbc o) s = .next _ := execSbc_eq o s
  simp only [hD, if_true, sumByte_not] at hexec
  obtain ⟨hbyte, hcarry⟩ := decimalSub_digits s.A m s.C
  exact ⟨_, hexec, hbyte, hcarry, decimalSub_carry_iff s.A m s.C, flagsOf_of_eq rfl rfl, overflow_not_iff s.A m s.C⟩

/-! ### Valid BCD (R218, R219, R221) -/

/-- A valid BCD byte is determined by its value. -/
theorem eq_of_decValue_eq {a b : Byte} (ha : IsBcd a) (hb : IsBcd b) (h : decValue a = decValue b) : a = b := by
  obtain ⟨-, halow⟩ := ha
  obtain ⟨-, hblow⟩ := hb
  unfold decValue at h
  exact BitVec.eq_of_toNat_eq (by omega)

/-- Two decimal digits make a valid BCD byte. -/
theorem nibbles_bcd {hi lo : Int} (hhi : 0 ≤ hi ∧ hi ≤ 9) (hlo : 0 ≤ lo ∧ lo ≤ 9) :
    IsBcd (nibbles hi lo) ∧ (decValue (nibbles hi lo) : Int) = 10 * hi + lo := by
  have hbyte := nibbles_toNat hi lo
  rw [Int.emod_eq_of_lt hhi.1 (by omega), Int.emod_eq_of_lt hlo.1 (by omega)] at hbyte
  rw [IsBcd, decValue]
  omega

theorem bitNat_eq_one_iff (b : Bool) : bitNat b = 1 ↔ b = true := by cases b <;> decide

/-- `DecimalAdd` on valid BCD is addition modulo 100 with its carry (R218): ten times the high digit's sum and the low
digit's is the sum, and what a carry takes from one digit it gives to the next. -/
theorem decimalAdd_bcd {a m : Byte} (c : Bool) (ha : IsBcd a) (hm : IsBcd m) :
    IsBcd (decimalAdd a m c).1 ∧ decValue (decimalAdd a m c).1 = (decValue a + decValue m + bitNat c) % 100 ∧
      ((decimalAdd a m c).2 = true ↔ 100 ≤ decValue a + decValue m + bitNat c) := by
  simp only [decimalAdd]
  have hlow := addDigit_cases (lowNibble a + lowNibble m + bitNat c)
  generalize addDigit (lowNibble a + lowNibble m + bitNat c) = low at *
  have hhigh := addDigit_cases (highNibble a + highNibble m + bitNat low.2)
  generalize addDigit (highNibble a + highNibble m + bitNat low.2) = high at *
  obtain ⟨hahigh, halow⟩ := ha
  obtain ⟨hmhigh, hmlow⟩ := hm
  have hle := bitNat_le c
  simp only [lowNibble, highNibble] at hlow hhigh
  have hsum : 10 * high.1 + low.1 + 100 * bitNat high.2 = (decValue a + decValue m + bitNat c : Nat) := by
    simp only [decValue]
    omega
  obtain ⟨hbcd, hvalue⟩ := nibbles_bcd (hi := high.1) (lo := low.1) (by omega) (by omega)
  rw [← bitNat_eq_one_iff]
  exact ⟨hbcd, by omega, by omega⟩

/-- `DecimalSub` on valid BCD is subtraction modulo 100, and its carry says that the difference is not negative (R219). -/
theorem decimalSub_bcd {a m : Byte} (c : Bool) (ha : IsBcd a) (hm : IsBcd m) :
    IsBcd (decimalSub a m c).1 ∧
      (decValue (decimalSub a m c).1 : Int) = (decValue a - decValue m - (1 - bitNat c) : Int) % 100 ∧
      ((decimalSub a m c).2 = true ↔ (0 : Int) ≤ decValue a - decValue m - (1 - bitNat c)) := by
  simp only [decimalSub]
  have hlow := subDigit_cases (lowNibble a - lowNibble m - (1 - bitNat c))
  generalize subDigit (lowNibble a - lowNibble m - (1 - bitNat c)) = low at *
  have hhigh := subDigit_cases (highNibble a - highNibble m - bitNat low.2)
  generalize subDigit (highNibble a - highNibble m - bitNat low.2) = high at *
  obtain ⟨hahigh, halow⟩ := ha
  obtain ⟨hmhigh, hmlow⟩ := hm
  have hle := bitNat_le c
  simp only [lowNibble, highNibble] at hlow hhigh
  have hdifference : 10 * high.1 + low.1 - 100 * bitNat high.2 = decValue a - decValue m - (1 - bitNat c) := by
    simp only [decValue]
    omega
  obtain ⟨hbcd, hvalue⟩ := nibbles_bcd (hi := high.1) (lo := low.1) (by omega) (by omega)
  rw [Bool.not_eq_true', Bool.eq_false_iff, Ne, ← bitNat_eq_one_iff]
  exact ⟨hbcd, by omega, by omega⟩

/-- Settles O57: in decimal mode `A` and `C` are those of `DecimalAdd` and `DecimalSub`. -/
theorem decimalArithmeticOnBcd : Obligations.DecimalArithmeticOnBcd := by
  intro o s hD hA hm m sum difference
  have hadc : exec (.adc o) s = .next _ := execAdc_eq o s
  have hsbc : exec (.sbc o) s = .next _ := execSbc_eq o s
  simp only [hD, if_true] at hadc hsbc
  exact ⟨⟨_, hadc, decimalAdd_bcd s.C hA hm⟩, ⟨_, hsbc, decimalSub_bcd s.C hA hm⟩⟩

/-- Settles O58: `(a + m + c) % 100 - m - c` is `a` modulo 100, and it is negative just when the sum reached 100. -/
theorem bcdRoundTrip : Obligations.BcdRoundTrip := by
  intro a m c ha hm
  obtain ⟨hsum, hsum_value, hsum_carry⟩ := decimalAdd_bcd c ha hm
  obtain ⟨hback, hback_value, hback_carry⟩ := decimalSub_bcd (!c) hsum hm
  have hc : bitNat (!c) = 1 - bitNat c := by cases c <;> rfl
  have hle := bitNat_le c
  have ha_lt : decValue a < 100 := by unfold decValue; omega
  have hm_lt : decValue m < 100 := by unfold decValue; omega
  have hbyte : (decimalSub (decimalAdd a m c).1 m (!c)).1 = a := eq_of_decValue_eq hback ha (by omega)
  refine Prod.ext hbyte (Bool.eq_iff_iff.mpr ?_)
  rw [hback_carry, Bool.not_eq_true', Bool.eq_false_iff, Ne, hsum_carry]
  omega

end Sys2Proof.Machine
end

section
/-! PROOFS. No-operations (R230 to R232): what `*NOP` consumes and reads, and a step of an undocumented opcode. -/

namespace Sys2Proof.Machine

/-! ### The frame -/

/-- What is consumed has as many bytes as its mode counts (R73). -/
theorem nopOperand_bytes_length (o : NopOperand) : o.bytes.length = o.mode.operandCount := by
  cases o with
  | mem o => exact operand_bytes_length o
  | _ => rfl

/-- `*NOP` writes `PC` and the record of bus accesses alone (R231). -/
theorem execStarNop_frame {op : Byte} {o : NopOperand} {s t : State} (h : execStarNop op o s = .next t) :
    t = { s with PC := s.PC + BitVec.ofNat 16 o.mode.operandCount, trace := t.trace } := by
  have hkept : t = { s with PC := t.PC, trace := t.trace } := by
    cases o with
    | imp | acc | rel _ | ind _ _ => cases h; rfl
    | mem o =>
      cases h
      rw [resolve_PC]
      exact resolve_state o s
  rw [← execStarNop_PC h]
  exact hkept

/-- Settles O59: NOP by its arm of `exec`, and the frame of `*NOP`. -/
theorem noOperations : Obligations.NoOperations := by
  refine ⟨decodesFrom_encode fun _ => rfl, fun s => ⟨rfl, fun op o => ?_⟩⟩
  obtain ⟨t, ht⟩ := execStarNop_completes op o s
  rw [nopOperand_bytes_length]
  exact ⟨t, ht, execStarNop_frame ht⟩

/-! ### The reads (R232) -/

/-- What the bus answers to a list of reads depends on the parameters, on plain memory and on what has happened on the
bus. -/
theorem State.answersAt_congr {s t : State} (as : List Addr) (hparams : t.params = s.params) (hmem : t.mem = s.mem)
    (hhistory : t.history = s.history) : t.answersAt as = s.answersAt as := by
  induction as generalizing s t with
  | nil => rfl
  | cons a as ih =>
    have hpeek := State.peek_congr hparams hmem hhistory a
    have hnext := ih (s := s.noteRead a (s.peek a)) (t := t.noteRead a (s.peek a)) hparams hmem <| by
      simpa only [State.history, State.noteRead_past, State.noteRead_trace, ← List.append_assoc] using
        congrArg (· ++ [.read a (s.peek a)]) hhistory
    rw [State.answersAt, State.answersAt, hpeek, hnext]

/-- The reads of the addresses one after another, with the bytes the bus answers. -/
def State.readsAt (s : State) (as : List Addr) : List BusAccess := List.zipWith .read as (s.answersAt as)

/-- `DerefZP` makes the two pointer reads, low byte first (R112). -/
theorem derefZP_trace (wrap : Bool) (z : Byte) (s : State) :
    (derefZP wrap z s).2.trace = s.trace ++ s.readsAt [zext16 z, pointerHighAddr wrap z] := by
  rw [derefZP_eq (State.answersAt_two s _ _)]
  rfl

/-- The addresses that `*NOP` in mode `m` reads after its opcode, with `lo` and `hi` at `PC` and `PC + 1` (R232). -/
def starNopReads (m : Mode) (lo hi : Byte) (s : State) : List Addr :=
  let pointer (z : Byte) : List Addr := [zext16 z, pointerHighAddr Config.zpPtrWrap z]
  match m with
  | .imp | .acc | .imm => []
  | .zp | .zpx | .zpy | .rel => [s.PC]
  | .abs | .abx | .aby => [s.PC, s.PC + 1]
  | .izx => s.PC :: pointer (lo + s.X)
  | .izy => s.PC :: pointer lo
  | .ind => [s.PC, s.PC + 1, word hi lo, word hi lo + 1]

/-- `*NOP` makes those reads when it holds the bytes that the bus answers at `PC` (R231, R232). -/
theorem execStarNop_trace {op lo hi : Byte} {m : Mode} {s t : State} (hbytes : s.answersAt [s.PC, s.PC + 1] = [lo, hi])
    (h : execStarNop op (.ofMode m lo hi) s = .next t) :
    t.trace = s.trace ++ s.readsAt (starNopReads m lo hi s) := by
  rw [State.answersAt_two] at hbytes
  cases hbytes
  cases m with
  | imp | acc | imm => cases h; exact (List.append_nil _).symm
  | zp | zpx | zpy | rel => cases h; rfl
  | abs | abx | aby => cases h; exact List.append_assoc _ _ _
  | izx | izy => cases h; exact (derefZP_trace _ _ (s.takeOperand _)).trans (List.append_assoc _ _ _)
  | ind => cases h; rw [resolveInd_eq]; rfl

/-! ### A step of an undocumented opcode -/

/-- After the opcode fetch the bus answers what it answers after a read of the opcode. -/
theorem answersAt_PC_cons (s : State) (as : List Addr) :
    s.answersAt (s.PC :: as) = s.peek s.PC :: (afterFetch s).answersAt as := by
  rw [State.answersAt]
  refine congrArg _ (State.answersAt_congr as rfl rfl ?_)
  simp [State.history, afterFetch]

/-- The opcode fetch is the first of the step's reads. -/
theorem readsAt_PC_cons (s : State) (as : List Addr) :
    s.readsAt (s.PC :: as) = (afterFetch s).trace ++ (afterFetch s).readsAt as := by
  rw [State.readsAt, answersAt_PC_cons]
  rfl

/-- A step of an undocumented opcode, with the operand bytes that the bus answers after the opcode. -/
theorem step_undocumented {s : State} {m : Mode} {op lo hi : Byte} (hm : illegalMode s.params.illegal op = some m)
    (hbytes : s.answersAt [s.PC, s.PC + 1, s.PC + 2] = [op, lo, hi]) :
    step s = .next { s with
      PC := s.PC + BitVec.ofNat 16 (1 + m.operandCount)
      past := s.history
      trace := s.readsAt (s.PC :: starNopReads m lo hi (afterFetch s)) } := by
  have hinstr : instrAtPC s = .starNop op (.ofMode m lo hi) := by
    rw [instrAtPC_eq s hbytes, decodeOpcode_undocumented _ op lo hi m hm]
  obtain ⟨t, ht⟩ := execStarNop_completes op (.ofMode m lo hi) (afterFetch s)
  have hoperand : (afterFetch s).answersAt [(afterFetch s).PC, (afterFetch s).PC + 1] = [lo, hi] := by
    have hnext : (afterFetch s).PC + 1 = s.PC + 2 := BitVec.add_assoc s.PC 1 1
    rw [answersAt_PC_cons] at hbytes
    rw [hnext]
    exact (List.cons.inj hbytes).2
  have hpc : s.PC + 1 + BitVec.ofNat 16 m.operandCount = s.PC + BitVec.ofNat 16 (1 + m.operandCount) := by
    rw [BitVec.ofNat_add, BitVec.add_assoc]
    rfl
  rw [step_eq, hinstr, exec, ht, execStarNop_frame ht, execStarNop_trace hoperand ht, ← readsAt_PC_cons,
    NopOperand.ofMode_mode, ← hpc]
  rfl

/-- Settles O60: the addresses that `*NOP` reads, mode by mode as numbers. -/
theorem undocumentedOpcodeStep : Obligations.UndocumentedOpcodeStep := by
  intro s m hm reads operand pointer p
  have hbytes : s.answersAt [s.PC, s.PC + 1, s.PC + 2] = [s.peek s.PC, operand 1, operand 2] :=
    State.answersAt_three s _ _ _
  have hnext : s.PC + 1 + 1 = s.PC + 2 := BitVec.add_assoc s.PC 1 1
  have hpointer : ∀ z, [zext16 z, pointerHighAddr Config.zpPtrWrap z] = pointer z := fun z => by rw [zext16_eq]
  have hword : word (operand 2) (operand 1) = p := word_eq _ _
  have hPC : (afterFetch s).PC = s.PC + 1 := rfl
  have hX : (afterFetch s).X = s.X := rfl
  rw [step_undocumented hm hbytes]
  simp only [starNopReads, hPC, hX, hnext, hpointer, hword]
  cases m <;> rfl

end Sys2Proof.Machine
end

section
/-! PROOFS. Interrupts and reset (R244 to R246, R255, R270, R271): the shared sequence, its entries, and the reset. -/

namespace Sys2Proof.Machine

/-! ### The interrupt sequence (R244) -/

/-- Settles O24: the three pushes, then the word that the bus answers at the vector. -/
theorem interruptSequence : Obligations.InterruptSequence := by
  intro s vec b hs
  obtain ⟨lo, hi, hvector⟩ : ∃ lo hi, (interruptPushes s b).answersAt [vec, vec + 1] = [lo, hi] :=
    ⟨_, _, State.answersAt_two _ _ _⟩
  refine ⟨s.interrupt vec b, s.packP b, lo, hi, rfl, statusByte_packP s b, ?_⟩
  simp only [← hiByte_eq, ← loByte_eq, ← word_eq]
  refine ⟨threeStored_of_interruptMemory hs (s.interrupt_params vec b) (s.interrupt_mem vec b), ?reads, ?update⟩
  case reads =>
    rw [State.interrupt_mem]
    exact hvector
  case update =>
    rw [State.interrupt_of_answersAt hvector]
    rfl

/-! ### Maskable and non-maskable interrupts (R245, R246) -/

/-- Above page 1 the pushes of an entry leave plain memory as it is, whatever form memory has. -/
theorem peek_above_page_one {s t : State} {b : Bool} {a : Addr} (hparams : t.params = s.params)
    (hmem : t.mem = interruptMemory s b) (habove : 512 ≤ a.toNat) (ha : s.IsPlain a) : t.peek a = s.peek a := by
  have hne := fun sp => stackByte_ne sp a habove
  rw [State.peek_plain ha, State.peek_plain (s := t) (by rwa [State.IsPlain, hparams]), hmem, interruptMemory]
  simp only [Memory.read_store_other _ _ _ _ _ (hne _)]

/-- A hardware interrupt at the beginning of a transaction, through a vector above page 1: what it pushes last, what it
reads, and where it goes. -/
theorem hardwareInterrupt_entry (s : State) {vec : Addr} (hlow : 512 ≤ vec.toNat) (hhigh : 512 ≤ (vec + 1).toNat) :
    let t := s.beginTransaction.interrupt vec false
    ∃ p lo hi, StatusByte p s false ∧
      t.trace.drop 2 = [.write (stackByte (s.SP - 2)) p, .read vec lo, .read (vec + 1) hi] ∧
      t.PC = BitVec.ofNat 16 (256 * hi.toNat + lo.toNat) ∧
      (s.IsPlain vec → lo = s.peek vec) ∧ (s.IsPlain (vec + 1) → hi = s.peek (vec + 1)) ∧
      (Inv s → s.IsPlain (stackByte (s.SP - 2)) → t.peek (stackByte (s.SP - 2)) = p) := by
  intro t
  have hmem : t.mem = interruptMemory s false := State.interrupt_mem _ _ _
  have hparams : t.params = s.params := State.interrupt_params _ _ _
  have ht : t = _ := s.beginTransaction.interrupt_eq vec false
  let w := interruptPushes s.beginTransaction false
  refine ⟨s.packP false, w.peek vec, (w.noteRead vec (w.peek vec)).peek (vec + 1), statusByte_packP s false, ?trace,
    ?pc, peek_above_page_one rfl rfl hlow, peek_above_page_one rfl rfl hhigh, fun hs hplain => ?status⟩
  case trace => rw [ht]; rfl
  case pc => rw [ht, ← word_eq]
  case status =>
    obtain ⟨-, -, hstatus, -⟩ := threeStored_of_interruptMemory hs hparams hmem
    exact hstatus hplain

/-- Settles O25: dropped with `I` set, and otherwise a hardware interrupt through 0xFFFE. -/
theorem irqIsMaskedByInterruptDisable : Obligations.IrqIsMaskedByInterruptDisable := by
  intro s begun
  refine ⟨fun hI => congrArg Host.Outcome.next (s.irq_of_set hI), fun hI => ?_⟩
  obtain ⟨p, lo, hi, hp, htrace, hPC, hlo, hhi, hpushed⟩ :=
    hardwareInterrupt_entry s (vec := 0xFFFE) (by decide) (by decide)
  obtain ⟨-, -, hp2, -, hp4, hp5, -, -⟩ := hp
  exact ⟨_, p, lo, hi, congrArg Host.Outcome.next (s.irq_of_clear hI), rfl, htrace, hPC, hlo, hhi, hpushed, hp4, hp5,
    hp2.trans hI⟩

/-- Settles O26: a hardware interrupt through 0xFFFA, whatever `I` is. -/
theorem nmiIsAlwaysTaken : Obligations.NmiIsAlwaysTaken := by
  intro s begun
  obtain ⟨p, lo, hi, hp, htrace, hPC, hlo, hhi, hpushed⟩ :=
    hardwareInterrupt_entry s (vec := 0xFFFA) (by decide) (by decide)
  obtain ⟨-, -, hp2, -, hp4, hp5, -, -⟩ := hp
  exact ⟨_, p, lo, hi, rfl, rfl, State.interrupt_I _ _ _, htrace, hPC, hlo, hhi, hpushed, hp4, hp5, hp2⟩

/-! ### Reset (R270, R271) -/

/-- Settles O27: the vector is read as the bus answers before the transaction. -/
theorem resetTransaction : Obligations.ResetTransaction := by
  intro s lo hi h
  let begun : State := { s.beginTransaction with I := true, SP := s.SP - 3 }
  have hread : begun.answersAt [0xFFFC, 0xFFFC + 1] = [lo, hi] := by
    rw [← h]
    exact State.answersAt_congr _ rfl rfl (List.append_nil _)
  have hload : s.resetCall = { (begun.deref16 0xFFFC).2 with PC := (begun.deref16 0xFFFC).1 } := rfl
  rw [transact, hload, State.deref16_of_answersAt hread, word_eq]
  rfl

/-! ### BRK and IRQ tell apart (R255) -/

/-- The break bit is bit 4 of the status byte and no other (R22). -/
theorem packP_getLsbD_of_ne_four (s : State) (b c : Bool) {k : Nat} (hk : k ≠ 4) :
    (s.packP b).getLsbD k = (s.packP c).getLsbD k := by
  have hbreak : ∀ b : Bool, (statusBit b 4).getLsbD k = false := by
    rintro (_ | _)
    · exact BitVec.getLsbD_zero
    · change (BitVec.twoPow 8 4).getLsbD k = false
      simp [BitVec.getLsbD_twoPow, hk.symm]
  simp only [State.packP, BitVec.getLsbD_or, hbreak]

/-- An entry through a vector in plain memory above page 1 goes to the word that stood there. -/
theorem interrupt_plain_vector {s : State} {vec : Addr} (b : Bool) (hlow : 512 ≤ vec.toNat)
    (hhigh : 512 ≤ (vec + 1).toNat) (hplain : s.IsPlain vec) (hplain' : s.IsPlain (vec + 1)) :
    s.interrupt vec b = { s with
      SP := s.SP - 3
      I := true
      PC := word (s.peek (vec + 1)) (s.peek vec)
      mem := interruptMemory s b
      trace := (s.interrupt vec b).trace } := by
  let w := interruptPushes s b
  have hlo : w.peek vec = s.peek vec := peek_above_page_one rfl rfl hlow hplain
  have hhi : (w.noteRead vec (w.peek vec)).peek (vec + 1) = s.peek (vec + 1) :=
    peek_above_page_one rfl rfl hhigh hplain'
  rw [← hlo, ← hhi, State.interrupt_eq]

section
variable {s t u : State} {b c : Bool} (ht : t = s.interrupt irqVector b)
  (hu : u = s.beginTransaction.interrupt irqVector c)
include ht hu

/-- Two entries, the second of which begins a transaction, store the same bytes but for the status byte. -/
theorem peek_entries_of_ne (hs : Inv s) {a : Addr} (hne : a ≠ stackByte (s.SP - 2)) (ha : s.IsPlain a) :
    u.peek a = t.peek a := by
  have htread : t.peek a = Memory.read (interruptMemory s b) a.toNat := by
    rw [ht, State.peek_plain (by rwa [State.IsPlain, State.interrupt_params]), State.interrupt_mem]
  have huread : u.peek a = Memory.read (interruptMemory s c) a.toNat := by
    rw [hu, State.peek_plain (by rwa [State.IsPlain, State.interrupt_params]), State.interrupt_mem]
    rfl
  rw [htread, huread, read_interruptMemory s b hs a ha, read_interruptMemory s c hs a ha, if_neg hne, if_neg hne]

/-- Their status bytes, in plain memory, are those of the break bits. -/
theorem peek_entries_status (hs : Inv s) (htop : s.IsPlain (stackByte (s.SP - 2))) :
    t.peek (stackByte (s.SP - 2)) = s.packP b ∧ u.peek (stackByte (s.SP - 2)) = s.packP c := by
  subst ht hu
  obtain ⟨-, -, htstatus, -⟩ :=
    threeStored_of_interruptMemory hs (s.interrupt_params irqVector b) (s.interrupt_mem _ b)
  obtain ⟨-, -, hustatus, -⟩ := threeStored_of_interruptMemory (s := s.beginTransaction) hs
    (State.interrupt_params _ irqVector c) (State.interrupt_mem _ _ c)
  exact ⟨htstatus htop, hustatus htop⟩

/-- With the vector in plain memory they differ in the stored bytes and in the record of the bus alone. -/
theorem entries_eq_of_plain_vector (hlow : s.IsPlain irqVector) (hhigh : s.IsPlain (irqVector + 1)) :
    u = { t with mem := u.mem, past := u.past, trace := u.trace } := by
  subst ht hu
  have hu := interrupt_plain_vector (s := s.beginTransaction) c (by decide) (by decide) hlow hhigh
  simp only [State.beginTransaction_peek] at hu
  rw [interrupt_plain_vector b (by decide) (by decide) hlow hhigh, State.interrupt_mem, State.interrupt_past]
  exact hu

end

/-- Settles O31: both are the interrupt sequence from the address after the padding byte, with the break bit set and
clear. -/
theorem breakBitTellsBrkFromIrq : Obligations.BreakBitTellsBrkFromIrq := by
  intro s t u hs hI ht hu top hlow hhigh htop
  have ht : t = s.advance.interrupt irqVector true := (Host.Outcome.next.inj ht).symm
  have hu : u = s.advance.beginTransaction.interrupt irqVector false :=
    (Host.Outcome.next.inj hu).symm.trans (s.advance.irq_of_clear hI)
  have htop_eq : top = stackByte (s.advance.SP - 2) := by
    have hSP : t.SP = s.SP - 3 := by rw [ht, State.interrupt_SP, State.advance_SP]
    rw [stackByte_inj, hSP, State.advance_SP]
    bv_omega
  rw [htop_eq] at htop ⊢
  obtain ⟨htstatus, hustatus⟩ := peek_entries_status ht hu hs htop
  obtain ⟨-, -, -, -, ht4, -⟩ := statusByte_packP s.advance true
  obtain ⟨-, -, -, -, hu4, -⟩ := statusByte_packP s.advance false
  rw [htstatus, hustatus]
  exact ⟨ht4, hu4, fun k => packP_getLsbD_of_ne_four s.advance false true, fun a => peek_entries_of_ne ht hu hs,
    entries_eq_of_plain_vector ht hu hlow hhigh⟩

end Sys2Proof.Machine
end

section
/-! PROOFS. A step that changes nothing (R284): with plain memory behind the whole bus no instruction sees the record of
bus events, so such a step repeats; and JMP to its own address repeats from plain memory alone. -/

namespace Sys2Proof.Machine

/-! ### States without their record -/

/-- `s` without the record of bus events, which is no state of the core (note 4). -/
def State.eraseRecord (s : State) : State := { s with past := [], trace := [] }

/-- Two states are the same but for the record when they are the same without it. -/
theorem eq_of_eraseRecord_eq {s t : State} (h : t.eraseRecord = s.eraseRecord) :
    t = { s with past := t.past, trace := t.trace } :=
  congrArg (fun u : State => { u with past := t.past, trace := t.trace }) h

theorem eraseRecord_eq_of_eq {s t : State} (h : t = { s with past := t.past, trace := t.trace }) :
    t.eraseRecord = s.eraseRecord := by
  rw [h]
  rfl

/-- What such states share that the bus answers by, and `PC`. -/
theorem fields_of_eraseRecord_eq {s t : State} (h : t.eraseRecord = s.eraseRecord) :
    t.params = s.params ∧ t.mem = s.mem ∧ t.PC = s.PC :=
  ⟨(congrArg State.params h :), (congrArg State.mem h :), (congrArg State.PC h :)⟩

@[simp] theorem State.eraseRecord_params (s : State) : s.eraseRecord.params = s.params := rfl
@[simp] theorem State.eraseRecord_mem (s : State) : s.eraseRecord.mem = s.mem := rfl

/-! ### Noninterference of the record -/

/-- With plain memory behind the whole bus, memory alone answers. -/
theorem peek_of_no_devices {s : State} (hdevices : s.params.devices = []) (a : Addr) :
    s.peek a = Memory.read s.mem a.toNat := by
  refine State.peek_plain ?_
  rw [State.IsPlain, hdevices]
  exact List.not_mem_nil

section
variable {s : State} (hdevices : s.params.devices = [])
include hdevices

theorem derefZP_fst_eraseRecord (wrap : Bool) (z d8 : Byte) :
    (derefZP wrap z (s.eraseRecord.takeOperand d8)).1 = (derefZP wrap z (s.takeOperand d8)).1 := by
  simp [derefZP, State.memRead, peek_of_no_devices, hdevices]

theorem effectiveAddr_eraseRecord (o : Operand) : effectiveAddr o s.eraseRecord = effectiveAddr o s := by
  cases o with
  | izx d8 => exact derefZP_fst_eraseRecord hdevices _ (d8 + s.X) d8
  | izy d8 => exact congrArg (· + zext16 s.Y) (derefZP_fst_eraseRecord hdevices _ d8 d8)
  | _ => rfl

theorem operandValue_eraseRecord (o : Operand) : operandValue o s.eraseRecord = operandValue o s := by
  have hpeek : ∀ a, (resolve o s.eraseRecord).2.peek a = (resolve o s).2.peek a := by
    simp [peek_of_no_devices, hdevices]
  have haddr := effectiveAddr_eraseRecord hdevices o
  cases o with
  | imm _ => rfl
  | _ => exact (hpeek _).trans (congrArg (resolve _ s).2.peek haddr)

/-- The record has no part in what an instruction does: without it the outcome is the same but for the record. -/
theorem exec_eraseRecord {i : Instr} {t : State} (h : exec i s = .next t) :
    ∃ u, exec i s.eraseRecord = .next u ∧ u.eraseRecord = t.eraseRecord := by
  have haddr := effectiveAddr_eraseRecord hdevices
  have hvalue := operandValue_eraseRecord hdevices
  cases i with
  | bpl _ | bmi _ | bvc _ | bvs _ | bcc _ | bcs _ | bne _ | beq _ =>
    simp only [exec, execBpl, execBmi, execBvc, execBvs, execBcc, execBcs, execBne, execBeq, branch_eq] at h ⊢
    cases h
    exact ⟨_, rfl, rfl⟩
  | clc | sec | cli | sei | cld | sed | clv | tax | tay | txa | tya | txs | tsx | inx | iny | dex | dey | nop | jmpAbs _ _
  | php | pha =>
    cases h
    exact ⟨_, rfl, rfl⟩
  | plp | pla =>
    simp only [exec, execPlp, execPla, State.pop_eq, peek_of_no_devices, hdevices, State.eraseRecord_params,
      State.eraseRecord_mem] at h ⊢
    cases h
    exact ⟨_, rfl, rfl⟩
  | jmpInd _ _ | jsr _ _ | rts | brk | rti =>
    simp only [exec, execJmpInd_eq, execJsr_eq, execRts_eq, execBrk, execRti, State.interrupt_eq,
      State.returnFromInterrupt_eq, peek_of_no_devices, hdevices, State.eraseRecord_params, State.eraseRecord_mem,
      State.noteRead_params, State.noteRead_mem, State.takeOperand16_params, State.takeOperand16_mem,
      interruptPushes_params, interruptPushes_mem, State.advance_params] at h ⊢
    cases h
    exact ⟨_, rfl, rfl⟩
  | lda o | ldx o | ldy o | ora o | and o | eor o | bit o | cmp o | cpx o | cpy o =>
    simp only [exec, execLda, execLdx, execLdy, execOra, execAnd, execEor, execBit, execCmp, execCpx, execCpy,
      readOperand_update, haddr, hvalue, resolve_PC] at h ⊢
    cases h
    exact ⟨_, rfl, rfl⟩
  | sta o | stx o | sty o | inc o | dec o =>
    simp only [exec, execSta, execStx, execSty, execInc, execDec, storeOperand_eq, modifyMemory_eq, haddr, hvalue,
      resolve_PC] at h ⊢
    cases h
    exact ⟨_, rfl, rfl⟩
  | adc o | sbc o =>
    simp only [exec, execAdc_eq, execSbc_eq, haddr, hvalue, resolve_PC] at h ⊢
    cases h
    exact ⟨_, rfl, rfl⟩
  | asl target | lsr target | rol target | ror target =>
    cases target with
    | acc => cases h; exact ⟨_, rfl, rfl⟩
    | mem o =>
      simp only [exec, execAsl, execLsr, execRol, execRor, shiftTarget_mem_eq, haddr, hvalue, resolve_PC] at h ⊢
      cases h
      exact ⟨_, rfl, rfl⟩
  | starNop op n =>
    obtain ⟨u, hu⟩ := exec_completes (.starNop op n) s.eraseRecord
    refine ⟨u, hu, ?_⟩
    rw [execStarNop_frame (op := op) hu, execStarNop_frame (op := op) h]
    rfl

/-- A step finds the same instruction without the record. -/
theorem instrAtPC_eraseRecord : instrAtPC s.eraseRecord = instrAtPC s := by
  have hanswers : s.eraseRecord.answersAt [s.PC, s.PC + 1, s.PC + 2] = s.answersAt [s.PC, s.PC + 1, s.PC + 2] := by
    simp [State.answersAt, peek_of_no_devices, hdevices]
  rw [State.answersAt_three s] at hanswers
  rw [instrAtPC_eq s (State.answersAt_three s _ _ _)]
  exact instrAtPC_eq s.eraseRecord hanswers

end

section
variable {s t u : State} (hdevices : s.params.devices = []) (hsame : u.eraseRecord = s.eraseRecord)
include hdevices hsame

/-- Two states that differ in the record alone have outcomes that do so too. -/
theorem exec_of_eraseRecord_eq {i : Instr} (h : exec i s = .next t) :
    ∃ v, exec i u = .next v ∧ v.eraseRecord = t.eraseRecord := by
  obtain ⟨hparams, -, -⟩ := fields_of_eraseRecord_eq hsame
  obtain ⟨v, hv⟩ := exec_completes i u
  obtain ⟨t', ht', hterased⟩ := exec_eraseRecord hdevices h
  obtain ⟨v', hv', hverased⟩ := exec_eraseRecord (hparams ▸ hdevices) hv
  rw [hsame, ht'] at hv'
  cases hv'
  exact ⟨v, hv, hverased.symm.trans hterased⟩

theorem instrAtPC_of_eraseRecord_eq : instrAtPC u = instrAtPC s := by
  obtain ⟨hparams, -, -⟩ := fields_of_eraseRecord_eq hsame
  rw [← instrAtPC_eraseRecord (hparams ▸ hdevices : u.params.devices = []), hsame, instrAtPC_eraseRecord hdevices]

theorem step_of_eraseRecord_eq (h : step s = .next t) : ∃ v, step u = .next v ∧ v.eraseRecord = t.eraseRecord := by
  have hfetched : (afterFetch u).eraseRecord = (afterFetch s).eraseRecord :=
    congrArg (fun s : State => { s with PC := s.PC + 1 }) hsame
  rw [step_eq] at h ⊢
  rw [instrAtPC_of_eraseRecord_eq hdevices hsame]
  exact exec_of_eraseRecord_eq (s := afterFetch s) hdevices hfetched h

end

/-! ### Repetition (R284) -/

/-- What every step keeps holds after any number of steps. -/
theorem run_of_step_keeps {P : State → Prop} (hstep : ∀ s, P s → ∃ t, step s = .next t ∧ P t) (n : Nat) (s : State)
    (hs : P s) : ∃ t, Sys2Proof.core.run n s = .next t ∧ P t := by
  induction n generalizing s with
  | zero => exact ⟨s, rfl, hs⟩
  | succ n ih =>
    obtain ⟨t, ht, htP⟩ := hstep s hs
    obtain ⟨u, hu, huP⟩ := ih t htP
    have hcore : Sys2Proof.core.step s = .next t := ht
    exact ⟨u, by simp only [Host.Core.run, hcore]; exact hu, huP⟩

/-- A state from which, whatever the record, a step changes nothing but the record is left so for ever. -/
theorem run_of_step_eraseRecord_eq {s : State}
    (hstep : ∀ u, u.eraseRecord = s.eraseRecord → ∃ v, step u = .next v ∧ v.eraseRecord = s.eraseRecord) (n : Nat) :
    ∃ u, Sys2Proof.core.run n s = .next u ∧ u = { s with past := u.past, trace := u.trace } := by
  obtain ⟨u, hu, hsame⟩ := run_of_step_keeps hstep n s rfl
  exact ⟨u, hu, eq_of_eraseRecord_eq hsame⟩

/-- JMP to its own address in plain memory is a step that changes the record alone. -/
theorem step_selfJump {s : State} (h0 : s.IsPlain s.PC) (h1 : s.IsPlain (s.PC + 1)) (h2 : s.IsPlain (s.PC + 2))
    (hop : s.peek s.PC = 0x4C) (hlo : s.peek (s.PC + 1) = loByte s.PC) (hhi : s.peek (s.PC + 2) = hiByte s.PC) :
    ∃ t, step s = .next t ∧ t.eraseRecord = s.eraseRecord := by
  have hbytes : s.answersAt [s.PC, s.PC + 1, s.PC + 2] = [0x4C, loByte s.PC, hiByte s.PC] := by
    rw [State.answersAt_plain]
    · simp only [List.map, hop, hlo, hhi]
    · simpa using ⟨h0, h1, h2⟩
  have hinstr : instrAtPC s = .jmpAbs (loByte s.PC) (hiByte s.PC) := instrAtPC_eq s hbytes
  have hstep : step s = .next { (afterFetch s).takeOperand16 (loByte s.PC) (hiByte s.PC) with PC := s.PC } := by
    rw [step_eq, hinstr, exec, execJmpAbs, word_hiByte_loByte]
  exact ⟨_, hstep, by simp [State.eraseRecord, afterFetch]⟩

/-- Settles O42: with no device no step sees the record, and the bytes of a jump in plain memory are what they were. -/
theorem selfJumpRepeatsForever : Obligations.SelfJumpRepeatsForever := by
  refine ⟨fun s t hplain hstep hsame => ?silent, fun s h0 h1 h2 hop hlo hhi => ?jump⟩
  case silent =>
    have hdevices : s.params.devices = [] := List.eq_nil_iff_forall_not_mem.mpr hplain
    refine run_of_step_eraseRecord_eq fun u hu => ?_
    obtain ⟨v, hv, hvt⟩ := step_of_eraseRecord_eq hdevices hu hstep
    exact ⟨v, hv, hvt.trans (eraseRecord_eq_of_eq hsame)⟩
  case jump =>
    rw [← loByte_eq] at hlo
    rw [← hiByte_eq] at hhi
    have hstep : ∀ u, u.eraseRecord = s.eraseRecord → ∃ v, step u = .next v ∧ v.eraseRecord = s.eraseRecord := by
      intro u hu
      obtain ⟨hparams, hmem, hPC⟩ := fields_of_eraseRecord_eq hu
      have hplain : ∀ {a}, s.IsPlain a → u.IsPlain a := fun ha => by rwa [State.IsPlain, hparams]
      have hpeek : ∀ {a}, s.IsPlain a → u.peek a = s.peek a := fun ha => State.peek_plain_congr ha hparams hmem
      rw [← hu]
      rw [← hpeek h0, ← hPC] at hop
      rw [← hpeek h1, ← hPC] at hlo
      rw [← hpeek h2, ← hPC] at hhi
      rw [← hPC] at h0 h1 h2
      exact step_selfJump (hplain h0) (hplain h1) (hplain h2) hop hlo hhi
    obtain ⟨t, ht, hsame⟩ := hstep s rfl
    exact ⟨⟨t, ht, eq_of_eraseRecord_eq hsame⟩, run_of_step_eraseRecord_eq hstep⟩

end Sys2Proof.Machine
end
